-- ==== Sys2Proof/Word.lean ====
section
/-! DEFINITION. The unsigned words of the block (00_scope.md R7, R8): every value is an unsigned integer of a stated
width, so each is a bit vector and no operation is signed. -/

namespace Sys2Proof

/-- An 8-bit value: a status, signature, drive-select or LBA byte. -/
abbrev Byte := BitVec 8

/-- A 16-bit value: a word of the data port, or an I/O address (R81). -/
abbrev Half := BitVec 16

/-- A 32-bit value: a host register (R7). -/
abbrev Word := BitVec 32

/-- The 64-bit host command word `CMD1 ++ CMD0` (R110). -/
abbrev CmdWord := BitVec 64

/-- `zext_32` of R9. -/
abbrev zext32 {n : Nat} (v : BitVec n) : Word := v.setWidth 32

end Sys2Proof
end

