-- ==== Sys2Proof/Syntax.lean ====
section
/-! DEFINITION. The commands of the block: one constructor of `Instr` for each row of the opcode map (30_encoding.md R114),
with the operands of the formats of R111 (R113: taken unchanged, unsigned). -/

namespace Sys2Proof

/-- The nine port handles (10_state.md R31), under the names R112 gives them. -/
inductive Handle
  | data | seccount | lbaLo | lbaMid | lbaHi | drvsel | cmdstat | pciAddr | pciData
deriving DecidableEq, Repr

/-- The widths a bus transaction may have (R37, R82). -/
inductive Width
  | w8 | w16 | w32
deriving DecidableEq, Repr

/-- The drive selector, field `d` of format I (R111). -/
inductive Drive
  | master | slave
deriving DecidableEq, Repr

/-- The bus classes of 41_register_file_arbiter.md R172. -/
inductive BusClass
  | ata | pci
deriving DecidableEq, Repr

/-- The five commands (R114). -/
inductive Instr
  /-- `PORT_READ h` (R174), format P. -/
  | portRead (h : Handle)
  /-- `PORT_WRITE h, data` (R175), format P. -/
  | portWrite (h : Handle) (data : Word)
  /-- `PCI_CFG_READ bus, slot, func, off` (R150), format C. -/
  | pciCfgRead (bus slot func off : Byte)
  /-- `ATA_IDENTIFY d` (R210), format I. -/
  | ataIdentify (d : Drive)
  /-- `ATA_READ_SECTOR lba` (R270), format S; all 32 bits are kept (R113). -/
  | ataReadSector (lba : Word)
deriving DecidableEq, Repr

end Sys2Proof
end

