-- ==== Sys2Proof/Machine/Handles.lean ====
section
/-! DEFINITION. The port handle table (10_state.md R31): index, I/O address and width of each handle, and the bus class of
each command (41_register_file_arbiter.md R172). -/

namespace Sys2Proof

/-- The width in bits. -/
def Width.bits : Width → Nat
  | .w8 => 8
  | .w16 => 16
  | .w32 => 32

/-- Every handle, in the order of R31's table. -/
def Handle.all : List Handle :=
  [.data, .seccount, .lbaLo, .lbaMid, .lbaHi, .drvsel, .cmdstat, .pciAddr, .pciData]

/-- The handle index (R31, R112). -/
def Handle.index : Handle → BitVec 4
  | .data => 0
  | .seccount => 1
  | .lbaLo => 2
  | .lbaMid => 3
  | .lbaHi => 4
  | .drvsel => 5
  | .cmdstat => 6
  | .pciAddr => 7
  | .pciData => 8

/-- The handle of an index; indices 9 to 15 name none (R112). -/
def Handle.ofIndex (k : BitVec 4) : Option Handle :=
  Handle.all.find? fun h => h.index == k

/-- The I/O address of a handle (R31; 0xCF8 is the address port and 0xCFC the data port by D32, assumption 22). -/
def Handle.addr : Handle → Half
  | .data => 0x1F0
  | .seccount => 0x1F2
  | .lbaLo => 0x1F3
  | .lbaMid => 0x1F4
  | .lbaHi => 0x1F5
  | .drvsel => 0x1F6
  | .cmdstat => 0x1F7
  | .pciAddr => 0xCF8
  | .pciData => 0xCFC

/-- The width of a handle (R31, R117). -/
def Handle.width : Handle → Width
  | .data => .w16
  | .seccount => .w8
  | .lbaLo => .w8
  | .lbaMid => .w8
  | .lbaHi => .w8
  | .drvsel => .w8
  | .cmdstat => .w8
  | .pciAddr => .w32
  | .pciData => .w32

/-- The class of a handle: indices 0 to 6 are ATA, 7 and 8 are PCI (R172). -/
def Handle.busClass : Handle → BusClass
  | .data => .ata
  | .seccount => .ata
  | .lbaLo => .ata
  | .lbaMid => .ata
  | .lbaHi => .ata
  | .drvsel => .ata
  | .cmdstat => .ata
  | .pciAddr => .pci
  | .pciData => .pci

/-- The class of a command (R172). -/
def Instr.busClass : Instr → BusClass
  | .portRead h => h.busClass
  | .portWrite h _ => h.busClass
  | .pciCfgRead _ _ _ _ => .pci
  | .ataIdentify _ => .ata
  | .ataReadSector _ => .ata

/-- The part of a 32-bit value that a port of width `k` carries: `v[k-1:0]`, zero-extended (R9, R175). -/
def Width.carry (k : Width) (v : Word) : Word :=
  (v.setWidth k.bits).setWidth 32

end Sys2Proof
end

