-- ==== Sys2Proof/WellFormed.lean ====
section
/-! DEFINITION. Well-formed commands: those some valid command word stands for (30_encoding.md R118). Handles and drive
selectors are constructors, so the one check left is that a written value fits its port (R117). -/

namespace Sys2Proof

/-- `data < 2^width(h)` for PORT_WRITE (R117, D4); nothing is left to check in the others (R115). -/
def Instr.wellFormed : Instr → Bool
  | .portRead _ => true
  | .portWrite h data => decide (data.toNat < 2 ^ h.width.bits)
  | .pciCfgRead _ _ _ _ => true
  | .ataIdentify _ => true
  | .ataReadSector _ => true

end Sys2Proof
end

