-- ==== Sys2Proof/Decode.lean ====
section
/-! DEFINITION. Decoding and encoding of the 64-bit command word (30_encoding.md R110 to R118). The decoder is total and
rejects by name; the encoder is written from the same format tables. `valid` is R118 and `selectsRow` is the match and mask
table of R115, both written apart from the decoder so that statements can hold the three against each other. -/

namespace Sys2Proof

/-- Why a command word is no command (R116); at a GO each of them is BAD_COMMAND (R303). -/
inductive DecodeError
  /-- `w[7:0]` is none of the five opcodes (R114). -/
  | illegalOpcode
  /-- A bit that the format reserves is 1 (R111). -/
  | reservedBits
  /-- Handle index 9 to 15 (R112). -/
  | illegalHandle
  /-- PORT_WRITE of a value wider than the port (R117). -/
  | dataTooWide
deriving DecidableEq, Repr

/-! ### The fields of R111 -/

/-- `w[hi:lo]` as a field of `n` bits from bit `lo` (R8). -/
def field (w : CmdWord) (lo n : Nat) : BitVec n := w.extractLsb' lo n

/-- Bits 7:0 of every command (R110). -/
def opcodeOf (w : CmdWord) : Byte := field w 0 8

/-- Field `d` of format I: 0 is master, 1 is slave. -/
def driveOf (b : BitVec 1) : Drive := if b = 1 then .slave else .master

/-- Format P as a PORT_READ: `h` in 11:8, every other bit above the opcode 0. -/
def decodePortRead (w : CmdWord) : Except DecodeError Instr :=
  if field w 12 4 ≠ 0 ∨ field w 16 48 ≠ 0 then .error .reservedBits
  else match Handle.ofIndex (field w 8 4) with
    | none => .error .illegalHandle
    | some h => .ok (.portRead h)

/-- Format P as a PORT_WRITE: `h` in 11:8, `data` in 47:16. -/
def decodePortWrite (w : CmdWord) : Except DecodeError Instr :=
  if field w 12 4 ≠ 0 ∨ field w 48 16 ≠ 0 then .error .reservedBits
  else match Handle.ofIndex (field w 8 4) with
    | none => .error .illegalHandle
    | some h =>
      if (field w 16 32).toNat < 2 ^ h.width.bits then .ok (.portWrite h (field w 16 32))
      else .error .dataTooWide

/-- Format C: `bus` in 15:8, `slot` in 23:16, `func` in 31:24, `off` in 39:32. -/
def decodePciCfgRead (w : CmdWord) : Except DecodeError Instr :=
  if field w 40 24 ≠ 0 then .error .reservedBits
  else .ok (.pciCfgRead (field w 8 8) (field w 16 8) (field w 24 8) (field w 32 8))

/-- Format I: `d` in bit 8. -/
def decodeAtaIdentify (w : CmdWord) : Except DecodeError Instr :=
  if field w 9 55 ≠ 0 then .error .reservedBits
  else .ok (.ataIdentify (driveOf (field w 8 1)))

/-- Format S: `lba` in 47:16. -/
def decodeAtaReadSector (w : CmdWord) : Except DecodeError Instr :=
  if field w 8 8 ≠ 0 ∨ field w 48 16 ≠ 0 then .error .reservedBits
  else .ok (.ataReadSector (field w 16 32))

/-- The decoder: the opcode map of R114. -/
def decode (w : CmdWord) : Except DecodeError Instr :=
  if opcodeOf w = 0x01 then decodePortRead w
  else if opcodeOf w = 0x02 then decodePortWrite w
  else if opcodeOf w = 0x10 then decodePciCfgRead w
  else if opcodeOf w = 0x20 then decodeAtaIdentify w
  else if opcodeOf w = 0x21 then decodeAtaReadSector w
  else .error .illegalOpcode

/-! ### Validity (R118) and the match and mask table (R115) -/

/-- The width function of R117 on handle indices. -/
def widthOfIndex (k : BitVec 4) : Nat :=
  if k = 0 then 16 else if k ≤ 6 then 8 else 32

/-- `valid(w)`, the predicate of R118, case by case. -/
def valid (w : CmdWord) : Bool :=
  if field w 0 8 = 0x01 then
    decide (field w 12 4 = 0) && decide (field w 16 48 = 0) && decide (field w 8 4 ≤ 8)
  else if field w 0 8 = 0x02 then
    decide (field w 12 4 = 0) && decide (field w 48 16 = 0) && decide (field w 8 4 ≤ 8)
      && decide ((field w 16 32).toNat < 2 ^ widthOfIndex (field w 8 4))
  else if field w 0 8 = 0x10 then decide (field w 40 24 = 0)
  else if field w 0 8 = 0x20 then decide (field w 9 55 = 0)
  else if field w 0 8 = 0x21 then decide (field w 8 8 = 0) && decide (field w 48 16 = 0)
  else false

/-- A row of the table of R115. -/
structure OpcodeRow where
  mnemonic : String
  mask : CmdWord
  pattern : CmdWord
deriving DecidableEq, Repr

/-- The table of R115, in its order. -/
def opcodeRows : List OpcodeRow :=
  [ ⟨"PORT_READ", 0xFFFFFFFFFFFFF0FF, 0x0000000000000001⟩,
    ⟨"PORT_WRITE", 0xFFFF00000000F0FF, 0x0000000000000002⟩,
    ⟨"PCI_CFG_READ", 0xFFFFFF00000000FF, 0x0000000000000010⟩,
    ⟨"ATA_IDENTIFY", 0xFFFFFFFFFFFFFEFF, 0x0000000000000020⟩,
    ⟨"ATA_READ_SECTOR", 0xFFFF00000000FFFF, 0x0000000000000021⟩ ]

/-- `w & mask = match` (R115). -/
def OpcodeRow.selects (r : OpcodeRow) (w : CmdWord) : Bool := w &&& r.mask == r.pattern

/-- The mnemonic of a command (R114). -/
def Instr.mnemonic : Instr → String
  | .portRead _ => "PORT_READ"
  | .portWrite _ _ => "PORT_WRITE"
  | .pciCfgRead _ _ _ _ => "PCI_CFG_READ"
  | .ataIdentify _ => "ATA_IDENTIFY"
  | .ataReadSector _ => "ATA_READ_SECTOR"

/-! ### The encoder (R111, R125) -/

/-- The bit of a drive selector (R111, format I). -/
def driveBit : Drive → BitVec 1
  | .master => 0
  | .slave => 1

/-- The command word of a command: its format of R111 written from the high bits down, reserved bits 0. -/
def encode : Instr → CmdWord
  | .portRead h => 0#16 ++ 0#32 ++ 0#4 ++ h.index ++ 0x01#8
  | .portWrite h data => 0#16 ++ data ++ 0#4 ++ h.index ++ 0x02#8
  | .pciCfgRead bus slot func off => 0#24 ++ off ++ func ++ slot ++ bus ++ 0x10#8
  | .ataIdentify d => 0#55 ++ driveBit d ++ 0x20#8
  | .ataReadSector lba => 0#16 ++ lba ++ 0#8 ++ 0x21#8

/-! ### The host's view of one opcode-table row -/

/-- The command word made of the low `nbits` bits of `w`, the bits above them 0 (one 64-bit word, R110; the table numbers its
bits as R8 does). -/
def tableWord (nbits w : Nat) : CmdWord := BitVec.ofNat 64 (w % 2 ^ nbits)

/-- What the decoder reads from a word given as the opcode table numbers its bits. -/
def decodeTableWord (nbits w : Nat) : Option Instr :=
  match decode (tableWord nbits w) with
  | .ok i => some i
  | .error _ => none

end Sys2Proof
end

