-- ==== Sys2Proof/Config.lean ====
section
/-! DEFINITION. The implementation parameters (00_scope.md R6), the environment's inputs (41_register_file_arbiter.md R173)
and the values the spec leaves free, each an opaque constant with no body. -/

namespace Sys2Proof

/-- The parameters of R6 that a rule of the block reads. They are fixed at elaboration: no step changes them. They are
carried in `State.cfg`, so that a statement about every state is about every configuration (assumption 1). -/
structure Config where
  /-- `NUM_CONTEXTS`, at least 1. -/
  numContexts : Nat
  /-- `POLL_LIMIT`: none is unbounded. -/
  pollLimit : Option Word
  /-- `EARLY_ABORT`. -/
  earlyAbort : Bool
  /-- `BUS_LOCK`. -/
  busLock : Bool
  /-- `IDSEL_MASTER`. -/
  idselMaster : Byte
  /-- `IDSEL_SLAVE`. -/
  idselSlave : Byte
deriving DecidableEq, Repr

/-- The defaults of R6; `NUM_CONTEXTS` is OPEN there with reference value 1 (DESIGN CHOICE, assumption 1: unsafe for a
claim about another number of contexts made from the reset state alone). -/
def Config.reference : Config where
  numContexts := 1
  pollLimit := none
  earlyAbort := false
  busLock := false
  idselMaster := 0xA0
  idselSlave := 0xB0

/-- The ranges of R6: at least one context, and a poll limit, where there is one, of 1 to 2^32-1. -/
def Config.wf (cfg : Config) : Bool :=
  decide (1 ≤ cfg.numContexts) && decide (cfg.pollLimit ≠ some 0)

/-- One step of one agent (R173), as the environment picks it. Host accesses carry the access width in bits and the byte
offset in the host register space (R56, R88). -/
inductive Event
  /-- The host reads `width` bits at offset `off`. -/
  | hostRead (width off : Nat)
  /-- The host writes `value`, `width` bits wide, at offset `off`. -/
  | hostWrite (width off : Nat) (value : Word)
  /-- Context `c` takes its next transaction step. -/
  | context (c : Nat)
  /-- IRQ14 is delivered (R313). -/
  | irq14
  /-- The environment takes a reset (R340). -/
  | reset
deriving DecidableEq, Repr, Inhabited

/-- FREE VALUE (R91, U1 to U7): the n-th answer of the device side to a bus read; a read of width k takes its low k bits
(assumption 3, safe). -/
opaque Config.deviceAnswer : Nat → Word

/-- FREE VALUE (R58, U8): the n-th draw a host read returns (assumption 4, safe). -/
opaque Config.hostDraw : Nat → Word

/-- FREE VALUE (R173, U13): the n-th choice of the agent that steps next (assumption 2, safe). -/
opaque Config.schedule : Nat → Event

/-- OPEN parameter `HOST_BASE` (R6, D18): where host offset 0 lies in the platform's map (assumption 14, safe). -/
opaque Config.hostBase : Nat

/-- OPEN parameter `HEX_ESCAPE_FORMAT` (R6, D30), read by the host-side rendering only (assumption 13, safe). -/
opaque Config.hexEscapeFormat : Byte → String

/-- OPEN (D30): the quote character of the host-side rendering (assumption 13, safe). -/
opaque Config.quoteCharacter : Byte

/-- OPEN (D30): the spelling of the escape of the quote character (assumption 13, safe). -/
opaque Config.quoteEscape : String

/-- OPEN (D30): the range of printable bytes of the host-side rendering (assumption 13, safe). -/
opaque Config.printable : Byte → Bool

end Sys2Proof
end

