-- ==== Sys2Proof/Machine/State.lean ====
section
/-! DEFINITION. The state of the block (10_state.md) as plain data, the reasons a step can stop, and the state at model
start, right after reset (70_reset_and_hazards.md R340). -/

namespace Sys2Proof.Machine

/-- The sequencer phases of a context (R48). -/
inductive Phase
  | idle
  /-- Port command. -/
  | pXfer
  /-- PCI configuration read. -/
  | cWAddr | cRData
  /-- IDENTIFY. -/
  | iSel | iCnt | iLo | iMid | iHi | iCmd | iS0 | iBsy | iRMid | iRHi | iDrq | iData
  /-- READ_SECTOR. -/
  | rSel | rCnt | rLo | rMid | rHi | rCmd | rDrq | rData
deriving DecidableEq, Repr

/-- The values of `STATUS.OUTCOME` (R41, R302); 6 to 15 are never produced. -/
inductive OutcomeCode
  /-- `NONE`, 0. -/
  | noneYet
  | ok | absent | notAta | timeout | badCommand
deriving DecidableEq, Repr

/-- The fields of the 32-bit `STATUS` register (R40); its reserved bits read 0 and hold nothing (assumption 21). -/
structure Status where
  busy : Bool
  done : Bool
  overrun : Bool
  outcome : OutcomeCode
  absentSeen : Bool
  notAtaSeen : Bool
deriving DecidableEq, Repr

/-- The device information record `REC` (R47) with the fields of 44_identify_decoder.md R242. -/
structure DeviceInfo where
  flags : Half
  serial : List Byte
  firmware : List Byte
  model : List Byte
  sectorsPerInt : Half
  capabilities : Word
  validExt : Half
  rwMultiple : Half
  lba28Sectors : Word
  lba48Sectors : BitVec 64
  physSectorSize : Half
  wordsPerLogical : Word
deriving DecidableEq, Repr

/-- The three poll conditions (42_status_poller.md R192). -/
inductive PollCond
  | bsyClear | drqOrErr | drqSet
deriving DecidableEq, Repr

/-- The events of the diagnostic log (R36); their text is not in the spec (assumption 20). -/
inductive LogEvent
  /-- `POLL(c, cond, n, s)`. -/
  | poll (ctx : Nat) (cond : PollCond) (n : Word) (s : Byte)
  /-- `ABSENT(c)`. -/
  | absent (ctx : Nat)
  /-- `NOT_ATA(c, mid, high)`. -/
  | notAta (ctx : Nat) (mid high : Byte)
  /-- `IRQ14`. -/
  | irq14
deriving DecidableEq, Repr

/-- The direction of a transaction (R37). -/
inductive Dir
  | read | write
deriving DecidableEq, Repr

/-- A transaction of the bus trace (R37); the value is held zero-extended to 32 bits. -/
structure BusEvent where
  ctx : Nat
  dir : Dir
  port : Half
  width : Width
  value : Word
deriving DecidableEq, Repr

/-- The one store of the block, a context's `BUF[0..255]` (R46, R80 c): the written cells as (cell index, word) pairs. Its
addressable unit is the 16-bit cell, and a cell that is not listed is `unwritten` (assumption 8). -/
abbrev Memory := List (Nat × Half)

/-- The canonical form of a buffer: cell indices strictly rising and below 256. A listed cell is written, so no entry equals
what an unlisted one reads as. -/
abbrev Memory.wf (m : Memory) : Prop :=
  (m.map Prod.fst).Pairwise (· < ·) ∧ ∀ k ∈ m.map Prod.fst, k < 256

/-- The state of one context (R38 to R48). -/
@[ext]
structure Context where
  cmd0 : Word
  cmd1 : Word
  op : Option Instr
  status : Status
  result : Word
  iter : Word
  sig : Word
  last : Option Byte
  buf : Memory
  /-- `REC`; none is `unwritten`. -/
  info : Option DeviceInfo
  idx : Nat
  phase : Phase
deriving DecidableEq, Repr

/-- What one host read returned: model bookkeeping (assumption 16). -/
structure HostRead where
  off : Nat
  value : Word
deriving DecidableEq, Repr

/-- The whole state of the block (R30), with the model's own fields after it. -/
@[ext]
structure State where
  /-- The parameters (R6): no step changes them (assumption 1). -/
  cfg : Config
  /-- The handles whose `lock[h]` is 1 (R33, assumption 11). -/
  locks : List Handle
  /-- `ata_owner` (R34). -/
  ataOwner : Option Nat
  /-- `pci_owner` (R34). -/
  pciOwner : Option Nat
  /-- `IRQ_ACK_COUNT` (R35). -/
  irqAckCount : Word
  /-- The diagnostic log, oldest event first (R36). -/
  log : List LogEvent
  /-- The bus trace, oldest event first (R37). -/
  trace : List BusEvent
  /-- The contexts, by number (R319). -/
  ctxs : List Context
  /-- MODEL'S OWN: the context whose step is being taken (assumption 6). -/
  active : Nat
  /-- MODEL'S OWN: the steps the environment has fixed, next one first (assumption 2). -/
  agenda : List Event
  /-- MODEL'S OWN: the answers the device side has fixed, next one first (assumption 3). -/
  answers : List Word
  /-- MODEL'S OWN: how many free values have been drawn (assumptions 2, 3 and 4). -/
  draws : Nat
  /-- MODEL'S OWN: what the host's reads returned, oldest first (assumption 16). -/
  hostReads : List HostRead
deriving DecidableEq, Repr

/-- Reasons a step stops as a fault. The block has no traps (R300): each of these is raised only in a state that no run
from a well-formed state reaches, where no rule of the spec gives an effect (assumption 10, safe). -/
inductive Fault
  /-- Raised by a command's meaning and by a context's step: the context is busy, but its latched command is none or has no
  such phase. Safe. -/
  | sequencerLost
  /-- Raised by the data phases: `idx` is past 255, and `BUF` has no such cell. Safe. -/
  | bufferIndex
  /-- Raised by IDENTIFY's completing step: a cell of `BUF` is unwritten, which R240 says the decoder never sees. Safe. -/
  | unwrittenDecode
deriving DecidableEq, Repr

/-- Reasons a step is refused. -/
inductive Refusal
  /-- Raised by exec's arm of an instruction that has no meaning yet. Safe. -/
  | notModelled (mnemonic : String)
  /-- Raised by a host access that is not 32 bits wide and 4-byte aligned: R88 refuses it and gives it no step (assumption 9).
  Safe. -/
  | hostAccess (width off : Nat)
deriving DecidableEq, Repr

/-- `STATUS` at reset: 0 (R40). -/
def Status.reset : Status where
  busy := false
  done := false
  overrun := false
  outcome := .noneYet
  absentSeen := false
  notAtaSeen := false

/-- A context at reset (R38 to R48, R340). -/
def Context.reset : Context where
  cmd0 := 0
  cmd1 := 0
  op := none
  status := .reset
  result := 0
  iter := 0
  sig := 0
  last := none
  buf := []
  info := none
  idx := 0
  phase := .idle

/-- The block at model start with the parameters `cfg`: every register at its reset value (R340), log and trace empty (R36,
R37), and nothing fixed of the environment (assumptions 2, 3, 6 and 16). -/
def State.start (cfg : Config) : State where
  cfg := cfg
  locks := []
  ataOwner := none
  pciOwner := none
  irqAckCount := 0
  log := []
  trace := []
  ctxs := List.replicate cfg.numContexts .reset
  active := 0
  agenda := []
  answers := []
  draws := 0
  hostReads := []

/-- The block right after reset at model start, with the default parameters (R6, assumption 1). -/
def State.reset : State := .start .reference

end Sys2Proof.Machine
end

