-- ==== Sys2Proof/Machine/Flags.lean ====
section
/-! DEFINITION. The flags: the device status bits the poller tests (10_state.md R49, 42_status_poller.md R192), the `STATUS`
word (R40, R41), the saturating `ITER` (R43) and IDENTIFY's final outcome (43_drive_identify.md R220). -/

namespace Sys2Proof.Machine

/-- Status bit 7 (R49). -/
def bsy (s : Byte) : Bool := s.getLsbD 7

/-- Status bit 3 (R49). -/
def drq (s : Byte) : Bool := s.getLsbD 3

/-- Status bit 0 (R49). -/
def err (s : Byte) : Bool := s.getLsbD 0

/-- The poll conditions (R192): no other bit is read. -/
def PollCond.holds : PollCond → Byte → Bool
  | .bsyClear, s => !bsy s
  | .drqOrErr, s => drq s || err s
  | .drqSet, s => drq s

/-- One more status read, saturating at 2^32-1 (R43, R191). -/
def countRead (n : Word) : Word := if n = 0xFFFFFFFF then n else n + 1

/-- `POLL_LIMIT = some n and ITER >= n` (R191). -/
def limitReached (limit : Option Word) (iter : Word) : Bool :=
  match limit with
  | none => false
  | some n => decide (n ≤ iter)

/-- The code of an outcome (R41). -/
def OutcomeCode.bits : OutcomeCode → BitVec 4
  | .noneYet => 0
  | .ok => 1
  | .absent => 2
  | .notAta => 3
  | .timeout => 4
  | .badCommand => 5

/-- A flag as one bit of a register. -/
def bitOf (b : Bool) : BitVec 1 := BitVec.ofBool b

/-- The `STATUS` word a host read sees (R40): bits 3 and 31:10 read 0. -/
def Status.toWord (s : Status) : Word :=
  0#22 ++ bitOf s.notAtaSeen ++ bitOf s.absentSeen ++ s.outcome.bits ++ 0#1 ++ bitOf s.overrun ++ bitOf s.done
    ++ bitOf s.busy

/-- A host write of `STATUS`: a 1 in bit 2 clears `OVERRUN`; every other bit is ignored (R40, R308). -/
def Status.hostWrite (s : Status) (v : Word) : Status :=
  if v.getLsbD 2 then { s with overrun := false } else s

/-- `STATUS` after the clearing of an accepted GO (R119): `OVERRUN` stays. -/
def Status.cleared (s : Status) : Status :=
  { s with done := false, outcome := .noneYet, absentSeen := false, notAtaSeen := false }

/-- `STATUS` after `complete(o)` (R301). -/
def Status.completed (s : Status) (o : OutcomeCode) : Status :=
  { s with outcome := o, busy := false, done := true }

/-- The outcome IDENTIFY completes with (R220): ABSENT over NOT_ATA over OK. -/
def identifyOutcome (s : Status) : OutcomeCode :=
  if s.absentSeen then .absent else if s.notAtaSeen then .notAta else .ok

end Sys2Proof.Machine
end

