-- ==== Sys2Proof/Machine/IdentifyData.lean ====
section
/-! DEFINITION. The identify-data decoder (44_identify_decoder.md): a pure function of the 256 words of the response block. -/

namespace Sys2Proof.Machine

/-- `W[15:8]`. -/
def highByte (w : Half) : Byte := w.extractLsb' 8 8

/-- `W[7:0]`. -/
def lowByte (w : Half) : Byte := w.extractLsb' 0 8

/-- The little-endian byte view of words `base` to `base + n - 1` (R83, R241): byte 2k is the low byte of word k. -/
def byteView (words : Nat → Half) (base n : Nat) : List Byte :=
  (List.range n).flatMap fun i => [lowByte (words (base + i)), highByte (words (base + i))]

/-- `text(base, n)` (R243): 2n bytes, the high byte of each word first. -/
def textField (words : Nat → Half) (base n : Nat) : List Byte :=
  (List.range n).flatMap fun i => [highByte (words (base + i)), lowByte (words (base + i))]

/-- `swap` (R244): each byte pair exchanged; none on an odd length, where it is undefined. -/
def swapPairs : List Byte → Option (List Byte)
  | [] => some []
  | [_] => none
  | a :: b :: rest => (swapPairs rest).map fun r => b :: a :: r

/-- Two words as a 32-bit value, the lower-numbered word less significant (R242, R247). -/
def word32 (words : Nat → Half) (base : Nat) : Word :=
  zext32 (words base) ||| (zext32 (words (base + 1)) <<< 16)

/-- Four words as a 64-bit value, the lowest-numbered word least significant (R242, R247). -/
def word64 (words : Nat → Half) (base : Nat) : BitVec 64 :=
  (words base).setWidth 64 ||| ((words (base + 1)).setWidth 64 <<< 16)
    ||| ((words (base + 2)).setWidth 64 <<< 32) ||| ((words (base + 3)).setWidth 64 <<< 48)

/-- The record of a response block (R240, R242). -/
def decodeInfo (words : Nat → Half) : DeviceInfo where
  flags := words 0
  serial := textField words 10 10
  firmware := textField words 23 4
  model := textField words 27 20
  sectorsPerInt := words 47
  capabilities := word32 words 49
  validExt := words 53
  rwMultiple := words 59
  lba28Sectors := word32 words 60
  lba48Sectors := word64 words 100
  physSectorSize := words 106
  wordsPerLogical := word32 words 117

/-- Four bytes of a text field as a host register, byte 4j+i in bits 8i+7:8i (R57, R85). -/
def packBytes (text : List Byte) (j : Nat) : Word :=
  text.getD (4 * j + 3) 0 ++ text.getD (4 * j + 2) 0 ++ text.getD (4 * j + 1) 0 ++ text.getD (4 * j) 0

end Sys2Proof.Machine
end

