-- ==== Sys2Proof/Machine/Operands.lean ====
section
/-! DEFINITION. The values the engines compute from their operands: command bytes, drive-select bytes, LBA bytes, the PCI
address word and half select (30_encoding.md R120 to R123), and the fields of `SIG` (10_state.md R44). -/

namespace Sys2Proof.Machine

/-- The IDENTIFY command byte (R120). -/
def cmdIdentify : Byte := 0xEC

/-- The READ SECTORS command byte (R120). -/
def cmdReadSectors : Byte := 0x20

/-- IDENTIFY's drive-select byte (R122). -/
def identifySelect (cfg : Config) : Drive → Byte
  | .master => cfg.idselMaster
  | .slave => cfg.idselSlave

/-- READ_SECTOR's drive-select byte `0xE0 | (0 << 4) | ((lba >> 24) & 0x0F)` (R121, R271). -/
def sectorSelect (lba : Word) : Byte :=
  0xE0 ||| (0 <<< 4) ||| (((lba >>> 24) &&& 0x0F).setWidth 8)

/-- `lba[7:0]` (R273). -/
def lbaLow (lba : Word) : Byte := lba.extractLsb' 0 8

/-- `lba[15:8]` (R273). -/
def lbaMid (lba : Word) : Byte := lba.extractLsb' 8 8

/-- `lba[23:16]` (R273). -/
def lbaHigh (lba : Word) : Byte := lba.extractLsb' 16 8

/-- The PCI configuration address word (R123, R150): out-of-range operands are not checked and OR into their neighbours. -/
def pciAddress (bus slot func off : Byte) : Word :=
  (zext32 bus <<< 16) ||| (zext32 slot <<< 11) ||| (zext32 func <<< 8) ||| (zext32 off &&& 0x000000FC) ||| 0x80000000

/-- The half of the configuration dword that `off` selects: `(dw >> ((off & 2) * 8)) & 0xFFFF` (R84, R150). -/
def pciHalf (off : Byte) (dw : Word) : Word :=
  (dw >>> ((off &&& 0x02).toNat * 8)) &&& 0x0000FFFF

/-- `SIG[7:0] <- b` (R44, R213). -/
def setSigStatus (sig : Word) (b : Byte) : Word := sig.extractLsb' 8 24 ++ b

/-- `SIG[15:8] <- b` (R44, R215). -/
def setSigMid (sig : Word) (b : Byte) : Word := sig.extractLsb' 16 16 ++ b ++ sig.extractLsb' 0 8

/-- `SIG[23:16] <- b` (R44, R215). -/
def setSigHigh (sig : Word) (b : Byte) : Word := sig.extractLsb' 24 8 ++ b ++ sig.extractLsb' 0 16

/-- `SIG[15:8]`, the LBA-mid byte that step 4 read (R44). -/
def sigMid (sig : Word) : Byte := sig.extractLsb' 8 8

/-- `zext_32(last)`, 0 where no status byte was read (R42). -/
def lastResult : Option Byte → Word
  | none => 0
  | some b => zext32 b

end Sys2Proof.Machine
end

