-- ==== Sys2Proof/Machine/Ops.lean ====
section
/-! DEFINITION. The named operations over the state that the commands share: the buffer, the active context, the oracle, one
bus transaction under its lock, the accepted GO, completion, the poll iteration, the data phase, IRQ14 and reset. -/

namespace Sys2Proof.Machine

/-- What one step answers. -/
abbrev StepResult := Host.Outcome State Fault Refusal

/-! ### The buffer (R46) -/

/-- Cell `k`; none is `unwritten`. -/
def Memory.read : Memory → Nat → Option Half
  | [], _ => none
  | (a, v) :: m, k => if a = k then some v else Memory.read m k

/-- `BUF[k] <- v`, kept in rising order. -/
def Memory.write : Memory → Nat → Half → Memory
  | [], k, v => [(k, v)]
  | (a, x) :: m, k, v =>
    if k < a then (k, v) :: (a, x) :: m
    else if k = a then (k, v) :: m
    else (a, x) :: Memory.write m k v

/-- All 256 cells are written. -/
def Memory.full (m : Memory) : Bool := (List.range 256).all fun k => (Memory.read m k).isSome

/-- Cell `k` of a full buffer, as the decoder reads it (R240). -/
def Memory.word (m : Memory) (k : Nat) : Half := (Memory.read m k).getD 0

/-! ### The active context -/

/-- The context whose step is being taken; none where its number names no context. -/
def State.current (s : State) : Option Context := s.ctxs[s.active]?

/-- An update of the active context's registers (`ctx.X <- v`, R10). -/
def State.update (s : State) (f : Context → Context) : State :=
  { s with ctxs := s.ctxs.modify s.active f }

/-- `phase <- p` (R10). -/
def Context.goTo (p : Phase) (c : Context) : Context := { c with phase := p }

/-- `phase <- p` for a poll phase: entering a poll clears `ITER` (R190). -/
def Context.enterPoll (p : Phase) (c : Context) : Context := { c with phase := p, iter := 0 }

/-! ### The oracle (R91) and the log (R36) -/

/-- The next answer of the device side: the first one fixed, else a free value (assumption 3). -/
def State.answer (s : State) : Word :=
  match s.answers with
  | [] => Config.deviceAnswer s.draws
  | a :: _ => a

/-- The next answer has been given. -/
def State.dropAnswer (s : State) : State :=
  { s with answers := s.answers.tail, draws := if s.answers.isEmpty then s.draws + 1 else s.draws }

/-- `log(e)` (R10, R321): never blocks, never fails. -/
def State.logEvent (s : State) (e : LogEvent) : State := { s with log := s.log ++ [e] }

/-- Append a transaction to the bus trace (R37). -/
def State.record (s : State) (e : BusEvent) : State := { s with trace := s.trace ++ [e] }

/-! ### Locks and owners (R170, R172) -/

/-- The owner register of a bus class (R34). -/
def State.owner (s : State) : BusClass → Option Nat
  | .ata => s.ataOwner
  | .pci => s.pciOwner

/-- R172: with `BUS_LOCK`, the owner register of the command's class is none or the active context. -/
def State.ownerAllows (s : State) (i : Instr) : Bool :=
  !s.cfg.busLock || s.owner i.busClass == none || s.owner i.busClass == some s.active

/-- The active context may perform a transaction of command `i` at handle `h`: its bus class is not held by another context
(R172) and the handle's lock is free (R170, assumption 11). -/
def State.granted (s : State) (i : Instr) (h : Handle) : Bool :=
  s.ownerAllows i && !s.locks.contains h

/-- With `BUS_LOCK`, the step sets the owner register of the command's class (R172). -/
def State.claim (s : State) (i : Instr) : State :=
  { s with
    ataOwner := if s.cfg.busLock = true ∧ i.busClass = .ata then some s.active else s.ataOwner
    pciOwner := if s.cfg.busLock = true ∧ i.busClass = .pci then some s.active else s.pciOwner }

/-- `acquire lock[h]` (R170). -/
def State.acquire (s : State) (h : Handle) : State := { s with locks := h :: s.locks }

/-- `release lock[h]` (R170). -/
def State.release (s : State) (h : Handle) : State := { s with locks := s.locks.erase h }

/-! ### One bus transaction (R10, R11, R170), and the step it makes: one phase, or one iteration of a poll or data phase, with
the register writes, log event and phase move that follow the access (R55, R190, R191). By R10 these are primitives; what R11
folds into a later step is the computation between primitives (assumption 23). -/

/-- The value a read at handle `h` returns: the oracle's answer at the handle's width (R91). -/
def State.readValue (s : State) (h : Handle) : Word := h.width.carry s.answer

/-- `IoRead(addr(h), width(h))` by the active context for command `i`, under `lock[h]`. -/
def State.busRead (s : State) (i : Instr) (h : Handle) : State :=
  ((((s.claim i).acquire h).dropAnswer).record
    ⟨s.active, .read, h.addr, h.width, s.readValue h⟩).release h

/-- `IoWrite(addr(h), width(h), v)` by the active context for command `i`, under `lock[h]`. -/
def State.busWrite (s : State) (i : Instr) (h : Handle) (v : Word) : State :=
  (((s.claim i).acquire h).record ⟨s.active, .write, h.addr, h.width, h.width.carry v⟩).release h

/-- A step that reads handle `h` and goes on with the value; a context that may not perform it has no step and waits
(R172, assumption 5). -/
def onRead (i : Instr) (h : Handle) (s : State) (k : Word → State → StepResult) : StepResult :=
  if s.granted i h then k (s.readValue h) (s.busRead i h) else .next s

/-- A step that writes `v` to handle `h` and goes on; a context that may not perform it has no step and waits. -/
def onWrite (i : Instr) (h : Handle) (v : Word) (s : State) (k : State → StepResult) : StepResult :=
  if s.granted i h then k (s.busWrite i h v) else .next s

/-! ### Completion (R301): the one way an operation ends -/

/-- The registers of the completing context. -/
def Context.completed (o : OutcomeCode) (c : Context) : Context :=
  { c with status := c.status.completed o, phase := .idle, idx := 0 }

/-- `complete(o)` by the active context; with `BUS_LOCK` it gives back the owner registers it holds. -/
def State.complete (s : State) (o : OutcomeCode) : State :=
  { s with
    ctxs := s.ctxs.modify s.active (Context.completed o)
    ataOwner := if s.cfg.busLock = true ∧ s.ataOwner = some s.active then none else s.ataOwner
    pciOwner := if s.cfg.busLock = true ∧ s.pciOwner = some s.active then none else s.pciOwner }

/-- `RESULT <- v; complete(o)`. -/
def State.finish (s : State) (v : Word) (o : OutcomeCode) : State :=
  (s.update fun c => { c with result := v }).complete o

/-! ### Issue (R119) -/

/-- The first phase of a command (R119). -/
def firstPhase : Instr → Phase
  | .portRead _ => .pXfer
  | .portWrite _ _ => .pXfer
  | .pciCfgRead _ _ _ _ => .cWAddr
  | .ataIdentify _ => .iSel
  | .ataReadSector _ => .rSel

/-- What every accepted GO clears (R119). -/
def Context.cleared (c : Context) : Context :=
  { c with status := c.status.cleared, result := 0, iter := 0, sig := 0, last := none, idx := 0 }

/-- `BUF` after an accepted GO of `i`: unwritten for IDENTIFY and READ_SECTOR, else kept (R119, R46). -/
def bufAtIssue (i : Instr) (m : Memory) : Memory :=
  match i with
  | .portRead _ => m
  | .portWrite _ _ => m
  | .pciCfgRead _ _ _ _ => m
  | .ataIdentify _ => []
  | .ataReadSector _ => []

/-- `REC` after an accepted GO of `i`: unwritten for IDENTIFY, else kept (R119, R47). -/
def infoAtIssue (i : Instr) (r : Option DeviceInfo) : Option DeviceInfo :=
  match i with
  | .portRead _ => r
  | .portWrite _ _ => r
  | .pciCfgRead _ _ _ _ => r
  | .ataIdentify _ => none
  | .ataReadSector _ => r

/-- The context after the accepted GO of a valid command: it is latched and busy in its first phase (R119). -/
def Context.issued (i : Instr) (c : Context) : Context :=
  { c.cleared with
    op := some i
    buf := bufAtIssue i c.buf
    info := infoAtIssue i c.info
    status := { c.status.cleared with busy := true }
    phase := firstPhase i }

/-- The accepted GO of a valid command by the active context; no transaction (R119). -/
def State.issue (s : State) (i : Instr) : State := s.update (Context.issued i)

/-- The accepted GO of a word that is no command: BAD_COMMAND in the same step, no transaction (R119, R303). -/
def State.badCommand (s : State) : State :=
  (s.update fun c => { c.cleared with op := none }).complete .badCommand

/-- A GO while the context is busy: `OVERRUN`, and nothing else (R119, R308). -/
def State.overrun (s : State) : State :=
  s.update fun c => { c with status := { c.status with overrun := true } }

/-- One step of command `i` on the active context (assumption 6). A context that is idle accepts `i` as a GO does (R119); a
context with `i` in flight performs the transaction `body` gives for its phase (R55); a context busy with another command
turns `i` away with `OVERRUN` (R308). A number that names no context has no step. -/
def runCommand (i : Instr) (s : State) (body : Context → StepResult) : StepResult :=
  match s.current with
  | none => .next s
  | some c =>
    if c.phase = .idle then
      if i.wellFormed then .next (s.issue i) else .next s.badCommand
    else if c.op = some i then body c
    else .next s.overrun

/-! ### The status poller (R190 to R195) -/

/-- The registers of a context that read the status byte `v` in a poll (R191). -/
def Context.polled (v : Byte) (c : Context) : Context :=
  { c with last := some v, iter := countRead c.iter }

/-- One poll iteration with the status byte `v` just read (R191): the log event, then the next phase, a TIMEOUT, or another
iteration. -/
def State.pollStep (s : State) (c : Context) (cond : PollCond) (next : Phase) (v : Byte) : State :=
  let n := countRead c.iter
  let t := (s.update (Context.polled v)).logEvent (.poll s.active cond n v)
  if cond.holds v then t.update (Context.goTo next)
  else if limitReached s.cfg.pollLimit n then t.finish (zext32 v) .timeout
  else t

/-! ### The data phases (R218, R276) -/

/-- `BUF[k] <- v; idx <- k + 1`. -/
def Context.storeWord (k : Nat) (v : Half) (c : Context) : Context :=
  { c with buf := Memory.write c.buf k v, idx := k + 1 }

/-! ### IRQ14 (R313) and reset (R340, R341) -/

/-- An IRQ14 delivery: the count, wrapping, and the log. -/
def State.takeIrq14 (s : State) : State :=
  { s with irqAckCount := s.irqAckCount + 1, log := s.log ++ [.irq14] }

/-- A reset: every register of the block at its reset value; the log, the trace, the parameters and the environment's side
are untouched (R341, assumption 17). -/
def State.takeReset (s : State) : State :=
  { s with
    locks := []
    ataOwner := none
    pciOwner := none
    irqAckCount := 0
    ctxs := List.replicate s.ctxs.length .reset }

/-! ### The scheduler's pick (R173) and the host's side -/

/-- The next step's agent: the first one fixed, else a free choice (assumption 2). -/
def State.nextEvent (s : State) : Event :=
  match s.agenda with
  | [] => Config.schedule s.draws
  | e :: _ => e

/-- The pick has been made. -/
def State.dropEvent (s : State) : State :=
  { s with agenda := s.agenda.tail, draws := if s.agenda.isEmpty then s.draws + 1 else s.draws }

/-- The command word of a context, `CMD1 ++ CMD0` (R110). -/
def Context.command (c : Context) : CmdWord := c.cmd1 ++ c.cmd0

/-- Store a command word where the next GO of context 0 latches it, that context idle, and make that GO the next step
(assumption 7). -/
def State.placeCommand (s : State) (w : CmdWord) : State :=
  { s with
    ctxs := s.ctxs.modify 0 fun c =>
      { c with
        cmd0 := w.extractLsb' 0 32
        cmd1 := w.extractLsb' 32 32
        status := { c.status with busy := false }
        phase := .idle }
    agenda := .hostWrite 32 0x1008 1 :: s.agenda }

end Sys2Proof.Machine
end

