-- ==== Sys2Proof/Machine/Identify.lean ====
section
/-! DEFINITION. The drive identify protocol engine (43_drive_identify.md). -/

namespace Sys2Proof.Machine

/-- The registers after the read-back of the status byte `s0` (R213). -/
def Context.readBack (s0 : Byte) (c : Context) : Context :=
  { c with last := some s0, sig := setSigStatus c.sig s0 }

/-- `ABSENT_SEEN <- 1` (R214). -/
def Context.markAbsent (c : Context) : Context := { c with status := { c.status with absentSeen := true } }

/-- `NOT_ATA_SEEN <- 1` (R216). -/
def Context.markNotAta (c : Context) : Context := { c with status := { c.status with notAtaSeen := true } }

/-- Phase `I_S0` with the byte `s0` just read (R213, R214): a zero is the absent-device signal, which ends the operation only
with `EARLY_ABORT`. -/
def identifyReadBack (s0 : Byte) (t : State) : State :=
  let u := t.update (Context.readBack s0)
  if s0 = 0 then
    let a := (u.update Context.markAbsent).logEvent (.absent t.active)
    if t.cfg.earlyAbort then a.finish 0 .absent else a.update (Context.enterPoll .iBsy)
  else u.update (Context.enterPoll .iBsy)

/-- Phase `I_RHI` of context `c` with the LBA-high byte `h` just read (R215, R216): the LBA-mid byte is the one `SIG[15:8]`
holds (assumption 19); a nonzero byte ends the operation only with `EARLY_ABORT`. -/
def identifySignature (c : Context) (h : Byte) (t : State) : State :=
  let u := t.update fun x => { x with sig := setSigHigh x.sig h }
  if sigMid c.sig ≠ 0 ∨ h ≠ 0 then
    let a := (u.update Context.markNotAta).logEvent (.notAta t.active (sigMid c.sig) h)
    if t.cfg.earlyAbort then a.finish (lastResult c.last) .notAta else a.update (Context.enterPoll .iDrq)
  else u.update (Context.enterPoll .iDrq)

/-- Phase `I_DATA` of context `c` with its word `v` just read (R218 to R220): the word goes to `BUF[idx]`, and the 256th
decodes the block and completes. -/
def identifyWord (c : Context) (v : Half) (t : State) : StepResult :=
  let u := t.update (Context.storeWord c.idx v)
  if c.idx = 255 then
    let buf := Memory.write c.buf 255 v
    if Memory.full buf then
      .next ((u.update fun x => { x with info := some (decodeInfo (Memory.word buf)) }).finish
        (lastResult c.last) (identifyOutcome c.status))
    else .fault .unwrittenDecode
  else .next u

/-- `ATA_IDENTIFY d` (R210): one transaction per step, in the order of its phases. -/
def execAtaIdentify (d : Drive) (s : State) : StepResult :=
  runCommand (.ataIdentify d) s fun c =>
    match c.phase with
    | .iSel =>
      onWrite (.ataIdentify d) .drvsel (zext32 (identifySelect s.cfg d)) s fun t =>
        .next (t.update (Context.goTo .iCnt))
    | .iCnt => onWrite (.ataIdentify d) .seccount 0 s fun t => .next (t.update (Context.goTo .iLo))
    | .iLo => onWrite (.ataIdentify d) .lbaLo 0 s fun t => .next (t.update (Context.goTo .iMid))
    | .iMid => onWrite (.ataIdentify d) .lbaMid 0 s fun t => .next (t.update (Context.goTo .iHi))
    | .iHi => onWrite (.ataIdentify d) .lbaHi 0 s fun t => .next (t.update (Context.goTo .iCmd))
    | .iCmd =>
      onWrite (.ataIdentify d) .cmdstat (zext32 cmdIdentify) s fun t => .next (t.update (Context.goTo .iS0))
    | .iS0 =>
      onRead (.ataIdentify d) .cmdstat s fun v t => .next (identifyReadBack (v.setWidth 8) t)
    | .iBsy =>
      onRead (.ataIdentify d) .cmdstat s fun v t => .next (t.pollStep c .bsyClear .iRMid (v.setWidth 8))
    | .iRMid =>
      onRead (.ataIdentify d) .lbaMid s fun v t =>
        .next (t.update fun x => { x with sig := setSigMid x.sig (v.setWidth 8), phase := .iRHi })
    | .iRHi =>
      onRead (.ataIdentify d) .lbaHi s fun v t => .next (identifySignature c (v.setWidth 8) t)
    | .iDrq =>
      onRead (.ataIdentify d) .cmdstat s fun v t => .next (t.pollStep c .drqOrErr .iData (v.setWidth 8))
    | .iData =>
      if c.idx < 256 then onRead (.ataIdentify d) .data s fun v t => identifyWord c (v.setWidth 16) t
      else .fault .bufferIndex
    | _ => .fault .sequencerLost

end Sys2Proof.Machine
end

