-- ==== Sys2Proof/Machine/PciConfig.lean ====
section
/-! DEFINITION. The PCI configuration read (40_pci_config_read.md). -/

namespace Sys2Proof.Machine

/-- `PCI_CFG_READ bus, slot, func, off` (R150, R151): the address word to 0xCF8, then the dword of 0xCFC, of which `off`
selects the half. Nothing is checked and the value is not interpreted (R152, R153). -/
def execPciCfgRead (bus slot func off : Byte) (s : State) : StepResult :=
  runCommand (.pciCfgRead bus slot func off) s fun c =>
    match c.phase with
    | .cWAddr =>
      onWrite (.pciCfgRead bus slot func off) .pciAddr (pciAddress bus slot func off) s fun t =>
        .next (t.update (Context.goTo .cRData))
    | .cRData =>
      onRead (.pciCfgRead bus slot func off) .pciData s fun dw t => .next (t.finish (pciHalf off dw) .ok)
    | _ => .fault .sequencerLost

end Sys2Proof.Machine
end

