-- ==== Sys2Proof/Machine/PortCommands.lean ====
section
/-! DEFINITION. The raw port commands (41_register_file_arbiter.md R174, R175). -/

namespace Sys2Proof.Machine

/-- `PORT_READ h` (R174): one read at the handle's width; `last`, `ITER` and `SIG` are not written even for `CMDSTAT`. -/
def execPortRead (h : Handle) (s : State) : StepResult :=
  runCommand (.portRead h) s fun c =>
    match c.phase with
    | .pXfer => onRead (.portRead h) h s fun v t => .next (t.finish v .ok)
    | _ => .fault .sequencerLost

/-- `PORT_WRITE h, data` (R175): one write of `data[width(h)-1:0]`; `RESULT` is 0. -/
def execPortWrite (h : Handle) (data : Word) (s : State) : StepResult :=
  runCommand (.portWrite h data) s fun c =>
    match c.phase with
    | .pXfer => onWrite (.portWrite h data) h data s fun t => .next (t.finish 0 .ok)
    | _ => .fault .sequencerLost

end Sys2Proof.Machine
end

