-- ==== Sys2Proof/Machine/SectorRead.lean ====
section
/-! DEFINITION. The PIO sector read controller (45_pio_sector_read.md). -/

namespace Sys2Proof.Machine

/-- Phase `R_DATA` of context `c` with its word `v` just read (R276): the word goes to `BUF[idx]`, and the 256th completes. -/
def sectorWord (c : Context) (v : Half) (t : State) : State :=
  let u := t.update (Context.storeWord c.idx v)
  if c.idx = 255 then u.finish (lastResult c.last) .ok else u

/-- `ATA_READ_SECTOR lba` (R270): one transaction per step, in the order of its phases; bits 31:28 of `lba` are used nowhere
(R278), there is no BSY wait and `ERR` is not looked at (R275). -/
def execAtaReadSector (lba : Word) (s : State) : StepResult :=
  runCommand (.ataReadSector lba) s fun c =>
    match c.phase with
    | .rSel =>
      onWrite (.ataReadSector lba) .drvsel (zext32 (sectorSelect lba)) s fun t =>
        .next (t.update (Context.goTo .rCnt))
    | .rCnt => onWrite (.ataReadSector lba) .seccount 0 s fun t => .next (t.update (Context.goTo .rLo))
    | .rLo =>
      onWrite (.ataReadSector lba) .lbaLo (zext32 (lbaLow lba)) s fun t => .next (t.update (Context.goTo .rMid))
    | .rMid =>
      onWrite (.ataReadSector lba) .lbaMid (zext32 (lbaMid lba)) s fun t => .next (t.update (Context.goTo .rHi))
    | .rHi =>
      onWrite (.ataReadSector lba) .lbaHi (zext32 (lbaHigh lba)) s fun t => .next (t.update (Context.goTo .rCmd))
    | .rCmd =>
      onWrite (.ataReadSector lba) .cmdstat (zext32 cmdReadSectors) s fun t =>
        .next (t.update (Context.enterPoll .rDrq))
    | .rDrq =>
      onRead (.ataReadSector lba) .cmdstat s fun v t => .next (t.pollStep c .drqSet .rData (v.setWidth 8))
    | .rData =>
      if c.idx < 256 then onRead (.ataReadSector lba) .data s fun v t => .next (sectorWord c (v.setWidth 16) t)
      else .fault .bufferIndex
    | _ => .fault .sequencerLost

end Sys2Proof.Machine
end

