-- ==== Sys2Proof/Machine/Dispatch.lean ====
section
/-! DEFINITION. One step of a command on the active context: one arm per constructor of `Instr`. -/

namespace Sys2Proof.Machine

def exec (i : Instr) (s : State) : Host.Outcome State Fault Refusal :=
  match i with
  | .portRead h => Sys2Proof.Machine.execPortRead h s
  | .portWrite h data => Sys2Proof.Machine.execPortWrite h data s
  | .pciCfgRead bus slot func off => Sys2Proof.Machine.execPciCfgRead bus slot func off s
  | .ataIdentify d => Sys2Proof.Machine.execAtaIdentify d s
  | .ataReadSector lba => Sys2Proof.Machine.execAtaReadSector lba s

end Sys2Proof.Machine
end

