-- ==== Sys2Proof/Machine/HostMap.lean ====
section
/-! DEFINITION. The host register map (10_state.md R56 to R59): which register an offset names, what a read returns and what a
write does. A GO is left to Agents.lean, which decodes and runs the command. -/

namespace Sys2Proof.Machine

/-- The registers of the global window (R56). -/
inductive GlobalReg
  | irqAckCount | config | pollLimitValue
deriving DecidableEq, Repr

/-- The registers of a context window (R57). -/
inductive CtxReg
  | cmd0 | cmd1 | ctrl | status | result | iter | sig
  | idFlags | idSectorsPerInt | idCaps | idValidExt | idRwMultiple | idLba28 | idLba48Lo | idLba48Hi
  | idPhysSectorSize | idWordsPerLogical
  | idSerial (j : Nat) | idFirmware (j : Nat) | idModel (j : Nat)
  | buf (k : Nat)
deriving DecidableEq, Repr

/-- What a host read finds: a value, or a draw of 32 bits, or a draw of 16 bits below zeros (R58, assumption 4). -/
inductive HostValue
  | word (v : Word)
  | draw32
  | draw16
deriving DecidableEq, Repr

/-- The register of the global window at an offset (R56). -/
def globalRegAt (o : Nat) : Option GlobalReg :=
  if o = 0x000 then some .irqAckCount
  else if o = 0x004 then some .config
  else if o = 0x008 then some .pollLimitValue
  else none

/-- Offset `o` is one of `n` registers from `base` on, 4 bytes apart. -/
def inBlock (base n o : Nat) : Bool := decide (base ≤ o) && decide (o < base + 4 * n) && decide (o % 4 = 0)

/-- The register of a context window at an offset (R57). -/
def ctxRegAt (o : Nat) : Option CtxReg :=
  if o = 0x000 then some .cmd0
  else if o = 0x004 then some .cmd1
  else if o = 0x008 then some .ctrl
  else if o = 0x00C then some .status
  else if o = 0x010 then some .result
  else if o = 0x014 then some .iter
  else if o = 0x018 then some .sig
  else if o = 0x100 then some .idFlags
  else if o = 0x104 then some .idSectorsPerInt
  else if o = 0x108 then some .idCaps
  else if o = 0x10C then some .idValidExt
  else if o = 0x110 then some .idRwMultiple
  else if o = 0x114 then some .idLba28
  else if o = 0x118 then some .idLba48Lo
  else if o = 0x11C then some .idLba48Hi
  else if o = 0x120 then some .idPhysSectorSize
  else if o = 0x124 then some .idWordsPerLogical
  else if inBlock 0x140 5 o then some (.idSerial ((o - 0x140) / 4))
  else if inBlock 0x160 2 o then some (.idFirmware ((o - 0x160) / 4))
  else if inBlock 0x180 10 o then some (.idModel ((o - 0x180) / 4))
  else if inBlock 0x400 256 o then some (.buf ((o - 0x400) / 4))
  else none

/-- The `CONFIG` word (R56). -/
def configWord (cfg : Config) : Word :=
  0#16 ++ BitVec.ofNat 8 cfg.numContexts ++ 0#5 ++ bitOf cfg.pollLimit.isSome ++ bitOf cfg.busLock ++ bitOf cfg.earlyAbort

/-- The `POLL_LIMIT_VALUE` word (R56). -/
def pollLimitWord (cfg : Config) : Word := cfg.pollLimit.getD 0

/-- What a read of a global register finds (R56). -/
def globalValue (s : State) : GlobalReg → Word
  | .irqAckCount => s.irqAckCount
  | .config => configWord s.cfg
  | .pollLimitValue => pollLimitWord s.cfg

/-- A record register: a draw while the context is busy or `REC` is unwritten (R58), else its view of the record. -/
def recordValue (c : Context) (view : DeviceInfo → Word) : HostValue :=
  if c.phase ≠ .idle then .draw32
  else match c.info with
    | none => .draw32
    | some r => .word (view r)

/-- A buffer register (R58): of an unwritten cell a draw in bits 15:0 and 0 above, whether the context is busy or not; of a
written cell a draw while the context is busy, of 32 free bits (assumption 4), else the word. -/
def bufferValue (c : Context) (k : Nat) : HostValue :=
  match Memory.read c.buf k with
  | none => .draw16
  | some v => if c.phase ≠ .idle then .draw32 else .word (zext32 v)

/-- What a read of a context register finds (R57). -/
def ctxValue (c : Context) : CtxReg → HostValue
  | .cmd0 => .word c.cmd0
  | .cmd1 => .word c.cmd1
  | .ctrl => .word 0
  | .status => .word c.status.toWord
  | .result => .word c.result
  | .iter => .word c.iter
  | .sig => .word c.sig
  | .idFlags => recordValue c fun r => zext32 r.flags
  | .idSectorsPerInt => recordValue c fun r => zext32 r.sectorsPerInt
  | .idCaps => recordValue c fun r => r.capabilities
  | .idValidExt => recordValue c fun r => zext32 r.validExt
  | .idRwMultiple => recordValue c fun r => zext32 r.rwMultiple
  | .idLba28 => recordValue c fun r => r.lba28Sectors
  | .idLba48Lo => recordValue c fun r => r.lba48Sectors.extractLsb' 0 32
  | .idLba48Hi => recordValue c fun r => r.lba48Sectors.extractLsb' 32 32
  | .idPhysSectorSize => recordValue c fun r => zext32 r.physSectorSize
  | .idWordsPerLogical => recordValue c fun r => r.wordsPerLogical
  | .idSerial j => recordValue c fun r => packBytes r.serial j
  | .idFirmware j => recordValue c fun r => packBytes r.firmware j
  | .idModel j => recordValue c fun r => packBytes r.model j
  | .buf k => bufferValue c k

/-- What a read at offset `off` of the host register space finds: window 0 is global, window c+1 is context c (R56); no
register there, or no such context, reads 0 (R59). -/
def hostValue (s : State) (off : Nat) : HostValue :=
  if off / 0x1000 = 0 then
    match globalRegAt (off % 0x1000) with
    | none => .word 0
    | some g => .word (globalValue s g)
  else
    match s.ctxs[off / 0x1000 - 1]? with
    | none => .word 0
    | some c =>
      match ctxRegAt (off % 0x1000) with
      | none => .word 0
      | some r => ctxValue c r

/-- The value a host read returns, its draws taken from the free values (assumption 4). -/
def HostValue.resolve (draw : Word) : HostValue → Word
  | .word v => v
  | .draw32 => draw
  | .draw16 => draw &&& 0x0000FFFF

/-- How many draws a host read takes. -/
def HostValue.cost : HostValue → Nat
  | .word _ => 0
  | .draw32 => 1
  | .draw16 => 1

/-- A 32-bit host read at an aligned offset: it changes nothing of the block. -/
def State.hostRead (s : State) (off : Nat) : State :=
  { s with
    hostReads := s.hostReads ++ [⟨off, (hostValue s off).resolve (Config.hostDraw s.draws)⟩]
    draws := s.draws + (hostValue s off).cost }

/-- What a host write of `v` does to a context (R57, R59): `CMD0` and `CMD1` are written freely, even while the context is
busy (R38); `STATUS` bit 2 clears `OVERRUN`; `CTRL` is a GO or nothing (Agents.lean); the rest is read-only. -/
def Context.hostWrite (r : CtxReg) (v : Word) (c : Context) : Context :=
  match r with
  | .cmd0 => { c with cmd0 := v }
  | .cmd1 => { c with cmd1 := v }
  | .status => { c with status := c.status.hostWrite v }
  | .ctrl => c
  | .result => c
  | .iter => c
  | .sig => c
  | .idFlags => c
  | .idSectorsPerInt => c
  | .idCaps => c
  | .idValidExt => c
  | .idRwMultiple => c
  | .idLba28 => c
  | .idLba48Lo => c
  | .idLba48Hi => c
  | .idPhysSectorSize => c
  | .idWordsPerLogical => c
  | .idSerial _ => c
  | .idFirmware _ => c
  | .idModel _ => c
  | .buf _ => c

/-- The context whose `CTRL` register a write at `off` with this value issues a GO to (R119); none for any other write. -/
def goTarget (off : Nat) (v : Word) : Option Nat :=
  if off / 0x1000 ≠ 0 ∧ ctxRegAt (off % 0x1000) = some .ctrl ∧ v.getLsbD 0 = true then some (off / 0x1000 - 1) else none

/-- A 32-bit host write at an aligned offset that is no GO. -/
def State.hostWrite (s : State) (off : Nat) (v : Word) : State :=
  if off / 0x1000 = 0 then s
  else
    match ctxRegAt (off % 0x1000) with
    | none => s
    | some r => { s with ctxs := s.ctxs.modify (off / 0x1000 - 1) (Context.hostWrite r v) }

/-- R88: a host access is 32 bits wide and 4-byte aligned, or it is refused. -/
def hostAccessAllowed (width off : Nat) : Bool := width == 32 && off % 4 == 0

/-- Where host offset `off` lies in the platform's map (R6, R56, D18); no rule of the block depends on it. -/
def hostAddress (off : Nat) : Nat := Config.hostBase + off

end Sys2Proof.Machine
end

