-- ==== Sys2Proof/Machine/Agents.lean ====
section
/-! DEFINITION. The steps of the agents (41_register_file_arbiter.md R173): a GO, a context's transaction, a host access, an
IRQ14 delivery, a reset. Step.lean calls `runEvent`. -/

namespace Sys2Proof.Machine

/-- Context `c` is the one whose step is being taken (assumption 6). -/
def State.select (s : State) (c : Nat) : State := { s with active := c }

/-- A GO to context `c` (R119): the analogue of an instruction fetch is latching `CMD1 ++ CMD0` (R99). A busy context is
overrun; a word that does not decode is BAD_COMMAND; a command is issued by its meaning. -/
def goStep (c : Nat) (s : State) : StepResult :=
  match s.ctxs[c]? with
  | none => .next s
  | some x =>
    if x.phase = .idle then
      match decode x.command with
      | .error _ => .next (s.select c).badCommand
      | .ok i => exec i (s.select c)
    else .next (s.select c).overrun

/-- The next transaction step of context `c` (R55, R173). An idle context, or a number that names none, has no step: the pick
is passed over (assumption 5). -/
def contextStep (c : Nat) (s : State) : StepResult :=
  match s.ctxs[c]? with
  | none => .next s
  | some x =>
    if x.phase = .idle then .next s
    else match x.op with
      | none => .fault .sequencerLost
      | some i => exec i (s.select c)

/-- A host read: refused unless R88 allows the access. -/
def hostReadStep (width off : Nat) (s : State) : StepResult :=
  if hostAccessAllowed width off then .next (s.hostRead off) else .refused (.hostAccess width off)

/-- A host write: refused unless R88 allows the access; a GO, or a plain register write. -/
def hostWriteStep (width off : Nat) (v : Word) (s : State) : StepResult :=
  if hostAccessAllowed width off then
    match goTarget off v with
    | some c => goStep c s
    | none => .next (s.hostWrite off v)
  else .refused (.hostAccess width off)

/-- One step of the agent that `e` names. -/
def runEvent (e : Event) (s : State) : StepResult :=
  match e with
  | .hostRead width off => hostReadStep width off s
  | .hostWrite width off v => hostWriteStep width off v s
  | .context c => contextStep c s
  | .irq14 => .next s.takeIrq14
  | .reset => .next s.takeReset

end Sys2Proof.Machine
end

