-- ==== Sys2Proof/Machine/Step.lean ====
section
/-! DEFINITION. One step of the machine: the scheduler's pick (41_register_file_arbiter.md R173) is taken. -/

namespace Sys2Proof.Machine

/-- One atomic step of one agent: the next event of the agenda, or a free choice where nothing is fixed (assumption 2). -/
def step (s : State) : Host.Outcome State Fault Refusal := runEvent s.nextEvent s.dropEvent

/-- `s` with the given instruction where the next GO latches it (`CMD0` and `CMD1` of context 0) and with that GO as the next
step (assumption 7): it stands for the host's writes of `CMD0`, `CMD1` and `CTRL` (R343). -/
def State.withFetchWord (s : State) (nbits w : Nat) : State := s.placeCommand (tableWord nbits w)

end Sys2Proof.Machine
end

