-- ==== Sys2Proof/Machine/Assembler.lean ====
section
/-! DEFINITION. The assembler syntax of 30_encoding.md R125 as abstract lines: what each line encodes, and which it refuses.
No step of the machine calls it (assumption 15). -/

namespace Sys2Proof.Machine

/-- The operand `H`: a handle's name, or its index. -/
inductive HandleRef
  | name (h : Handle)
  | index (k : Nat)
deriving DecidableEq, Repr

/-- One line (R125); immediates are the numbers their decimal or hexadecimal spelling stands for. -/
inductive AsmLine
  /-- `port.rd H` -/
  | portRd (h : HandleRef)
  /-- `port.wr H, imm` -/
  | portWr (h : HandleRef) (imm : Nat)
  /-- `pci.rd bus, slot, func, off` -/
  | pciRd (bus slot func off : Nat)
  /-- `ata.identify master` or `ata.identify slave` -/
  | identify (d : Drive)
  /-- `ata.read lba` -/
  | read (lba : Nat)
deriving DecidableEq, Repr

/-- The handle an operand names: an index is 0 to 8. -/
def resolveHandle : HandleRef → Option Handle
  | .name h => some h
  | .index k => if k ≤ 8 then Handle.ofIndex (BitVec.ofNat 4 k) else none

/-- An immediate in a field of `n` bits; refused where it does not fit (R125). -/
def immediate (n v : Nat) : Option (BitVec n) := if v < 2 ^ n then some (BitVec.ofNat n v) else none

/-- The command word of a line, or none where the assembler refuses it. It checks the fields only: a value wider than the port
but not than the field is encoded, and is BAD_COMMAND at its GO (R117). -/
def assemble : AsmLine → Option CmdWord
  | .portRd h => (resolveHandle h).map fun x => encode (.portRead x)
  | .portWr h imm =>
    match resolveHandle h, immediate 32 imm with
    | some x, some v => some (encode (.portWrite x v))
    | _, _ => none
  | .pciRd bus slot func off =>
    match immediate 8 bus, immediate 8 slot, immediate 8 func, immediate 8 off with
    | some b, some s, some f, some o => some (encode (.pciCfgRead b s f o))
    | _, _, _, _ => none
  | .identify d => some (encode (.ataIdentify d))
  | .read lba => (immediate 32 lba).map fun v => encode (.ataReadSector v)

end Sys2Proof.Machine
end

