-- ==== Sys2Proof/Safety.lean ====
section
/-! DEFINITION. What counts as a well-formed state and a safe run: the invariant every step keeps, the states a run reaches,
and the repeated steps that statements about whole operations are written with. -/

namespace Sys2Proof.Machine

/-- The phases of a command, in order (R48, R55). -/
def phasesOf : Instr → List Phase
  | .portRead _ => [.pXfer]
  | .portWrite _ _ => [.pXfer]
  | .pciCfgRead _ _ _ _ => [.cWAddr, .cRData]
  | .ataIdentify _ => [.iSel, .iCnt, .iLo, .iMid, .iHi, .iCmd, .iS0, .iBsy, .iRMid, .iRHi, .iDrq, .iData]
  | .ataReadSector _ => [.rSel, .rCnt, .rLo, .rMid, .rHi, .rCmd, .rDrq, .rData]

/-- The two data phases, in which `idx` counts words (R48). -/
def dataPhases : List Phase := [.iData, .rData]

/-- The phases of IDENTIFY and READ_SECTOR before their data phase. -/
def setupPhases : List Phase :=
  [.iSel, .iCnt, .iLo, .iMid, .iHi, .iCmd, .iS0, .iBsy, .iRMid, .iRHi, .iDrq,
   .rSel, .rCnt, .rLo, .rMid, .rHi, .rCmd, .rDrq]

/-- The commands that fill the buffer. -/
def usesBuffer : Instr → Bool
  | .portRead _ => false
  | .portWrite _ _ => false
  | .pciCfgRead _ _ _ _ => false
  | .ataIdentify _ => true
  | .ataReadSector _ => true

/-- The well-formed contexts. -/
structure Context.Inv (c : Context) : Prop where
  /-- `STATUS.BUSY = 1` exactly when `phase ≠ IDLE` (R48). -/
  busyIffInFlight : c.status.busy = decide (c.phase ≠ .idle)
  /-- A context in flight has a valid command latched, and the phase is one of its phases (R39, R55). -/
  inFlight : c.phase ≠ .idle → ∃ i, c.op = some i ∧ i.wellFormed = true ∧ c.phase ∈ phasesOf i
  /-- `DONE` exactly with an outcome (R40, R302). -/
  doneIffOutcome : c.status.done = decide (c.status.outcome ≠ .noneYet)
  /-- Never both busy and done (R40). -/
  busyNotDone : c.status.busy = true → c.status.done = false
  /-- `SIG[31:24]` is 0 (R44). -/
  sigTop : c.sig.extractLsb' 24 8 = 0
  /-- The buffer keeps its canonical form. -/
  bufWf : Memory.wf c.buf
  /-- In a data phase, `idx` is at most 255 and exactly the cells below it are written (R218, R276). -/
  dataCells : c.phase ∈ dataPhases → c.idx < 256 ∧ c.buf.map Prod.fst = List.range c.idx
  /-- Outside the data phases `idx` is 0 (R48, R301). -/
  idxZero : c.phase ∉ dataPhases → c.idx = 0
  /-- Before its data phase, a command that fills the buffer finds it unwritten (R46). -/
  bufFresh : c.phase ∈ setupPhases → c.buf = []
  /-- While IDENTIFY is in flight, `REC` is unwritten (R47). -/
  infoFresh : ∀ d, c.op = some (.ataIdentify d) → c.phase ≠ .idle → c.info = none
  /-- BAD_COMMAND leaves no command latched and `RESULT = 0` (R119, R302). -/
  badCommandNoOp : c.status.outcome = .badCommand → c.op = none ∧ c.result = 0
  /-- After an OK completion of a command that fills the buffer, all 256 cells are written (R277). -/
  okFull : ∀ i, c.op = some i → usesBuffer i = true → c.status.outcome = .ok → c.buf.map Prod.fst = List.range 256
  /-- After a TIMEOUT all cells are unwritten (R277). -/
  timeoutEmpty : c.status.outcome = .timeout → c.buf = []
  /-- While the latched command is IDENTIFY, a written `REC` is the decode of a full buffer (R219, R240). -/
  infoDecodes : ∀ d r, c.op = some (.ataIdentify d) → c.info = some r →
    c.buf.map Prod.fst = List.range 256 ∧ r = decodeInfo (Memory.word c.buf)

/-- A context in flight with a command of class `k`, past that command's first transaction. -/
def Context.Started (k : BusClass) (c : Context) : Prop :=
  ∃ i, c.op = some i ∧ i.busClass = k ∧ c.phase ≠ .idle ∧ c.phase ≠ firstPhase i

/-- The well-formed states. -/
structure State.Inv (s : State) : Prop where
  /-- The parameters are in the ranges of R6. -/
  cfgWf : s.cfg.wf = true
  /-- There are `NUM_CONTEXTS` contexts (R319). -/
  contexts : s.ctxs.length = s.cfg.numContexts
  /-- Every lock is free between steps (R33, R170). -/
  locksFree : s.locks = []
  /-- Every context is well-formed. -/
  contextInv : ∀ c ∈ s.ctxs, c.Inv
  /-- Without `BUS_LOCK` there are no owners (R34). -/
  ownersAbsent : s.cfg.busLock = false → ∀ k, s.owner k = none
  /-- With `BUS_LOCK`, an owner is a context past the first transaction of a command of that class (R172). -/
  ownerStarted : ∀ k n, s.owner k = some n → ∃ c, s.ctxs[n]? = some c ∧ c.Started k
  /-- With `BUS_LOCK`, a context past the first transaction of its command owns that command's class (R172, R196). -/
  startedOwns : s.cfg.busLock = true → ∀ k n c, s.ctxs[n]? = some c → c.Started k → s.owner k = some n

/-- A state some run of steps reaches from `s`. -/
inductive Reaches (s : State) : State → Prop
  | here : Reaches s s
  | next {t u : State} : Reaches s t → step t = .next u → Reaches s u

/-- `n` steps of command `i` on the active context, stopping at the first fault or refusal. -/
def execs (i : Instr) : Nat → State → StepResult
  | 0, s => .next s
  | n + 1, s =>
    match exec i s with
    | .next t => execs i n t
    | .fault r => .fault r
    | .refused r => .refused r

end Sys2Proof.Machine
end

