-- ==== Sys2Proof/Certificates/Slice0/Obligations.lean ====
section
/-! DEFINITION. The statements for the provers. The helpers of `Sys2Proof.Spec` write out, apart from the model's own
operations, what one transaction leaves behind: every field of the state they do not name is unchanged, so each equation
below is a result and its whole frame. What a statement says of the model's own fields (`active`, `agenda`, `answers`, `draws`,
`hostReads`) is the model's choice (assumptions 2 to 7, 16 and 17), not a rule of the spec. -/

open Sys2Proof Sys2Proof.Machine

namespace Sys2Proof.Spec

/-- Command `i` is in flight on the active context `c`, and its transaction at handle `h` may be performed: the handle's lock is
free (R170) and, with `BUS_LOCK`, the owner register of the command's class is none or the context (R172). -/
structure Ready (s : State) (i : Instr) (c : Context) (h : Handle) : Prop where
  current : s.ctxs[s.active]? = some c
  latched : c.op = some i
  lockFree : h ∉ s.locks
  ownerFree : s.cfg.busLock = true → s.owner i.busClass = none ∨ s.owner i.busClass = some s.active

/-- The value the next bus read at handle `h` returns (R91): the low bits of the device's next answer. -/
def oracle (s : State) (h : Handle) : Word :=
  ((match s.answers with
    | [] => Config.deviceAnswer s.draws
    | a :: _ => a).setWidth h.width.bits).setWidth 32

/-- The byte the next read of an 8-bit handle returns. -/
def oracleByte (s : State) (h : Handle) : Byte := (oracle s h).setWidth 8

/-- The owner register of class `k` after a transaction of a command of class `own` by the active context, which completes the
command or not (R172, R301). -/
def ownerAfter (s : State) (own k : BusClass) (completes : Bool) : Option Nat :=
  if s.cfg.busLock = false then s.owner k
  else if completes = true then (if own = k ∨ s.owner k = some s.active then none else s.owner k)
  else if own = k then some s.active
  else s.owner k

/-- The state after one bus read of `v` at handle `h` by command `i`, with the active context now `c`. -/
def afterRead (s : State) (i : Instr) (h : Handle) (v : Word) (c : Context) (completes : Bool)
    (events : List LogEvent) : State :=
  { s with
    trace := s.trace ++ [⟨s.active, .read, h.addr, h.width, v⟩]
    log := s.log ++ events
    ctxs := s.ctxs.set s.active c
    answers := s.answers.tail
    draws := if s.answers = [] then s.draws + 1 else s.draws
    ataOwner := ownerAfter s i.busClass .ata completes
    pciOwner := ownerAfter s i.busClass .pci completes }

/-- The state after one bus write of `v` at handle `h` by command `i`, with the active context now `c`. -/
def afterWrite (s : State) (i : Instr) (h : Handle) (v : Word) (c : Context) (completes : Bool) : State :=
  { s with
    trace := s.trace ++ [⟨s.active, .write, h.addr, h.width, v⟩]
    ctxs := s.ctxs.set s.active c
    ataOwner := ownerAfter s i.busClass .ata completes
    pciOwner := ownerAfter s i.busClass .pci completes }

/-- The registers of a context that has completed with result `v` and outcome `o` (R301). -/
def completed (c : Context) (v : Word) (o : OutcomeCode) : Context :=
  { c with
    result := v
    status := { c.status with busy := false, done := true, outcome := o }
    phase := .idle
    idx := 0 }

/-- `zext_32(last)`, 0 for none (R42). -/
def lastWord (c : Context) : Word :=
  match c.last with
  | none => 0
  | some b => b.setWidth 32

/-- The conditions of R192, bit by bit. -/
def condHolds : PollCond → Byte → Bool
  | .bsyClear, v => v.getLsbD 7 == false
  | .drqOrErr, v => v.getLsbD 3 == true || v.getLsbD 0 == true
  | .drqSet, v => v.getLsbD 3 == true

/-- The poll phases of a command: condition and next phase (R192, R210, R270). -/
def pollOf : Instr → Phase → Option (PollCond × Phase)
  | .ataIdentify _, .iBsy => some (.bsyClear, .iRMid)
  | .ataIdentify _, .iDrq => some (.drqOrErr, .iData)
  | .ataReadSector _, .rDrq => some (.drqSet, .rData)
  | _, _ => none

/-- A write phase: the phase, the handle, the value, the next phase. -/
structure WriteRow where
  phase : Phase
  handle : Handle
  value : Word
  next : Phase

/-- The six writes of IDENTIFY (R210 to R212, R122). -/
def identifyWrites (cfg : Config) (d : Drive) : List WriteRow :=
  [ ⟨.iSel, .drvsel, (if d = .master then cfg.idselMaster else cfg.idselSlave).setWidth 32, .iCnt⟩,
    ⟨.iCnt, .seccount, 0x00, .iLo⟩,
    ⟨.iLo, .lbaLo, 0x00, .iMid⟩,
    ⟨.iMid, .lbaMid, 0x00, .iHi⟩,
    ⟨.iHi, .lbaHi, 0x00, .iCmd⟩,
    ⟨.iCmd, .cmdstat, 0xEC, .iS0⟩ ]

/-- The six writes of READ_SECTOR (R270 to R274, R121). -/
def sectorWrites (lba : Word) : List WriteRow :=
  [ ⟨.rSel, .drvsel, 0xE0 ||| ((lba >>> 24) &&& 0x0F), .rCnt⟩,
    ⟨.rCnt, .seccount, 0x00, .rLo⟩,
    ⟨.rLo, .lbaLo, (lba.extractLsb' 0 8).setWidth 32, .rMid⟩,
    ⟨.rMid, .lbaMid, (lba.extractLsb' 8 8).setWidth 32, .rHi⟩,
    ⟨.rHi, .lbaHi, (lba.extractLsb' 16 8).setWidth 32, .rCmd⟩,
    ⟨.rCmd, .cmdstat, 0x20, .rDrq⟩ ]

/-- The trace events of a list of write phases by context `n`. -/
def writeEvents (n : Nat) (rows : List WriteRow) : List BusEvent :=
  rows.map fun r => ⟨n, .write, r.handle.addr, r.handle.width, r.value⟩

/-- The trace events of reads at one handle by context `n`, answered `vs` in order. -/
def readEvents (n : Nat) (h : Handle) (vs : List Word) : List BusEvent :=
  vs.map fun v => ⟨n, .read, h.addr, h.width, (v.setWidth h.width.bits).setWidth 32⟩

/-- The count of `n` reads in a 32-bit register that saturates (R43). -/
def saturated (n : Nat) : Word := BitVec.ofNat 32 (min n (2 ^ 32 - 1))

/-- The next pick is to run event `e`. -/
abbrev Picks (s : State) (e : Event) : Prop := s.nextEvent = e

/-- The host offset of register offset `o` in the window of context `n` (R56). -/
def window (n o : Nat) : Nat := 0x1000 * (n + 1) + o

/-- The plain registers of a context window (R57): offset and value read. -/
def plainRegisters (c : Context) : List (Nat × Word) :=
  [ (0x000, c.cmd0), (0x004, c.cmd1), (0x008, 0), (0x00C, c.status.toWord), (0x010, c.result), (0x014, c.iter),
    (0x018, c.sig) ]

/-- Byte `k` of a text field in place `i` of a host register (R85). -/
def textByte (text : List Byte) (j i : Nat) : Word := (text.getD (4 * j + i) 0).setWidth 32 <<< (8 * i)

/-- Register `j` of a text field (R57, R85). -/
def textRegister (text : List Byte) (j : Nat) : Word :=
  textByte text j 0 ||| textByte text j 1 ||| textByte text j 2 ||| textByte text j 3

/-- The record registers of a context window (R57): offset and view of the record. -/
def recordRegisters (r : DeviceInfo) : List (Nat × Word) :=
  [ (0x100, r.flags.setWidth 32), (0x104, r.sectorsPerInt.setWidth 32), (0x108, r.capabilities),
    (0x10C, r.validExt.setWidth 32), (0x110, r.rwMultiple.setWidth 32), (0x114, r.lba28Sectors),
    (0x118, r.lba48Sectors.setWidth 32), (0x11C, (r.lba48Sectors >>> 32).setWidth 32),
    (0x120, r.physSectorSize.setWidth 32), (0x124, r.wordsPerLogical) ]
  ++ (List.range 5).map (fun j => (0x140 + 4 * j, textRegister r.serial j))
  ++ (List.range 2).map (fun j => (0x160 + 4 * j, textRegister r.firmware j))
  ++ (List.range 10).map (fun j => (0x180 + 4 * j, textRegister r.model j))

/-- The offsets of the record registers (R57). -/
def recordOffsets : List Nat :=
  [0x100, 0x104, 0x108, 0x10C, 0x110, 0x114, 0x118, 0x11C, 0x120, 0x124]
  ++ (List.range 5).map (fun j => 0x140 + 4 * j)
  ++ (List.range 2).map (fun j => 0x160 + 4 * j)
  ++ (List.range 10).map (fun j => 0x180 + 4 * j)

/-- The offsets of a context window that hold a register (R57). -/
def registerOffsets : List Nat :=
  [0x000, 0x004, 0x008, 0x00C, 0x010, 0x014, 0x018] ++ recordOffsets ++ (List.range 256).map (fun k => 0x400 + 4 * k)

/-- The events that may change context `n`: its own step, a host write into its window, a reset. -/
def touches (e : Event) (n : Nat) : Bool :=
  match e with
  | .context m => m == n
  | .hostWrite _ off _ => off / 0x1000 == n + 1
  | .hostRead _ _ => false
  | .irq14 => false
  | .reset => true

/-- The registers of an operation: everything of a context but `CMD0`, `CMD1` and `OVERRUN`. -/
def operationOf (c : Context) : Context :=
  { c with cmd0 := 0, cmd1 := 0, status := { c.status with overrun := false } }

end Sys2Proof.Spec

open Sys2Proof.Spec

/-! ### Encoding -/

/-- R111, R113: no bit of an operand is dropped between the encoder and the decoder. -/
def Obligations.EncodedCommandDecodesToItself : Prop :=
  ∀ i : Instr, i.wellFormed = true → decode (encode i) = .ok i

/-- R111, R114: each word has at most one meaning, and it is the encoding of it. -/
def Obligations.DecodedWordIsItsEncoding : Prop :=
  ∀ (w : CmdWord) (i : Instr), decode w = .ok i → i.wellFormed = true ∧ encode i = w

/-- R118: the decoder accepts exactly the valid words. -/
def Obligations.DecoderAcceptsExactlyValidWords : Prop :=
  ∀ w : CmdWord, (∃ i, decode w = .ok i) ↔ valid w = true

/-- R115: a word is valid exactly when it selects a row and meets the row's extra condition. -/
def Obligations.ValidWordsSelectTheirOpcodeRow : Prop :=
  ∀ w : CmdWord, valid w = true ↔ ∃ r ∈ opcodeRows, r.selects w = true ∧
    (r.mnemonic = "PORT_READ" → (w >>> 8).toNat % 16 ≤ 8) ∧
    (r.mnemonic = "PORT_WRITE" → ∃ h : Handle, h.index = w.extractLsb' 8 4 ∧ (w >>> 16).toNat % 2 ^ 32 < 2 ^ h.width.bits)

/-- R126: the spec's own examples of encoded words decode to the commands they are written for, and the assembler encodes
their lines to those words. -/
def Obligations.SpecWordsDecodeAndAssemble : Prop :=
  decode 0x0000000000000601 = .ok (.portRead .cmdstat) ∧
  decode 0x0000000000010102 = .ok (.portWrite .seccount 0x01) ∧
  decode 0x0000000000000010 = .ok (.pciCfgRead 0 0 0 0) ∧
  decode 0x0000001003020110 = .ok (.pciCfgRead 1 2 3 0x10) ∧
  decode 0x0000000000000020 = .ok (.ataIdentify .master) ∧
  decode 0x0000000000000120 = .ok (.ataIdentify .slave) ∧
  decode 0x00000ABCDEF10021 = .ok (.ataReadSector 0x0ABCDEF1) ∧
  assemble (.portRd (.name .cmdstat)) = some 0x0000000000000601 ∧
  assemble (.portWr (.name .seccount) 0x01) = some 0x0000000000010102 ∧
  assemble (.pciRd 0 0 0 0) = some 0x0000000000000010 ∧
  assemble (.pciRd 1 2 3 0x10) = some 0x0000001003020110 ∧
  assemble (.identify .master) = some 0x0000000000000020 ∧
  assemble (.identify .slave) = some 0x0000000000000120 ∧
  assemble (.read 0x0ABCDEF1) = some 0x00000ABCDEF10021

/-! ### A step runs the latched command -/

/-- R119, R99: a GO to an idle context whose command word decodes to `i` runs `i` on that context; `dropEvent` is the pick
being made. -/
def Obligations.GoRunsTheDecodedCommand : Prop :=
  ∀ (s : State) (n : Nat) (c : Context) (v : Word) (i : Instr),
    Picks s (.hostWrite 32 (window n 0x008) v) → v.getLsbD 0 = true → s.ctxs[n]? = some c → c.phase = .idle →
    decode (c.cmd1 ++ c.cmd0) = .ok i →
    step s = exec i { s.dropEvent with active := n }

/-- R55: a step of a context in flight runs its latched command. -/
def Obligations.ContextStepRunsTheLatchedCommand : Prop :=
  ∀ (s : State) (n : Nat) (c : Context) (i : Instr),
    Picks s (.context n) → s.ctxs[n]? = some c → c.phase ≠ .idle → c.op = some i →
    step s = exec i { s.dropEvent with active := n }

/-- MODEL'S CHOICE (assumption 7): a placed word is the very next instruction that runs; context 0 accepts it. -/
def Obligations.PlacedWordIsIssuedNext : Prop :=
  ∀ (s : State) (nbits w : Nat) (i : Instr), decodeTableWord nbits w = some i → 0 < s.ctxs.length →
    ∃ t c, step (s.withFetchWord nbits w) = .next t ∧ t.ctxs[0]? = some c ∧ c.op = some i ∧
      c.phase = firstPhase i ∧ c.status.busy = true ∧ t.trace = s.trace ∧ t.agenda = s.agenda

/-! ### Issue (R119) -/

/-- R119: what an accepted GO of a valid command does, whole; no transaction. -/
def Obligations.AcceptedGoLatchesTheCommand : Prop :=
  ∀ (i : Instr) (s : State) (c : Context), s.ctxs[s.active]? = some c → c.phase = .idle → i.wellFormed = true →
    exec i s = .next
      { s with
        ctxs := s.ctxs.set s.active
          { c with
            op := some i
            status :=
              { busy := true, done := false, overrun := c.status.overrun, outcome := .noneYet, absentSeen := false,
                notAtaSeen := false }
            result := 0
            iter := 0
            sig := 0
            last := none
            idx := 0
            buf := match i with
              | .ataIdentify _ => []
              | .ataReadSector _ => []
              | _ => c.buf
            info := match i with
              | .ataIdentify _ => none
              | _ => c.info
            phase := match i with
              | .portRead _ => .pXfer
              | .portWrite _ _ => .pXfer
              | .pciCfgRead _ _ _ _ => .cWAddr
              | .ataIdentify _ => .iSel
              | .ataReadSector _ => .rSel } }

/-- R119, R303: a GO of a word that fails `valid` completes BAD_COMMAND in the same step, with no transaction, `BUF` and `REC`
unchanged; `complete` gives back the owner registers (R301). `active` and the pick are the model's own (assumptions 2 and 6). -/
def Obligations.InvalidWordCompletesBadCommand : Prop :=
  ∀ (s : State) (n : Nat) (c : Context) (v : Word),
    Picks s (.hostWrite 32 (window n 0x008) v) → v.getLsbD 0 = true → s.ctxs[n]? = some c → c.phase = .idle →
    valid (c.cmd1 ++ c.cmd0) = false →
    step s = .next
      { s.dropEvent with
        active := n
        ataOwner := if s.cfg.busLock = true ∧ s.ataOwner = some n then none else s.ataOwner
        pciOwner := if s.cfg.busLock = true ∧ s.pciOwner = some n then none else s.pciOwner
        ctxs := s.ctxs.set n
          { c with
            op := none
            status :=
              { busy := false, done := true, overrun := c.status.overrun, outcome := .badCommand, absentSeen := false,
                notAtaSeen := false }
            result := 0
            iter := 0
            sig := 0
            last := none
            idx := 0
            phase := .idle } }

/-- R308: a GO while the context is busy sets `OVERRUN` and changes nothing else. -/
def Obligations.GoWhileBusyOnlySetsOverrun : Prop :=
  ∀ (s : State) (n : Nat) (c : Context) (v : Word),
    Picks s (.hostWrite 32 (window n 0x008) v) → v.getLsbD 0 = true → s.ctxs[n]? = some c → c.phase ≠ .idle →
    step s = .next
      { s.dropEvent with
        active := n
        ctxs := s.ctxs.set n { c with status := { c.status with overrun := true } } }

/-! ### Raw port commands -/

/-- R174: PORT_READ completes OK with the value read, zero-extended; `last`, `ITER` and `SIG` are not written. -/
def Obligations.PortReadCompletesWithTheValueRead : Prop :=
  ∀ (h : Handle) (s : State) (c : Context), Ready s (.portRead h) c h → c.phase = .pXfer →
    exec (.portRead h) s = .next
      (afterRead s (.portRead h) h (oracle s h) (completed c (oracle s h) .ok) true [])

/-- R175, R117: PORT_WRITE writes `data[width-1:0]` and completes OK with `RESULT = 0`; of a valid command that is all of
`data`. -/
def Obligations.PortWriteCompletesWithResultZero : Prop :=
  ∀ (h : Handle) (data : Word) (s : State) (c : Context), Ready s (.portWrite h data) c h → c.phase = .pXfer →
    exec (.portWrite h data) s = .next
      (afterWrite s (.portWrite h data) h ((data.setWidth h.width.bits).setWidth 32) (completed c 0 .ok) true) ∧
    (data.toNat < 2 ^ h.width.bits → (data.setWidth h.width.bits).setWidth 32 = data)

/-! ### PCI configuration read -/

/-- R150: the two steps of PCI_CFG_READ. -/
def Obligations.PciReadWritesAddressThenReadsHalf : Prop :=
  ∀ (bus slot func off : Byte) (s : State) (c : Context),
    (Ready s (.pciCfgRead bus slot func off) c .pciAddr → c.phase = .cWAddr →
      exec (.pciCfgRead bus slot func off) s = .next
        (afterWrite s (.pciCfgRead bus slot func off) .pciAddr
          ((bus.setWidth 32 <<< 16) ||| (slot.setWidth 32 <<< 11) ||| (func.setWidth 32 <<< 8)
            ||| (off.setWidth 32 &&& 0x000000FC) ||| 0x80000000)
          { c with phase := .cRData } false)) ∧
    (Ready s (.pciCfgRead bus slot func off) c .pciData → c.phase = .cRData →
      exec (.pciCfgRead bus slot func off) s = .next
        (afterRead s (.pciCfgRead bus slot func off) .pciData (oracle s .pciData)
          (completed c
            (if off.getLsbD 1 = true then ((oracle s .pciData).extractLsb' 16 16).setWidth 32
              else ((oracle s .pciData).extractLsb' 0 16).setWidth 32) .ok) true []))

/-- R154, R123: for every operand bit 31 is set and bits 30:24 and 1:0 are 0; for in-range operands no two fields overlap. -/
def Obligations.PciAddressFixedBitsAndFields : Prop :=
  ∀ bus slot func off : Byte,
    (pciAddress bus slot func off).getLsbD 31 = true ∧
    (pciAddress bus slot func off).extractLsb' 0 2 = 0 ∧
    (pciAddress bus slot func off).extractLsb' 24 7 = 0 ∧
    (slot.toNat < 32 → func.toNat < 8 →
      (pciAddress bus slot func off).toNat
        = 2 ^ 31 + bus.toNat * 2 ^ 16 + slot.toNat * 2 ^ 11 + func.toNat * 2 ^ 8 + off.toNat / 4 * 4)

/-- R87: a read at an odd offset is the read at the offset below it. -/
def Obligations.PciOddOffsetReadsTheSameHalf : Prop :=
  ∀ (bus slot func off : Byte) (dw : Word),
    pciAddress bus slot func (off ||| 1) = pciAddress bus slot func (off &&& 0xFE) ∧
    pciHalf (off ||| 1) dw = pciHalf (off &&& 0xFE) dw

/-- R151: from its GO, PCI_CFG_READ is exactly one write to 0xCF8 and one read from 0xCFC, and completes OK. -/
def Obligations.PciReadIsOneWriteAndOneRead : Prop :=
  ∀ (bus slot func off : Byte) (s : State) (c : Context) (dw : Word) (rest : List Word),
    s.ctxs[s.active]? = some c → c.phase = .idle → s.locks = [] →
    (s.cfg.busLock = true → s.pciOwner = none ∨ s.pciOwner = some s.active) → s.answers = dw :: rest →
    ∃ t d, execs (.pciCfgRead bus slot func off) 3 s = .next t ∧ t.ctxs[s.active]? = some d ∧
      t.trace = s.trace ++ [⟨s.active, .write, 0xCF8, .w32, pciAddress bus slot func off⟩,
        ⟨s.active, .read, 0xCFC, .w32, dw⟩] ∧
      d.status.busy = false ∧ d.status.done = true ∧ d.status.outcome = .ok ∧ d.phase = .idle ∧
      d.result = pciHalf off dw ∧ d.iter = 0 ∧ d.sig = 0 ∧ d.buf = c.buf ∧ d.info = c.info ∧
      t.log = s.log ∧ t.answers = rest

/-! ### The status poller -/

/-- R191 to R193: one poll iteration of each of the three polls. -/
def Obligations.PollIterationReadsTestsAndLogs : Prop :=
  ∀ (i : Instr) (s : State) (c : Context) (cond : PollCond) (next : Phase),
    Ready s i c .cmdstat → pollOf i c.phase = some (cond, next) →
    let v := oracleByte s .cmdstat
    let n := if c.iter = 0xFFFFFFFF then c.iter else c.iter + 1
    let d := { c with last := some v, iter := n }
    let events := [LogEvent.poll s.active cond n v]
    exec i s =
      if condHolds cond v = true then
        .next (afterRead s i .cmdstat (v.setWidth 32) { d with phase := next } false events)
      else if (∃ k, s.cfg.pollLimit = some k ∧ k.toNat ≤ n.toNat) then
        .next (afterRead s i .cmdstat (v.setWidth 32) (completed d (v.setWidth 32) .timeout) true events)
      else .next (afterRead s i .cmdstat (v.setWidth 32) d false events)

/-- R195: with `POLL_LIMIT = some n` a poll just entered is left after at most n status reads: k steps, each of them one read of
`CMDSTAT` by the context and nothing else. -/
def Obligations.BoundedPollEndsWithinItsLimit : Prop :=
  ∀ (i : Instr) (s : State) (c : Context) (p : Phase) (cond : PollCond) (next : Phase) (n : Word),
    Ready s i c .cmdstat → s.locks = [] → c.phase = p → pollOf i p = some (cond, next) → c.iter = 0 →
    s.cfg.pollLimit = some n → n ≠ 0 →
    ∃ k t d vs, 1 ≤ k ∧ k ≤ n.toNat ∧ execs i k s = .next t ∧ t.ctxs[s.active]? = some d ∧ vs.length = k ∧
      t.trace = s.trace ++ readEvents s.active .cmdstat vs ∧
      (d.phase = next ∨ (d.phase = .idle ∧ d.status.outcome = .timeout ∧ d.status.done = true ∧ k = n.toNat))

/-- R194: without a limit, a poll whose answers all fail its condition goes on, for any number of reads: still busy, never done. -/
def Obligations.UnboundedPollSpinsWhileItsConditionFails : Prop :=
  ∀ (i : Instr) (s : State) (c : Context) (cond : PollCond) (next : Phase) (bad rest : List Word),
    Ready s i c .cmdstat → s.locks = [] → pollOf i c.phase = some (cond, next) → c.iter = 0 →
    s.cfg.pollLimit = none → s.answers = bad ++ rest → (∀ a ∈ bad, condHolds cond (a.setWidth 8) = false) →
    ∃ t d, execs i bad.length s = .next t ∧ t.ctxs[s.active]? = some d ∧ d.phase = c.phase ∧ d.status = c.status ∧
      d.iter = saturated bad.length ∧ t.trace = s.trace ++ readEvents s.active .cmdstat bad ∧ t.answers = rest

/-! ### IDENTIFY -/

/-- R211, R212: the six writes of IDENTIFY, in their order. -/
def Obligations.IdentifyPerformsItsSixWrites : Prop :=
  ∀ (d : Drive) (s : State) (c : Context), ∀ r ∈ identifyWrites s.cfg d,
    Ready s (.ataIdentify d) c r.handle → c.phase = r.phase →
    exec (.ataIdentify d) s = .next
      (afterWrite s (.ataIdentify d) r.handle r.value { c with phase := r.next } false)

/-- R213, R214, R190: the read-back, the absent-device signal, and the early abort. That the registers and the log have them right
after the step of the read is the model's reading (assumption 23). -/
def Obligations.IdentifyReadBackSignalsAbsent : Prop :=
  ∀ (d : Drive) (s : State) (c : Context), Ready s (.ataIdentify d) c .cmdstat → c.phase = .iS0 →
    let b := oracleByte s .cmdstat
    let c1 := { c with last := some b, sig := c.sig.extractLsb' 8 24 ++ b }
    let c2 := { c1 with status := { c.status with absentSeen := true } }
    exec (.ataIdentify d) s =
      if b ≠ 0 then
        .next (afterRead s (.ataIdentify d) .cmdstat (b.setWidth 32) { c1 with phase := .iBsy, iter := 0 } false [])
      else if s.cfg.earlyAbort = true then
        .next (afterRead s (.ataIdentify d) .cmdstat (b.setWidth 32) (completed c2 0 .absent) true [.absent s.active])
      else
        .next (afterRead s (.ataIdentify d) .cmdstat (b.setWidth 32) { c2 with phase := .iBsy, iter := 0 } false
          [.absent s.active])

/-- R215: the LBA-mid byte is read after the BSY poll and kept in `SIG[15:8]`, in the step of the read (the model's reading,
assumption 23). -/
def Obligations.IdentifyReadsLbaMidIntoSig : Prop :=
  ∀ (d : Drive) (s : State) (c : Context), Ready s (.ataIdentify d) c .lbaMid → c.phase = .iRMid →
    exec (.ataIdentify d) s = .next
      (afterRead s (.ataIdentify d) .lbaMid (oracle s .lbaMid)
        { c with
          sig := c.sig.extractLsb' 16 16 ++ oracleByte s .lbaMid ++ c.sig.extractLsb' 0 8
          phase := .iRHi } false [])

/-- R215, R216: the LBA-high byte, the non-ATA signal, and the early abort. That the LBA-mid byte is taken from `SIG[15:8]` is
the model's reading (assumption 19), and so is the step in which the work after the read is done (assumption 23). -/
def Obligations.IdentifyReadsLbaHighAndSignalsNotAta : Prop :=
  ∀ (d : Drive) (s : State) (c : Context), Ready s (.ataIdentify d) c .lbaHi → c.phase = .iRHi →
    let m := c.sig.extractLsb' 8 8
    let h := oracleByte s .lbaHi
    let c1 := { c with sig := c.sig.extractLsb' 24 8 ++ h ++ c.sig.extractLsb' 0 16 }
    let c2 := { c1 with status := { c.status with notAtaSeen := true } }
    exec (.ataIdentify d) s =
      if m = 0 ∧ h = 0 then
        .next (afterRead s (.ataIdentify d) .lbaHi (h.setWidth 32) { c1 with phase := .iDrq, iter := 0 } false [])
      else if s.cfg.earlyAbort = true then
        .next (afterRead s (.ataIdentify d) .lbaHi (h.setWidth 32) (completed c2 (lastWord c) .notAta) true
          [.notAta s.active m h])
      else
        .next (afterRead s (.ataIdentify d) .lbaHi (h.setWidth 32) { c2 with phase := .iDrq, iter := 0 } false
          [.notAta s.active m h])

/-- R218: each data step before the 256th reads one word into `BUF[idx]`, in the step of the read (the model's reading,
assumption 23). -/
def Obligations.IdentifyStoresEachDataWord : Prop :=
  ∀ (d : Drive) (s : State) (c : Context), Ready s (.ataIdentify d) c .data → c.phase = .iData → c.idx < 255 →
    exec (.ataIdentify d) s = .next
      (afterRead s (.ataIdentify d) .data (oracle s .data)
        { c with buf := Memory.write c.buf c.idx ((oracle s .data).setWidth 16), idx := c.idx + 1 } false [])

/-- R219, R220: the 256th data step stores its word, decodes the full buffer and completes: ABSENT over NOT_ATA over OK. -/
def Obligations.IdentifyCompletesWithTheDecodedRecord : Prop :=
  ∀ (d : Drive) (s : State) (c : Context), Ready s (.ataIdentify d) c .data → c.phase = .iData → c.idx = 255 →
    (∀ k < 255, (Memory.read c.buf k).isSome = true) →
    let buf := Memory.write c.buf 255 ((oracle s .data).setWidth 16)
    let outcome := if c.status.absentSeen = true then OutcomeCode.absent
      else if c.status.notAtaSeen = true then .notAta else .ok
    exec (.ataIdentify d) s = .next
      (afterRead s (.ataIdentify d) .data (oracle s .data)
        (completed { c with buf := buf, info := some (decodeInfo fun k => (Memory.read buf k).getD 0) } (lastWord c)
          outcome) true [])

/-- R210, R361: a whole IDENTIFY with `EARLY_ABORT = false`, from its GO to its completion: its transactions in order, its
outcome, its buffer and its record, for every answer of the device whose two polls end within the limit. -/
def Obligations.IdentifyRunsToCompletion : Prop :=
  ∀ (d : Drive) (s : State) (c : Context) (s0 : Word) (busy : List Word) (ready mid high : Word) (waiting : List Word)
    (drq : Word) (words rest : List Word),
    s.ctxs[s.active]? = some c → c.phase = .idle → s.locks = [] →
    (s.cfg.busLock = true → s.ataOwner = none ∨ s.ataOwner = some s.active) → s.cfg.earlyAbort = false →
    s.answers = s0 :: busy ++ ready :: mid :: high :: waiting ++ drq :: words ++ rest →
    (∀ a ∈ busy, condHolds .bsyClear (a.setWidth 8) = false) → condHolds .bsyClear (ready.setWidth 8) = true →
    (∀ a ∈ waiting, condHolds .drqOrErr (a.setWidth 8) = false) → condHolds .drqOrErr (drq.setWidth 8) = true →
    (∀ n, s.cfg.pollLimit = some n → busy.length < n.toNat ∧ waiting.length < n.toNat) → words.length = 256 →
    ∃ t e, execs (.ataIdentify d) (1 + 6 + 1 + (busy.length + 1) + 2 + (waiting.length + 1) + 256) s = .next t ∧
      t.ctxs[s.active]? = some e ∧
      t.trace = s.trace ++ writeEvents s.active (identifyWrites s.cfg d) ++ readEvents s.active .cmdstat [s0]
        ++ readEvents s.active .cmdstat (busy ++ [ready]) ++ readEvents s.active .lbaMid [mid]
        ++ readEvents s.active .lbaHi [high] ++ readEvents s.active .cmdstat (waiting ++ [drq])
        ++ readEvents s.active .data words ∧
      e.phase = .idle ∧ e.status.busy = false ∧ e.status.done = true ∧
      e.status.outcome = (if s0.setWidth 8 = 0#8 then .absent
        else if mid.setWidth 8 = 0#8 ∧ high.setWidth 8 = 0#8 then .ok else .notAta) ∧
      e.result = (drq.setWidth 8).setWidth 32 ∧ e.iter = saturated (waiting.length + 1) ∧
      e.sig = 0#8 ++ high.setWidth 8 ++ mid.setWidth 8 ++ s0.setWidth 8 ∧
      (∀ k < 256, Memory.read e.buf k = (words[k]?).map (·.setWidth 16)) ∧
      e.info = some (decodeInfo fun k => (words.getD k 0).setWidth 16) ∧ t.answers = rest

/-! ### READ_SECTOR -/

/-- R271 to R274: the six writes of READ_SECTOR, in their order; the last enters the poll with `ITER = 0`. -/
def Obligations.ReadSectorPerformsItsSixWrites : Prop :=
  ∀ (lba : Word) (s : State) (c : Context), ∀ r ∈ sectorWrites lba,
    Ready s (.ataReadSector lba) c r.handle → c.phase = r.phase →
    exec (.ataReadSector lba) s = .next
      (afterWrite s (.ataReadSector lba) r.handle r.value
        { c with phase := r.next, iter := if r.next = .rDrq then 0 else c.iter } false)

/-- R276: each data step reads one word into `BUF[idx]`, in the step of the read (the model's reading, assumption 23); the 256th
completes OK with the last status byte. -/
def Obligations.ReadSectorStoresEachDataWord : Prop :=
  ∀ (lba : Word) (s : State) (c : Context), Ready s (.ataReadSector lba) c .data → c.phase = .rData → c.idx < 256 →
    let d := { c with buf := Memory.write c.buf c.idx ((oracle s .data).setWidth 16), idx := c.idx + 1 }
    exec (.ataReadSector lba) s =
      if c.idx < 255 then .next (afterRead s (.ataReadSector lba) .data (oracle s .data) d false [])
      else .next (afterRead s (.ataReadSector lba) .data (oracle s .data) (completed d (lastWord c) .ok) true [])

/-- R270, R361: a whole READ_SECTOR, from its GO to its completion. `REC` and `SIG` are not written beyond the clearing at GO. -/
def Obligations.ReadSectorRunsToCompletion : Prop :=
  ∀ (lba : Word) (s : State) (c : Context) (waiting : List Word) (drq : Word) (words rest : List Word),
    s.ctxs[s.active]? = some c → c.phase = .idle → s.locks = [] →
    (s.cfg.busLock = true → s.ataOwner = none ∨ s.ataOwner = some s.active) →
    s.answers = waiting ++ drq :: words ++ rest →
    (∀ a ∈ waiting, condHolds .drqSet (a.setWidth 8) = false) → condHolds .drqSet (drq.setWidth 8) = true →
    (∀ n, s.cfg.pollLimit = some n → waiting.length < n.toNat) → words.length = 256 →
    ∃ t e, execs (.ataReadSector lba) (1 + 6 + (waiting.length + 1) + 256) s = .next t ∧ t.ctxs[s.active]? = some e ∧
      t.trace = s.trace ++ writeEvents s.active (sectorWrites lba) ++ readEvents s.active .cmdstat (waiting ++ [drq])
        ++ readEvents s.active .data words ∧
      e.phase = .idle ∧ e.status.busy = false ∧ e.status.done = true ∧ e.status.outcome = .ok ∧
      e.result = (drq.setWidth 8).setWidth 32 ∧ e.iter = saturated (waiting.length + 1) ∧ e.sig = 0 ∧
      (∀ k < 256, Memory.read e.buf k = (words[k]?).map (·.setWidth 16)) ∧ e.info = c.info ∧ t.answers = rest

/-- R278: two operands that differ only in bits 31:28 give, under the same answers, the same states but for the latched command,
however many steps are taken: the trace, the log, every other register of the context and the owner registers are equal. -/
def Obligations.ReadSectorIgnoresTheTopLbaBits : Prop :=
  ∀ (lba lba' : Word) (s t : State) (c : Context) (n : Nat),
    lba.extractLsb' 0 28 = lba'.extractLsb' 0 28 → s.ctxs[s.active]? = some c → c.phase = .idle →
    execs (.ataReadSector lba) n s = .next t →
    ∃ e o, t.ctxs[s.active]? = some e ∧
      execs (.ataReadSector lba') n s = .next { t with ctxs := t.ctxs.set s.active { e with op := o } } ∧
      (if n = 0 then o = e.op else e.op = some (.ataReadSector lba) ∧ o = some (.ataReadSector lba'))

/-! ### The decoder -/

/-- R245, R244: `swap` is an involution on every even length, and has no value on an odd one. -/
def Obligations.SwapIsAnInvolutionOnEvenLengths : Prop :=
  ∀ b : List Byte,
    (b.length % 2 = 0 → ∃ r, swapPairs b = some r ∧ r.length = b.length ∧ swapPairs r = some b ∧
      ∀ i < b.length / 2, r[2 * i]? = b[2 * i + 1]? ∧ r[2 * i + 1]? = b[2 * i]?) ∧
    (b.length % 2 = 1 → swapPairs b = none)

/-- R243: a text field is the byte view of its words with each pair swapped. -/
def Obligations.TextFieldIsSwappedByteView : Prop :=
  ∀ (words : Nat → Half) (base n : Nat),
    swapPairs (byteView words base n) = some (textField words base n) ∧
    ∀ i < n, (textField words base n)[2 * i]? = some ((words (base + i)).extractLsb' 8 8) ∧
      (textField words base n)[2 * i + 1]? = some ((words (base + i)).extractLsb' 0 8)

/-- R246: the text fields have fixed lengths, whatever the input. -/
def Obligations.RecordTextLengthsAreFixed : Prop :=
  ∀ words : Nat → Half,
    (decodeInfo words).serial.length = 20 ∧ (decodeInfo words).firmware.length = 8 ∧ (decodeInfo words).model.length = 40

/-- R242, R247: the numeric fields, word by word, the lower-numbered word less significant. -/
def Obligations.RecordNumericFieldsAreLowWordFirst : Prop :=
  ∀ words : Nat → Half,
    (decodeInfo words).flags = words 0 ∧ (decodeInfo words).sectorsPerInt = words 47 ∧
    (decodeInfo words).capabilities = words 50 ++ words 49 ∧ (decodeInfo words).validExt = words 53 ∧
    (decodeInfo words).rwMultiple = words 59 ∧ (decodeInfo words).lba28Sectors = words 61 ++ words 60 ∧
    (decodeInfo words).lba48Sectors = words 103 ++ words 102 ++ words 101 ++ words 100 ∧
    (decodeInfo words).physSectorSize = words 106 ∧ (decodeInfo words).wordsPerLogical = words 118 ++ words 117

/-- R248: words 1-9, 20-22, 48, 51-52, 54-58, 62-99, 104-105, 107-116 and 119 on belong to no field. -/
def Obligations.DecoderIgnoresUnnamedWords : Prop :=
  ∀ words words' : Nat → Half,
    (∀ k, k = 0 ∨ (10 ≤ k ∧ k ≤ 19) ∨ (23 ≤ k ∧ k ≤ 47) ∨ k = 49 ∨ k = 50 ∨ k = 53 ∨ (59 ≤ k ∧ k ≤ 61) ∨
      (100 ≤ k ∧ k ≤ 103) ∨ k = 106 ∨ k = 117 ∨ k = 118 → words k = words' k) →
    decodeInfo words = decodeInfo words'

/-! ### Arbitration -/

/-- R172: a context whose class another context owns has no step: it is held, not faulted. That a pick of it is passed over and
answers the same state is the model's choice (assumption 5). -/
def Obligations.HeldContextHasNoStep : Prop :=
  ∀ (i : Instr) (s : State) (c : Context) (m : Nat), s.ctxs[s.active]? = some c → c.op = some i →
    c.phase ∈ phasesOf i → c.idx < 256 → s.cfg.busLock = true → s.owner i.busClass = some m → m ≠ s.active →
    exec i s = .next s

/-- R11's last sentence: each step of a context in flight that is not held performs exactly one bus transaction, its own. -/
def Obligations.ContextStepIsExactlyOneTransaction : Prop :=
  ∀ (s : State) (n : Nat) (c : Context) (i : Instr), s.Inv → Picks s (.context n) → s.ctxs[n]? = some c →
    c.phase ≠ .idle → c.op = some i →
    (s.cfg.busLock = true → s.owner i.busClass = none ∨ s.owner i.busClass = some n) →
    ∃ t e, step s = .next t ∧ t.trace = s.trace ++ [e] ∧ e.ctx = n

/-- R92, R80: a step adds at most one transaction, of a context's step only, at one of the nine handles and at its width. -/
def Obligations.EveryTransactionIsAtAHandleAndItsWidth : Prop :=
  ∀ s t : State, step s = .next t →
    t.trace = s.trace ∨ ∃ n e h, s.nextEvent = .context n ∧ t.trace = s.trace ++ [e] ∧ e.ctx = n ∧
      h ∈ Handle.all ∧ e.port = h.addr ∧ e.width = h.width ∧ e.value.toNat < 2 ^ h.width.bits

/-- R120: the engines write no command byte but 0xEC (IDENTIFY) and 0x20 (READ_SECTOR). -/
def Obligations.EnginesEmitOnlyTwoCommandBytes : Prop :=
  ∀ (i : Instr) (s t : State) (e : BusEvent), (∀ h data, i ≠ .portWrite h data) → exec i s = .next t →
    t.trace = s.trace ++ [e] → e.dir = .write → e.port = 0x1F7 →
    (e.value = 0xEC ∧ ∃ d, i = .ataIdentify d) ∨ (e.value = 0x20 ∧ ∃ lba, i = .ataReadSector lba)

/-- R196, R172: with `BUS_LOCK`, while a context owns the ATA class no other context's transaction reaches an ATA port. -/
def Obligations.OwnedAtaBusHasNoOtherTransactions : Prop :=
  ∀ (s t : State) (n : Nat) (e : BusEvent), s.cfg.busLock = true → s.ataOwner = some n → step s = .next t →
    t.trace = s.trace ++ [e] → e.port ≠ 0xCF8 → e.port ≠ 0xCFC → e.ctx = n

/-- R172: with `BUS_LOCK`, in every state that a run from the start reaches, whatever the environment does and the devices answer,
two contexts past the first transaction of commands of one class are the same context. -/
def Obligations.BusLockAdmitsOneStartedContextPerClass : Prop :=
  ∀ (cfg : Config) (agenda : List Event) (answers : List Word) (s : State) (k : BusClass) (m n : Nat) (c d : Context),
    cfg.wf = true → cfg.busLock = true →
    Reaches { State.start cfg with agenda := agenda, answers := answers } s →
    s.ctxs[m]? = some c → s.ctxs[n]? = some d → c.Started k → d.Started k → m = n

/-! ### The host's registers -/

/-- R57: a host read of a plain register returns its value and changes nothing of the block. -/
def Obligations.HostReadsPlainRegisters : Prop :=
  ∀ (s : State) (n o : Nat) (c : Context) (v : Word), Picks s (.hostRead 32 (window n o)) → s.ctxs[n]? = some c →
    (o, v) ∈ plainRegisters c →
    step s = .next { s.dropEvent with hostReads := s.hostReads ++ [⟨window n o, v⟩] }

/-- R57, R85: a host read of a record register of an idle context with a written record returns its view of the record. -/
def Obligations.HostReadsRecordRegisters : Prop :=
  ∀ (s : State) (n o : Nat) (c : Context) (r : DeviceInfo) (v : Word), Picks s (.hostRead 32 (window n o)) →
    s.ctxs[n]? = some c → c.phase = .idle → c.info = some r → (o, v) ∈ recordRegisters r →
    step s = .next { s.dropEvent with hostReads := s.hostReads ++ [⟨window n o, v⟩] }

/-- R57, R58: a host read of `BUF[k]` returns the word of a written cell of an idle context; of an unwritten cell, whether the
context is busy or idle, a draw in bits 15:0 and 0 above; of a written cell of a busy context a draw. That this last draw is 32
bits wide, bits 31:16 free too, is the model's reading (assumption 4). -/
def Obligations.HostReadsBufferCells : Prop :=
  ∀ (s : State) (n k : Nat) (c : Context), Picks s (.hostRead 32 (window n (0x400 + 4 * k))) → s.ctxs[n]? = some c →
    k < 256 →
    (∀ v, c.phase = .idle → Memory.read c.buf k = some v →
      step s = .next
        { s.dropEvent with hostReads := s.hostReads ++ [⟨window n (0x400 + 4 * k), v.setWidth 32⟩] }) ∧
    (Memory.read c.buf k = none →
      step s = .next
        { s.dropEvent with
          hostReads := s.hostReads ++
            [⟨window n (0x400 + 4 * k), ((Config.hostDraw s.dropEvent.draws).setWidth 16).setWidth 32⟩]
          draws := s.dropEvent.draws + 1 }) ∧
    (c.phase ≠ .idle → (Memory.read c.buf k).isSome = true →
      step s = .next
        { s.dropEvent with
          hostReads := s.hostReads ++ [⟨window n (0x400 + 4 * k), Config.hostDraw s.dropEvent.draws⟩]
          draws := s.dropEvent.draws + 1 })

/-- R58: a host read of a record register while `REC` is unwritten, or while the context is busy, returns a free draw. -/
def Obligations.UnwrittenOrBusyRecordReadsAreDraws : Prop :=
  ∀ (s : State) (n o : Nat) (c : Context), Picks s (.hostRead 32 (window n o)) → s.ctxs[n]? = some c →
    o ∈ recordOffsets → (c.phase ≠ .idle ∨ c.info = none) →
    step s = .next
      { s.dropEvent with
        hostReads := s.hostReads ++ [⟨window n o, Config.hostDraw s.dropEvent.draws⟩]
        draws := s.dropEvent.draws + 1 }

/-- R56: the global window. -/
def Obligations.HostReadsGlobalRegisters : Prop :=
  ∀ (s : State) (o : Nat) (v : Word), Picks s (.hostRead 32 o) →
    (o = 0x000 ∧ v = s.irqAckCount ∨
      o = 0x004 ∧ v.getLsbD 0 = s.cfg.earlyAbort ∧ v.getLsbD 1 = s.cfg.busLock ∧
        v.getLsbD 2 = s.cfg.pollLimit.isSome ∧ v.extractLsb' 3 5 = 0 ∧
        v.extractLsb' 8 8 = BitVec.ofNat 8 s.cfg.numContexts ∧ v.extractLsb' 16 16 = 0 ∨
      o = 0x008 ∧ v = s.cfg.pollLimit.getD 0) →
    step s = .next { s.dropEvent with hostReads := s.hostReads ++ [⟨o, v⟩] }

/-- R59: an aligned read of an offset that no register occupies, in either window, or of the window of no context, returns 0;
a write there, or to a read-only register, has no effect. -/
def Obligations.UnmappedOffsetsReadZeroAndIgnoreWrites : Prop :=
  ∀ (s : State) (n o : Nat) (v : Word), o < 0x1000 → o % 4 = 0 →
    ((s.ctxs[n]? = none ∨ o ∉ registerOffsets) → Picks s (.hostRead 32 (window n o)) →
      step s = .next { s.dropEvent with hostReads := s.hostReads ++ [⟨window n o, 0⟩] }) ∧
    ((s.ctxs[n]? = none ∨ o ∉ [0x000, 0x004, 0x008, 0x00C]) → Picks s (.hostWrite 32 (window n o) v) →
      step s = .next s.dropEvent) ∧
    (o ∉ [0x000, 0x004, 0x008] → Picks s (.hostRead 32 o) →
      step s = .next { s.dropEvent with hostReads := s.hostReads ++ [⟨o, 0⟩] }) ∧
    (Picks s (.hostWrite 32 o v) → step s = .next s.dropEvent)

/-- R38, R40, R57: what a host write that is no GO does: `CMD0` and `CMD1`, freely and at any time; the write-1-to-clear of
`OVERRUN`; nothing at any other register. -/
def Obligations.HostWritesCommandWordAndClearsOverrun : Prop :=
  ∀ (s : State) (n o : Nat) (c : Context) (v : Word), Picks s (.hostWrite 32 (window n o) v) → s.ctxs[n]? = some c →
    o ∈ registerOffsets → (o = 0x008 → v.getLsbD 0 = false) →
    step s = .next
      { s.dropEvent with
        ctxs := s.ctxs.set n
          (if o = 0x000 then { c with cmd0 := v }
          else if o = 0x004 then { c with cmd1 := v }
          else if o = 0x00C then
            { c with status := { c.status with overrun := c.status.overrun && !v.getLsbD 2 } }
          else c) }

/-- R88: a host access of another width or alignment is refused and gives no step. -/
def Obligations.OddHostAccessIsRefused : Prop :=
  ∀ (s : State) (width off : Nat) (v : Word), ¬ (width = 32 ∧ off % 4 = 0) →
    (Picks s (.hostRead width off) → step s = .refused (.hostAccess width off)) ∧
    (Picks s (.hostWrite width off v) → step s = .refused (.hostAccess width off))

/-- R40, R41: the fields of the `STATUS` word and the code of each outcome; the reserved bits read 0. -/
def Obligations.StatusWordFields : Prop :=
  ∀ st : Status,
    st.toWord.getLsbD 0 = st.busy ∧ st.toWord.getLsbD 1 = st.done ∧ st.toWord.getLsbD 2 = st.overrun ∧
    st.toWord.getLsbD 3 = false ∧
    st.toWord.extractLsb' 4 4 = (match st.outcome with
      | .noneYet => 0
      | .ok => 1
      | .absent => 2
      | .notAta => 3
      | .timeout => 4
      | .badCommand => 5) ∧
    st.toWord.getLsbD 8 = st.absentSeen ∧ st.toWord.getLsbD 9 = st.notAtaSeen ∧ st.toWord.extractLsb' 10 22 = 0

/-! ### IRQ14, reset -/

/-- R313: an IRQ14 delivery counts, wrapping, and logs; nothing else changes but the pick (the model's own, assumption 2). -/
def Obligations.Irq14CountsAndLogs : Prop :=
  ∀ s : State, Picks s .irq14 →
    step s = .next
      { s.dropEvent with
        irqAckCount := BitVec.ofNat 32 ((s.irqAckCount.toNat + 1) % 2 ^ 32)
        log := s.log ++ [.irq14] }

/-- R340, R341: a reset sets every register to its reset value, in any state, with no transaction; the log, the trace and the
parameters stay. That the model's own fields stay too is the model's choice (assumption 17). -/
def Obligations.ResetClearsEveryRegister : Prop :=
  ∀ s : State, Picks s .reset →
    step s = .next
      { s.dropEvent with
        locks := []
        ataOwner := none
        pciOwner := none
        irqAckCount := 0
        ctxs := s.ctxs.map fun _ =>
          { cmd0 := 0
            cmd1 := 0
            op := none
            status :=
              { busy := false, done := false, overrun := false, outcome := .noneYet, absentSeen := false,
                notAtaSeen := false }
            result := 0
            iter := 0
            sig := 0
            last := none
            buf := []
            info := none
            idx := 0
            phase := .idle } }

/-! ### Invariants and whole-machine rules -/

/-- R340: every start state is well-formed, whatever the parameters. -/
def Obligations.StartStateIsWellFormed : Prop :=
  ∀ cfg : Config, cfg.wf = true → (State.start cfg).Inv

/-- The invariant: whatever the state, the pick and the device's answers, a step of a well-formed state gives a well-formed
state. -/
def Obligations.StepKeepsTheInvariant : Prop :=
  ∀ s t : State, s.Inv → step s = .next t → t.Inv

/-- R300, R88: from a well-formed state a step never faults; it is refused only for a host access that R88 refuses. -/
def Obligations.WellFormedStateNeverFaults : Prop :=
  ∀ s : State, s.Inv →
    (∃ t, step s = .next t) ∨
    ∃ width off, step s = .refused (.hostAccess width off) ∧ ¬ (width = 32 ∧ off % 4 = 0) ∧
      (s.nextEvent = .hostRead width off ∨ ∃ v, s.nextEvent = .hostWrite width off v)

/-- R36, R37, R6, R319: the log and the trace are append-only, and no step changes the parameters or the number of contexts. -/
def Obligations.LogAndTraceAreAppendOnly : Prop :=
  ∀ s t : State, step s = .next t →
    (∃ es, t.log = s.log ++ es) ∧ (∃ es, t.trace = s.trace ++ es) ∧ t.cfg = s.cfg ∧ t.ctxs.length = s.ctxs.length

/-- R321 (no rule's enabling depends on the log): with another log, a step does the same and appends the same events. -/
def Obligations.LogInfluencesNothing : Prop :=
  ∀ (s : State) (l : List LogEvent),
    (∀ t, step s = .next t → ∃ es, t.log = s.log ++ es ∧ step { s with log := l } = .next { t with log := l ++ es }) ∧
    (∀ r, step s = .fault r → step { s with log := l } = .fault r) ∧
    (∀ r, step s = .refused r → step { s with log := l } = .refused r)

/-- R319, R313: a step changes no context but the one whose step it is, the one whose window the host writes, or, at a reset,
all. -/
def Obligations.StepTouchesOneContextOnly : Prop :=
  ∀ (s t : State) (n : Nat), step s = .next t → touches s.nextEvent n = false → t.ctxs[n]? = s.ctxs[n]?

/-- R99, R307, R308: nothing but its own steps and a reset changes the operation of a busy context: no host write, no GO, no
IRQ14, no other context. -/
def Obligations.OnlyItsOwnStepsChangeABusyOperation : Prop :=
  ∀ (s t : State) (n : Nat) (c : Context), step s = .next t → s.ctxs[n]? = some c → c.phase ≠ .idle →
    s.nextEvent ≠ .context n → s.nextEvent ≠ .reset →
    ∃ d, t.ctxs[n]? = some d ∧ operationOf d = operationOf c
end

