-- ==== Sys2Proof/Laws/Encoding.lean ====
section
/-! SUPPORT. The command word as a number: the value of a field, of a concatenation and of each encoding, so that facts about
words are linear arithmetic. -/

namespace Sys2Proof

/-- A field of a word, as a number. -/
theorem field_toNat (w : CmdWord) (lo n : Nat) : (field w lo n).toNat = w.toNat / 2 ^ lo % 2 ^ n := by
  simp [field, BitVec.extractLsb'_toNat, Nat.shiftRight_eq_div_pow]

/-- A field is 0 exactly when its number is. -/
theorem field_eq_zero_iff (w : CmdWord) (lo n : Nat) : field w lo n = 0#n ↔ w.toNat / 2 ^ lo % 2 ^ n = 0 := by
  rw [← BitVec.toNat_inj, field_toNat]
  simp

/-- A concatenation, as a number (R9: the left operand in the high bits). -/
theorem append_toNat {m n : Nat} (x : BitVec m) (y : BitVec n) : (x ++ y).toNat = x.toNat * 2 ^ n + y.toNat := by
  rw [BitVec.toNat_append, ← Nat.shiftLeft_add_eq_or_of_lt y.isLt, Nat.shiftLeft_eq]

theorem encode_portRead_toNat (h : Handle) : (encode (.portRead h)).toNat = 1 + 2 ^ 8 * h.index.toNat := by
  simp only [encode, append_toNat, BitVec.toNat_ofNat]; omega

theorem encode_portWrite_toNat (h : Handle) (data : Word) :
    (encode (.portWrite h data)).toNat = 2 + 2 ^ 8 * h.index.toNat + 2 ^ 16 * data.toNat := by
  simp only [encode, append_toNat, BitVec.toNat_ofNat]; omega

theorem encode_pciCfgRead_toNat (bus slot func off : Byte) :
    (encode (.pciCfgRead bus slot func off)).toNat
      = 16 + 2 ^ 8 * bus.toNat + 2 ^ 16 * slot.toNat + 2 ^ 24 * func.toNat + 2 ^ 32 * off.toNat := by
  simp only [encode, append_toNat, BitVec.toNat_ofNat]; omega

theorem encode_ataIdentify_toNat (d : Drive) :
    (encode (.ataIdentify d)).toNat = 32 + 2 ^ 8 * (driveBit d).toNat := by
  simp only [encode, append_toNat, BitVec.toNat_ofNat]; omega

theorem encode_ataReadSector_toNat (lba : Word) : (encode (.ataReadSector lba)).toNat = 33 + 2 ^ 16 * lba.toNat := by
  simp only [encode, append_toNat, BitVec.toNat_ofNat]; omega

/-- Every handle has its index, and no other index has it. -/
theorem Handle.ofIndex_index (h : Handle) : Handle.ofIndex h.index = some h := by cases h <;> rfl

theorem Handle.index_of_ofIndex {k : BitVec 4} {h : Handle} (hk : Handle.ofIndex k = some h) : h.index = k := by
  have found := List.find?_some hk
  simpa using found

/-- An index names a handle exactly when it is at most 8 (R112). -/
theorem Handle.ofIndex_isSome (k : BitVec 4) : (Handle.ofIndex k).isSome = decide (k ≤ 8) := by
  revert k; decide

end Sys2Proof
end

