-- ==== Sys2Proof/Laws/Memory.lean ====
section
/-! SUPPORT. The laws of the buffer: read after write, other cells, the canonical form, and when it is full. -/

namespace Sys2Proof.Machine

@[simp] theorem Memory.read_nil (k : Nat) : Memory.read [] k = none := rfl

theorem Memory.read_write_same (m : Memory) (k : Nat) (v : Half) : Memory.read (Memory.write m k v) k = some v := by
  induction m with
  | nil => simp [Memory.write, Memory.read]
  | cons e m ih =>
    obtain ⟨a, x⟩ := e
    simp only [Memory.write]
    split
    · simp [Memory.read]
    · split
      · simp [Memory.read]
      · next h => simp [Memory.read, Ne.symm h, ih]

theorem Memory.read_write_other (m : Memory) {j k : Nat} (v : Half) (h : j ≠ k) :
    Memory.read (Memory.write m k v) j = Memory.read m j := by
  induction m with
  | nil => simp [Memory.write, Memory.read, Ne.symm h]
  | cons e m ih =>
    obtain ⟨a, x⟩ := e
    simp only [Memory.write]
    split
    · simp [Memory.read, Ne.symm h]
    · split
      · next h' => simp [Memory.read, ← h', Ne.symm h]
      · simp [Memory.read, ih]

/-- The cell indices after a write: the written one, and those before. -/
theorem Memory.mem_keys_write (m : Memory) (k j : Nat) (v : Half) :
    j ∈ (Memory.write m k v).map Prod.fst ↔ j = k ∨ j ∈ m.map Prod.fst := by
  induction m with
  | nil => simp [Memory.write]
  | cons e m ih =>
    obtain ⟨a, x⟩ := e
    simp only [Memory.write]
    split
    · simp
    · split
      · next h => simp [h]
      · simp only [List.map_cons, List.mem_cons, ih]; tauto

/-- A write within the buffer keeps the canonical form. -/
theorem Memory.write_wf {m : Memory} (hm : Memory.wf m) {k : Nat} (v : Half) (hk : k < 256) :
    Memory.wf (Memory.write m k v) := by
  refine ⟨?_, fun j hj => ?_⟩
  · obtain ⟨hp, -⟩ := hm
    induction m with
    | nil => simp [Memory.write]
    | cons e m ih =>
      obtain ⟨a, x⟩ := e
      simp only [List.map_cons, List.pairwise_cons] at hp
      simp only [Memory.write]
      split
      · next h =>
        simp only [List.map_cons, List.pairwise_cons, List.mem_cons, forall_eq_or_imp]
        exact ⟨⟨h, fun b hb => Nat.lt_trans h (hp.1 b hb)⟩, hp⟩
      · next h =>
        split
        · next h' => subst h'; simpa using hp
        · next h' =>
          simp only [List.map_cons, List.pairwise_cons]
          refine ⟨fun b hb => ?_, ih hp.2⟩
          rcases (Memory.mem_keys_write m k b v).mp hb with rfl | hb
          · omega
          · exact hp.1 b hb
  · rcases (Memory.mem_keys_write m k j v).mp hj with rfl | hj
    · exact hk
    · exact hm.2 j hj

/-- Writing the cell after the last one written extends a filled prefix by one. -/
theorem Memory.keys_write_range {m : Memory} {n : Nat} (hm : m.map Prod.fst = List.range n) (v : Half) :
    (Memory.write m n v).map Prod.fst = List.range (n + 1) := by
  have append : ∀ l : Memory, (∀ k ∈ l.map Prod.fst, k < n) → Memory.write l n v = l ++ [(n, v)] := by
    intro l
    induction l with
    | nil => simp [Memory.write]
    | cons e l ih =>
      obtain ⟨a, x⟩ := e
      intro h
      simp only [List.map_cons, List.mem_cons, forall_eq_or_imp] at h
      have h1 : ¬ n < a := by omega
      have h2 : n ≠ a := by omega
      simp [Memory.write, h1, h2, ih h.2]
  rw [append m (by simp [hm]), List.map_append, hm, List.range_succ]
  rfl

theorem Memory.read_isSome_iff (m : Memory) (k : Nat) : (Memory.read m k).isSome ↔ k ∈ m.map Prod.fst := by
  induction m with
  | nil => simp
  | cons e m ih =>
    obtain ⟨a, x⟩ := e
    simp only [Memory.read, List.map_cons, List.mem_cons]
    split
    · next h => simp [h]
    · next h => rw [ih]; simp [Ne.symm h]

/-- A buffer whose written cells are exactly 0 to 255 is full. -/
theorem Memory.full_of_keys {m : Memory} (hm : m.map Prod.fst = List.range 256) : Memory.full m = true := by
  simp only [Memory.full, List.all_eq_true, Memory.read_isSome_iff, hm]
  exact fun _ h => h

theorem Memory.full_iff (m : Memory) : Memory.full m = true ↔ ∀ k < 256, (Memory.read m k).isSome := by
  simp [Memory.full]

/-- The empty buffer has the canonical form: every context has it at reset. -/
theorem Memory.nil_wf : Memory.wf [] := ⟨List.Pairwise.nil, by simp⟩

end Sys2Proof.Machine
end

