-- ==== Sys2Proof/Laws/State.lean ====
section
/-! SUPPORT. One lemma per field per update of the state, so that no later proof unfolds a record update. -/

namespace Sys2Proof.Machine

/-! ### `State.update` -/

@[simp] theorem State.update_cfg (s : State) (f : Context → Context) : (s.update f).cfg = s.cfg := rfl

@[simp] theorem State.update_locks (s : State) (f : Context → Context) : (s.update f).locks = s.locks := rfl

@[simp] theorem State.update_ataOwner (s : State) (f : Context → Context) : (s.update f).ataOwner = s.ataOwner := rfl

@[simp] theorem State.update_pciOwner (s : State) (f : Context → Context) : (s.update f).pciOwner = s.pciOwner := rfl

@[simp] theorem State.update_irqAckCount (s : State) (f : Context → Context) :
    (s.update f).irqAckCount = s.irqAckCount := rfl

@[simp] theorem State.update_log (s : State) (f : Context → Context) : (s.update f).log = s.log := rfl

@[simp] theorem State.update_trace (s : State) (f : Context → Context) : (s.update f).trace = s.trace := rfl

@[simp] theorem State.update_ctxs (s : State) (f : Context → Context) :
    (s.update f).ctxs = s.ctxs.modify s.active f := rfl

@[simp] theorem State.update_active (s : State) (f : Context → Context) : (s.update f).active = s.active := rfl

@[simp] theorem State.update_agenda (s : State) (f : Context → Context) : (s.update f).agenda = s.agenda := rfl

@[simp] theorem State.update_answers (s : State) (f : Context → Context) : (s.update f).answers = s.answers := rfl

@[simp] theorem State.update_draws (s : State) (f : Context → Context) : (s.update f).draws = s.draws := rfl

@[simp] theorem State.update_hostReads (s : State) (f : Context → Context) :
    (s.update f).hostReads = s.hostReads := rfl

/-! ### `State.dropAnswer` -/

@[simp] theorem State.dropAnswer_cfg (s : State) : s.dropAnswer.cfg = s.cfg := rfl

@[simp] theorem State.dropAnswer_locks (s : State) : s.dropAnswer.locks = s.locks := rfl

@[simp] theorem State.dropAnswer_ataOwner (s : State) : s.dropAnswer.ataOwner = s.ataOwner := rfl

@[simp] theorem State.dropAnswer_pciOwner (s : State) : s.dropAnswer.pciOwner = s.pciOwner := rfl

@[simp] theorem State.dropAnswer_irqAckCount (s : State) : s.dropAnswer.irqAckCount = s.irqAckCount := rfl

@[simp] theorem State.dropAnswer_log (s : State) : s.dropAnswer.log = s.log := rfl

@[simp] theorem State.dropAnswer_trace (s : State) : s.dropAnswer.trace = s.trace := rfl

@[simp] theorem State.dropAnswer_ctxs (s : State) : s.dropAnswer.ctxs = s.ctxs := rfl

@[simp] theorem State.dropAnswer_active (s : State) : s.dropAnswer.active = s.active := rfl

@[simp] theorem State.dropAnswer_agenda (s : State) : s.dropAnswer.agenda = s.agenda := rfl

@[simp] theorem State.dropAnswer_answers (s : State) : s.dropAnswer.answers = s.answers.tail := rfl

@[simp] theorem State.dropAnswer_draws (s : State) :
    s.dropAnswer.draws = if s.answers.isEmpty then s.draws + 1 else s.draws := rfl

@[simp] theorem State.dropAnswer_hostReads (s : State) : s.dropAnswer.hostReads = s.hostReads := rfl

/-! ### `State.logEvent` -/

@[simp] theorem State.logEvent_cfg (s : State) (e : LogEvent) : (s.logEvent e).cfg = s.cfg := rfl

@[simp] theorem State.logEvent_locks (s : State) (e : LogEvent) : (s.logEvent e).locks = s.locks := rfl

@[simp] theorem State.logEvent_ataOwner (s : State) (e : LogEvent) : (s.logEvent e).ataOwner = s.ataOwner := rfl

@[simp] theorem State.logEvent_pciOwner (s : State) (e : LogEvent) : (s.logEvent e).pciOwner = s.pciOwner := rfl

@[simp] theorem State.logEvent_irqAckCount (s : State) (e : LogEvent) :
    (s.logEvent e).irqAckCount = s.irqAckCount := rfl

@[simp] theorem State.logEvent_log (s : State) (e : LogEvent) : (s.logEvent e).log = s.log ++ [e] := rfl

@[simp] theorem State.logEvent_trace (s : State) (e : LogEvent) : (s.logEvent e).trace = s.trace := rfl

@[simp] theorem State.logEvent_ctxs (s : State) (e : LogEvent) : (s.logEvent e).ctxs = s.ctxs := rfl

@[simp] theorem State.logEvent_active (s : State) (e : LogEvent) : (s.logEvent e).active = s.active := rfl

@[simp] theorem State.logEvent_agenda (s : State) (e : LogEvent) : (s.logEvent e).agenda = s.agenda := rfl

@[simp] theorem State.logEvent_answers (s : State) (e : LogEvent) : (s.logEvent e).answers = s.answers := rfl

@[simp] theorem State.logEvent_draws (s : State) (e : LogEvent) : (s.logEvent e).draws = s.draws := rfl

@[simp] theorem State.logEvent_hostReads (s : State) (e : LogEvent) : (s.logEvent e).hostReads = s.hostReads := rfl

/-! ### `State.record` -/

@[simp] theorem State.record_cfg (s : State) (e : BusEvent) : (s.record e).cfg = s.cfg := rfl

@[simp] theorem State.record_locks (s : State) (e : BusEvent) : (s.record e).locks = s.locks := rfl

@[simp] theorem State.record_ataOwner (s : State) (e : BusEvent) : (s.record e).ataOwner = s.ataOwner := rfl

@[simp] theorem State.record_pciOwner (s : State) (e : BusEvent) : (s.record e).pciOwner = s.pciOwner := rfl

@[simp] theorem State.record_irqAckCount (s : State) (e : BusEvent) : (s.record e).irqAckCount = s.irqAckCount := rfl

@[simp] theorem State.record_log (s : State) (e : BusEvent) : (s.record e).log = s.log := rfl

@[simp] theorem State.record_trace (s : State) (e : BusEvent) : (s.record e).trace = s.trace ++ [e] := rfl

@[simp] theorem State.record_ctxs (s : State) (e : BusEvent) : (s.record e).ctxs = s.ctxs := rfl

@[simp] theorem State.record_active (s : State) (e : BusEvent) : (s.record e).active = s.active := rfl

@[simp] theorem State.record_agenda (s : State) (e : BusEvent) : (s.record e).agenda = s.agenda := rfl

@[simp] theorem State.record_answers (s : State) (e : BusEvent) : (s.record e).answers = s.answers := rfl

@[simp] theorem State.record_draws (s : State) (e : BusEvent) : (s.record e).draws = s.draws := rfl

@[simp] theorem State.record_hostReads (s : State) (e : BusEvent) : (s.record e).hostReads = s.hostReads := rfl

/-! ### `State.claim` -/

@[simp] theorem State.claim_cfg (s : State) (i : Instr) : (s.claim i).cfg = s.cfg := rfl

@[simp] theorem State.claim_locks (s : State) (i : Instr) : (s.claim i).locks = s.locks := rfl

@[simp] theorem State.claim_ataOwner (s : State) (i : Instr) :
    (s.claim i).ataOwner = if s.cfg.busLock = true ∧ i.busClass = .ata then some s.active else s.ataOwner := rfl

@[simp] theorem State.claim_pciOwner (s : State) (i : Instr) :
    (s.claim i).pciOwner = if s.cfg.busLock = true ∧ i.busClass = .pci then some s.active else s.pciOwner := rfl

@[simp] theorem State.claim_irqAckCount (s : State) (i : Instr) : (s.claim i).irqAckCount = s.irqAckCount := rfl

@[simp] theorem State.claim_log (s : State) (i : Instr) : (s.claim i).log = s.log := rfl

@[simp] theorem State.claim_trace (s : State) (i : Instr) : (s.claim i).trace = s.trace := rfl

@[simp] theorem State.claim_ctxs (s : State) (i : Instr) : (s.claim i).ctxs = s.ctxs := rfl

@[simp] theorem State.claim_active (s : State) (i : Instr) : (s.claim i).active = s.active := rfl

@[simp] theorem State.claim_agenda (s : State) (i : Instr) : (s.claim i).agenda = s.agenda := rfl

@[simp] theorem State.claim_answers (s : State) (i : Instr) : (s.claim i).answers = s.answers := rfl

@[simp] theorem State.claim_draws (s : State) (i : Instr) : (s.claim i).draws = s.draws := rfl

@[simp] theorem State.claim_hostReads (s : State) (i : Instr) : (s.claim i).hostReads = s.hostReads := rfl

/-! ### `State.acquire` -/

@[simp] theorem State.acquire_cfg (s : State) (h : Handle) : (s.acquire h).cfg = s.cfg := rfl

@[simp] theorem State.acquire_locks (s : State) (h : Handle) : (s.acquire h).locks = h :: s.locks := rfl

@[simp] theorem State.acquire_ataOwner (s : State) (h : Handle) : (s.acquire h).ataOwner = s.ataOwner := rfl

@[simp] theorem State.acquire_pciOwner (s : State) (h : Handle) : (s.acquire h).pciOwner = s.pciOwner := rfl

@[simp] theorem State.acquire_irqAckCount (s : State) (h : Handle) : (s.acquire h).irqAckCount = s.irqAckCount := rfl

@[simp] theorem State.acquire_log (s : State) (h : Handle) : (s.acquire h).log = s.log := rfl

@[simp] theorem State.acquire_trace (s : State) (h : Handle) : (s.acquire h).trace = s.trace := rfl

@[simp] theorem State.acquire_ctxs (s : State) (h : Handle) : (s.acquire h).ctxs = s.ctxs := rfl

@[simp] theorem State.acquire_active (s : State) (h : Handle) : (s.acquire h).active = s.active := rfl

@[simp] theorem State.acquire_agenda (s : State) (h : Handle) : (s.acquire h).agenda = s.agenda := rfl

@[simp] theorem State.acquire_answers (s : State) (h : Handle) : (s.acquire h).answers = s.answers := rfl

@[simp] theorem State.acquire_draws (s : State) (h : Handle) : (s.acquire h).draws = s.draws := rfl

@[simp] theorem State.acquire_hostReads (s : State) (h : Handle) : (s.acquire h).hostReads = s.hostReads := rfl

/-! ### `State.release` -/

@[simp] theorem State.release_cfg (s : State) (h : Handle) : (s.release h).cfg = s.cfg := rfl

@[simp] theorem State.release_locks (s : State) (h : Handle) : (s.release h).locks = s.locks.erase h := rfl

@[simp] theorem State.release_ataOwner (s : State) (h : Handle) : (s.release h).ataOwner = s.ataOwner := rfl

@[simp] theorem State.release_pciOwner (s : State) (h : Handle) : (s.release h).pciOwner = s.pciOwner := rfl

@[simp] theorem State.release_irqAckCount (s : State) (h : Handle) : (s.release h).irqAckCount = s.irqAckCount := rfl

@[simp] theorem State.release_log (s : State) (h : Handle) : (s.release h).log = s.log := rfl

@[simp] theorem State.release_trace (s : State) (h : Handle) : (s.release h).trace = s.trace := rfl

@[simp] theorem State.release_ctxs (s : State) (h : Handle) : (s.release h).ctxs = s.ctxs := rfl

@[simp] theorem State.release_active (s : State) (h : Handle) : (s.release h).active = s.active := rfl

@[simp] theorem State.release_agenda (s : State) (h : Handle) : (s.release h).agenda = s.agenda := rfl

@[simp] theorem State.release_answers (s : State) (h : Handle) : (s.release h).answers = s.answers := rfl

@[simp] theorem State.release_draws (s : State) (h : Handle) : (s.release h).draws = s.draws := rfl

@[simp] theorem State.release_hostReads (s : State) (h : Handle) : (s.release h).hostReads = s.hostReads := rfl

/-! ### `State.busRead` -/

@[simp] theorem State.busRead_cfg (s : State) (i : Instr) (h : Handle) : (s.busRead i h).cfg = s.cfg := rfl

@[simp] theorem State.busRead_locks (s : State) (i : Instr) (h : Handle) :
    (s.busRead i h).locks = s.locks := by
  simp [State.busRead, State.release, State.record, State.dropAnswer, State.acquire, State.claim]

@[simp] theorem State.busRead_ataOwner (s : State) (i : Instr) (h : Handle) :
    (s.busRead i h).ataOwner = (s.claim i).ataOwner := rfl

@[simp] theorem State.busRead_pciOwner (s : State) (i : Instr) (h : Handle) :
    (s.busRead i h).pciOwner = (s.claim i).pciOwner := rfl

@[simp] theorem State.busRead_irqAckCount (s : State) (i : Instr) (h : Handle) :
    (s.busRead i h).irqAckCount = s.irqAckCount := rfl

@[simp] theorem State.busRead_log (s : State) (i : Instr) (h : Handle) : (s.busRead i h).log = s.log := rfl

@[simp] theorem State.busRead_trace (s : State) (i : Instr) (h : Handle) :
    (s.busRead i h).trace = s.trace ++ [⟨s.active, .read, h.addr, h.width, s.readValue h⟩] := rfl

@[simp] theorem State.busRead_ctxs (s : State) (i : Instr) (h : Handle) : (s.busRead i h).ctxs = s.ctxs := rfl

@[simp] theorem State.busRead_active (s : State) (i : Instr) (h : Handle) : (s.busRead i h).active = s.active := rfl

@[simp] theorem State.busRead_agenda (s : State) (i : Instr) (h : Handle) : (s.busRead i h).agenda = s.agenda := rfl

@[simp] theorem State.busRead_answers (s : State) (i : Instr) (h : Handle) :
    (s.busRead i h).answers = s.answers.tail := rfl

@[simp] theorem State.busRead_draws (s : State) (i : Instr) (h : Handle) :
    (s.busRead i h).draws = if s.answers.isEmpty then s.draws + 1 else s.draws := rfl

@[simp] theorem State.busRead_hostReads (s : State) (i : Instr) (h : Handle) :
    (s.busRead i h).hostReads = s.hostReads := rfl

/-! ### `State.busWrite` -/

@[simp] theorem State.busWrite_cfg (s : State) (i : Instr) (h : Handle) (v : Word) :
    (s.busWrite i h v).cfg = s.cfg := rfl

@[simp] theorem State.busWrite_locks (s : State) (i : Instr) (h : Handle) (v : Word) :
    (s.busWrite i h v).locks = s.locks := by
  simp [State.busWrite, State.release, State.record, State.acquire, State.claim]

@[simp] theorem State.busWrite_ataOwner (s : State) (i : Instr) (h : Handle) (v : Word) :
    (s.busWrite i h v).ataOwner = (s.claim i).ataOwner := rfl

@[simp] theorem State.busWrite_pciOwner (s : State) (i : Instr) (h : Handle) (v : Word) :
    (s.busWrite i h v).pciOwner = (s.claim i).pciOwner := rfl

@[simp] theorem State.busWrite_irqAckCount (s : State) (i : Instr) (h : Handle) (v : Word) :
    (s.busWrite i h v).irqAckCount = s.irqAckCount := rfl

@[simp] theorem State.busWrite_log (s : State) (i : Instr) (h : Handle) (v : Word) :
    (s.busWrite i h v).log = s.log := rfl

@[simp] theorem State.busWrite_trace (s : State) (i : Instr) (h : Handle) (v : Word) :
    (s.busWrite i h v).trace = s.trace ++ [⟨s.active, .write, h.addr, h.width, h.width.carry v⟩] := rfl

@[simp] theorem State.busWrite_ctxs (s : State) (i : Instr) (h : Handle) (v : Word) :
    (s.busWrite i h v).ctxs = s.ctxs := rfl

@[simp] theorem State.busWrite_active (s : State) (i : Instr) (h : Handle) (v : Word) :
    (s.busWrite i h v).active = s.active := rfl

@[simp] theorem State.busWrite_agenda (s : State) (i : Instr) (h : Handle) (v : Word) :
    (s.busWrite i h v).agenda = s.agenda := rfl

@[simp] theorem State.busWrite_answers (s : State) (i : Instr) (h : Handle) (v : Word) :
    (s.busWrite i h v).answers = s.answers := rfl

@[simp] theorem State.busWrite_draws (s : State) (i : Instr) (h : Handle) (v : Word) :
    (s.busWrite i h v).draws = s.draws := rfl

@[simp] theorem State.busWrite_hostReads (s : State) (i : Instr) (h : Handle) (v : Word) :
    (s.busWrite i h v).hostReads = s.hostReads := rfl

/-! ### `State.complete` -/

@[simp] theorem State.complete_cfg (s : State) (o : OutcomeCode) : (s.complete o).cfg = s.cfg := rfl

@[simp] theorem State.complete_locks (s : State) (o : OutcomeCode) : (s.complete o).locks = s.locks := rfl

@[simp] theorem State.complete_ataOwner (s : State) (o : OutcomeCode) :
    (s.complete o).ataOwner = if s.cfg.busLock = true ∧ s.ataOwner = some s.active then none else s.ataOwner := rfl

@[simp] theorem State.complete_pciOwner (s : State) (o : OutcomeCode) :
    (s.complete o).pciOwner = if s.cfg.busLock = true ∧ s.pciOwner = some s.active then none else s.pciOwner := rfl

@[simp] theorem State.complete_irqAckCount (s : State) (o : OutcomeCode) :
    (s.complete o).irqAckCount = s.irqAckCount := rfl

@[simp] theorem State.complete_log (s : State) (o : OutcomeCode) : (s.complete o).log = s.log := rfl

@[simp] theorem State.complete_trace (s : State) (o : OutcomeCode) : (s.complete o).trace = s.trace := rfl

@[simp] theorem State.complete_ctxs (s : State) (o : OutcomeCode) :
    (s.complete o).ctxs = s.ctxs.modify s.active (Context.completed o) := rfl

@[simp] theorem State.complete_active (s : State) (o : OutcomeCode) : (s.complete o).active = s.active := rfl

@[simp] theorem State.complete_agenda (s : State) (o : OutcomeCode) : (s.complete o).agenda = s.agenda := rfl

@[simp] theorem State.complete_answers (s : State) (o : OutcomeCode) : (s.complete o).answers = s.answers := rfl

@[simp] theorem State.complete_draws (s : State) (o : OutcomeCode) : (s.complete o).draws = s.draws := rfl

@[simp] theorem State.complete_hostReads (s : State) (o : OutcomeCode) : (s.complete o).hostReads = s.hostReads := rfl

/-! ### `State.finish` -/

@[simp] theorem State.finish_cfg (s : State) (v : Word) (o : OutcomeCode) : (s.finish v o).cfg = s.cfg := rfl

@[simp] theorem State.finish_locks (s : State) (v : Word) (o : OutcomeCode) : (s.finish v o).locks = s.locks := rfl

@[simp] theorem State.finish_ataOwner (s : State) (v : Word) (o : OutcomeCode) :
    (s.finish v o).ataOwner = (s.complete o).ataOwner := rfl

@[simp] theorem State.finish_pciOwner (s : State) (v : Word) (o : OutcomeCode) :
    (s.finish v o).pciOwner = (s.complete o).pciOwner := rfl

@[simp] theorem State.finish_irqAckCount (s : State) (v : Word) (o : OutcomeCode) :
    (s.finish v o).irqAckCount = s.irqAckCount := rfl

@[simp] theorem State.finish_log (s : State) (v : Word) (o : OutcomeCode) : (s.finish v o).log = s.log := rfl

@[simp] theorem State.finish_trace (s : State) (v : Word) (o : OutcomeCode) : (s.finish v o).trace = s.trace := rfl

@[simp] theorem State.finish_ctxs (s : State) (v : Word) (o : OutcomeCode) :
    (s.finish v o).ctxs = s.ctxs.modify s.active fun c => Context.completed o { c with result := v } := by
  simp [State.finish, State.update, State.complete, List.modify_modify_eq, Function.comp_def]

@[simp] theorem State.finish_active (s : State) (v : Word) (o : OutcomeCode) : (s.finish v o).active = s.active := rfl

@[simp] theorem State.finish_agenda (s : State) (v : Word) (o : OutcomeCode) : (s.finish v o).agenda = s.agenda := rfl

@[simp] theorem State.finish_answers (s : State) (v : Word) (o : OutcomeCode) :
    (s.finish v o).answers = s.answers := rfl

@[simp] theorem State.finish_draws (s : State) (v : Word) (o : OutcomeCode) : (s.finish v o).draws = s.draws := rfl

@[simp] theorem State.finish_hostReads (s : State) (v : Word) (o : OutcomeCode) :
    (s.finish v o).hostReads = s.hostReads := rfl

/-! ### `State.issue` -/

@[simp] theorem State.issue_cfg (s : State) (i : Instr) : (s.issue i).cfg = s.cfg := rfl

@[simp] theorem State.issue_locks (s : State) (i : Instr) : (s.issue i).locks = s.locks := rfl

@[simp] theorem State.issue_ataOwner (s : State) (i : Instr) : (s.issue i).ataOwner = s.ataOwner := rfl

@[simp] theorem State.issue_pciOwner (s : State) (i : Instr) : (s.issue i).pciOwner = s.pciOwner := rfl

@[simp] theorem State.issue_irqAckCount (s : State) (i : Instr) : (s.issue i).irqAckCount = s.irqAckCount := rfl

@[simp] theorem State.issue_log (s : State) (i : Instr) : (s.issue i).log = s.log := rfl

@[simp] theorem State.issue_trace (s : State) (i : Instr) : (s.issue i).trace = s.trace := rfl

@[simp] theorem State.issue_ctxs (s : State) (i : Instr) :
    (s.issue i).ctxs = s.ctxs.modify s.active (Context.issued i) := rfl

@[simp] theorem State.issue_active (s : State) (i : Instr) : (s.issue i).active = s.active := rfl

@[simp] theorem State.issue_agenda (s : State) (i : Instr) : (s.issue i).agenda = s.agenda := rfl

@[simp] theorem State.issue_answers (s : State) (i : Instr) : (s.issue i).answers = s.answers := rfl

@[simp] theorem State.issue_draws (s : State) (i : Instr) : (s.issue i).draws = s.draws := rfl

@[simp] theorem State.issue_hostReads (s : State) (i : Instr) : (s.issue i).hostReads = s.hostReads := rfl

/-! ### `State.badCommand` -/

@[simp] theorem State.badCommand_cfg (s : State) : s.badCommand.cfg = s.cfg := rfl

@[simp] theorem State.badCommand_locks (s : State) : s.badCommand.locks = s.locks := rfl

@[simp] theorem State.badCommand_ataOwner (s : State) :
    s.badCommand.ataOwner = (s.complete .badCommand).ataOwner := rfl

@[simp] theorem State.badCommand_pciOwner (s : State) :
    s.badCommand.pciOwner = (s.complete .badCommand).pciOwner := rfl

@[simp] theorem State.badCommand_irqAckCount (s : State) : s.badCommand.irqAckCount = s.irqAckCount := rfl

@[simp] theorem State.badCommand_log (s : State) : s.badCommand.log = s.log := rfl

@[simp] theorem State.badCommand_trace (s : State) : s.badCommand.trace = s.trace := rfl

@[simp] theorem State.badCommand_ctxs (s : State) :
    s.badCommand.ctxs = s.ctxs.modify s.active fun c => Context.completed .badCommand { c.cleared with op := none } := by
  simp [State.badCommand, State.update, State.complete, List.modify_modify_eq, Function.comp_def]

@[simp] theorem State.badCommand_active (s : State) : s.badCommand.active = s.active := rfl

@[simp] theorem State.badCommand_agenda (s : State) : s.badCommand.agenda = s.agenda := rfl

@[simp] theorem State.badCommand_answers (s : State) : s.badCommand.answers = s.answers := rfl

@[simp] theorem State.badCommand_draws (s : State) : s.badCommand.draws = s.draws := rfl

@[simp] theorem State.badCommand_hostReads (s : State) : s.badCommand.hostReads = s.hostReads := rfl

/-! ### `State.overrun` -/

@[simp] theorem State.overrun_cfg (s : State) : s.overrun.cfg = s.cfg := rfl

@[simp] theorem State.overrun_locks (s : State) : s.overrun.locks = s.locks := rfl

@[simp] theorem State.overrun_ataOwner (s : State) : s.overrun.ataOwner = s.ataOwner := rfl

@[simp] theorem State.overrun_pciOwner (s : State) : s.overrun.pciOwner = s.pciOwner := rfl

@[simp] theorem State.overrun_irqAckCount (s : State) : s.overrun.irqAckCount = s.irqAckCount := rfl

@[simp] theorem State.overrun_log (s : State) : s.overrun.log = s.log := rfl

@[simp] theorem State.overrun_trace (s : State) : s.overrun.trace = s.trace := rfl

@[simp] theorem State.overrun_ctxs (s : State) :
    s.overrun.ctxs = s.ctxs.modify s.active fun c => { c with status := { c.status with overrun := true } } := rfl

@[simp] theorem State.overrun_active (s : State) : s.overrun.active = s.active := rfl

@[simp] theorem State.overrun_agenda (s : State) : s.overrun.agenda = s.agenda := rfl

@[simp] theorem State.overrun_answers (s : State) : s.overrun.answers = s.answers := rfl

@[simp] theorem State.overrun_draws (s : State) : s.overrun.draws = s.draws := rfl

@[simp] theorem State.overrun_hostReads (s : State) : s.overrun.hostReads = s.hostReads := rfl

/-! ### `State.takeIrq14` -/

@[simp] theorem State.takeIrq14_cfg (s : State) : s.takeIrq14.cfg = s.cfg := rfl

@[simp] theorem State.takeIrq14_locks (s : State) : s.takeIrq14.locks = s.locks := rfl

@[simp] theorem State.takeIrq14_ataOwner (s : State) : s.takeIrq14.ataOwner = s.ataOwner := rfl

@[simp] theorem State.takeIrq14_pciOwner (s : State) : s.takeIrq14.pciOwner = s.pciOwner := rfl

@[simp] theorem State.takeIrq14_irqAckCount (s : State) : s.takeIrq14.irqAckCount = s.irqAckCount + 1 := rfl

@[simp] theorem State.takeIrq14_log (s : State) : s.takeIrq14.log = s.log ++ [.irq14] := rfl

@[simp] theorem State.takeIrq14_trace (s : State) : s.takeIrq14.trace = s.trace := rfl

@[simp] theorem State.takeIrq14_ctxs (s : State) : s.takeIrq14.ctxs = s.ctxs := rfl

@[simp] theorem State.takeIrq14_active (s : State) : s.takeIrq14.active = s.active := rfl

@[simp] theorem State.takeIrq14_agenda (s : State) : s.takeIrq14.agenda = s.agenda := rfl

@[simp] theorem State.takeIrq14_answers (s : State) : s.takeIrq14.answers = s.answers := rfl

@[simp] theorem State.takeIrq14_draws (s : State) : s.takeIrq14.draws = s.draws := rfl

@[simp] theorem State.takeIrq14_hostReads (s : State) : s.takeIrq14.hostReads = s.hostReads := rfl

/-! ### `State.takeReset` -/

@[simp] theorem State.takeReset_cfg (s : State) : s.takeReset.cfg = s.cfg := rfl

@[simp] theorem State.takeReset_locks (s : State) : s.takeReset.locks = [] := rfl

@[simp] theorem State.takeReset_ataOwner (s : State) : s.takeReset.ataOwner = none := rfl

@[simp] theorem State.takeReset_pciOwner (s : State) : s.takeReset.pciOwner = none := rfl

@[simp] theorem State.takeReset_irqAckCount (s : State) : s.takeReset.irqAckCount = 0 := rfl

@[simp] theorem State.takeReset_log (s : State) : s.takeReset.log = s.log := rfl

@[simp] theorem State.takeReset_trace (s : State) : s.takeReset.trace = s.trace := rfl

@[simp] theorem State.takeReset_ctxs (s : State) : s.takeReset.ctxs = List.replicate s.ctxs.length .reset := rfl

@[simp] theorem State.takeReset_active (s : State) : s.takeReset.active = s.active := rfl

@[simp] theorem State.takeReset_agenda (s : State) : s.takeReset.agenda = s.agenda := rfl

@[simp] theorem State.takeReset_answers (s : State) : s.takeReset.answers = s.answers := rfl

@[simp] theorem State.takeReset_draws (s : State) : s.takeReset.draws = s.draws := rfl

@[simp] theorem State.takeReset_hostReads (s : State) : s.takeReset.hostReads = s.hostReads := rfl

/-! ### `State.dropEvent` -/

@[simp] theorem State.dropEvent_cfg (s : State) : s.dropEvent.cfg = s.cfg := rfl

@[simp] theorem State.dropEvent_locks (s : State) : s.dropEvent.locks = s.locks := rfl

@[simp] theorem State.dropEvent_ataOwner (s : State) : s.dropEvent.ataOwner = s.ataOwner := rfl

@[simp] theorem State.dropEvent_pciOwner (s : State) : s.dropEvent.pciOwner = s.pciOwner := rfl

@[simp] theorem State.dropEvent_irqAckCount (s : State) : s.dropEvent.irqAckCount = s.irqAckCount := rfl

@[simp] theorem State.dropEvent_log (s : State) : s.dropEvent.log = s.log := rfl

@[simp] theorem State.dropEvent_trace (s : State) : s.dropEvent.trace = s.trace := rfl

@[simp] theorem State.dropEvent_ctxs (s : State) : s.dropEvent.ctxs = s.ctxs := rfl

@[simp] theorem State.dropEvent_active (s : State) : s.dropEvent.active = s.active := rfl

@[simp] theorem State.dropEvent_agenda (s : State) : s.dropEvent.agenda = s.agenda.tail := rfl

@[simp] theorem State.dropEvent_answers (s : State) : s.dropEvent.answers = s.answers := rfl

@[simp] theorem State.dropEvent_draws (s : State) :
    s.dropEvent.draws = if s.agenda.isEmpty then s.draws + 1 else s.draws := rfl

@[simp] theorem State.dropEvent_hostReads (s : State) : s.dropEvent.hostReads = s.hostReads := rfl

/-! ### `State.select` -/

@[simp] theorem State.select_cfg (s : State) (c : Nat) : (s.select c).cfg = s.cfg := rfl

@[simp] theorem State.select_locks (s : State) (c : Nat) : (s.select c).locks = s.locks := rfl

@[simp] theorem State.select_ataOwner (s : State) (c : Nat) : (s.select c).ataOwner = s.ataOwner := rfl

@[simp] theorem State.select_pciOwner (s : State) (c : Nat) : (s.select c).pciOwner = s.pciOwner := rfl

@[simp] theorem State.select_irqAckCount (s : State) (c : Nat) : (s.select c).irqAckCount = s.irqAckCount := rfl

@[simp] theorem State.select_log (s : State) (c : Nat) : (s.select c).log = s.log := rfl

@[simp] theorem State.select_trace (s : State) (c : Nat) : (s.select c).trace = s.trace := rfl

@[simp] theorem State.select_ctxs (s : State) (c : Nat) : (s.select c).ctxs = s.ctxs := rfl

@[simp] theorem State.select_active (s : State) (c : Nat) : (s.select c).active = c := rfl

@[simp] theorem State.select_agenda (s : State) (c : Nat) : (s.select c).agenda = s.agenda := rfl

@[simp] theorem State.select_answers (s : State) (c : Nat) : (s.select c).answers = s.answers := rfl

@[simp] theorem State.select_draws (s : State) (c : Nat) : (s.select c).draws = s.draws := rfl

@[simp] theorem State.select_hostReads (s : State) (c : Nat) : (s.select c).hostReads = s.hostReads := rfl

/-! ### `State.hostRead` -/

@[simp] theorem State.hostRead_cfg (s : State) (off : Nat) : (s.hostRead off).cfg = s.cfg := rfl

@[simp] theorem State.hostRead_locks (s : State) (off : Nat) : (s.hostRead off).locks = s.locks := rfl

@[simp] theorem State.hostRead_ataOwner (s : State) (off : Nat) : (s.hostRead off).ataOwner = s.ataOwner := rfl

@[simp] theorem State.hostRead_pciOwner (s : State) (off : Nat) : (s.hostRead off).pciOwner = s.pciOwner := rfl

@[simp] theorem State.hostRead_irqAckCount (s : State) (off : Nat) :
    (s.hostRead off).irqAckCount = s.irqAckCount := rfl

@[simp] theorem State.hostRead_log (s : State) (off : Nat) : (s.hostRead off).log = s.log := rfl

@[simp] theorem State.hostRead_trace (s : State) (off : Nat) : (s.hostRead off).trace = s.trace := rfl

@[simp] theorem State.hostRead_ctxs (s : State) (off : Nat) : (s.hostRead off).ctxs = s.ctxs := rfl

@[simp] theorem State.hostRead_active (s : State) (off : Nat) : (s.hostRead off).active = s.active := rfl

@[simp] theorem State.hostRead_agenda (s : State) (off : Nat) : (s.hostRead off).agenda = s.agenda := rfl

@[simp] theorem State.hostRead_answers (s : State) (off : Nat) : (s.hostRead off).answers = s.answers := rfl

@[simp] theorem State.hostRead_draws (s : State) (off : Nat) :
    (s.hostRead off).draws = s.draws + (hostValue s off).cost := rfl

@[simp] theorem State.hostRead_hostReads (s : State) (off : Nat) :
    (s.hostRead off).hostReads = s.hostReads ++ [⟨off, (hostValue s off).resolve (Config.hostDraw s.draws)⟩] := rfl

end Sys2Proof.Machine
end

