-- ==== Sys2Proof/Laws/Ops.lean ====
section
/-! SUPPORT. What each shared operation can do, said once: the active context after an update, the owner registers, the two
forms of a bus transaction, one step of a command, a poll iteration. -/

namespace Sys2Proof.Machine

/-! ### The active context -/

@[simp] theorem State.current_update (s : State) (f : Context → Context) :
    (s.update f).current = s.current.map f := by
  simp [State.current]

/-- Updating the active context is setting it. -/
theorem State.modify_active {s : State} {c : Context} (hc : s.current = some c) (f : Context → Context) :
    s.ctxs.modify s.active f = s.ctxs.set s.active (f c) := by
  simp only [State.current] at hc
  rw [List.modify_eq_set_getElem?, hc]
  rfl

@[simp] theorem State.current_busRead (s : State) (i : Instr) (h : Handle) : (s.busRead i h).current = s.current := rfl

@[simp] theorem State.current_busWrite (s : State) (i : Instr) (h : Handle) (v : Word) :
    (s.busWrite i h v).current = s.current := rfl

@[simp] theorem State.current_logEvent (s : State) (e : LogEvent) : (s.logEvent e).current = s.current := rfl

/-- The current context is a member of the contexts. -/
theorem State.current_mem {s : State} {c : Context} (hc : s.current = some c) : c ∈ s.ctxs :=
  List.mem_of_getElem? hc

/-! ### Transactions -/

/-- A read by a context that may perform it. -/
theorem onRead_granted {i : Instr} {h : Handle} {s : State} (hg : s.granted i h = true)
    (k : Word → State → StepResult) : onRead i h s k = k (s.readValue h) (s.busRead i h) := by
  simp [onRead, hg]

/-- A write by a context that may perform it. -/
theorem onWrite_granted {i : Instr} {h : Handle} {s : State} (hg : s.granted i h = true) (v : Word)
    (k : State → StepResult) : onWrite i h v s k = k (s.busWrite i h v) := by
  simp [onWrite, hg]

/-- A context that may not perform its transaction waits: nothing changes. -/
theorem onRead_waits {i : Instr} {h : Handle} {s : State} (hg : s.granted i h = false)
    (k : Word → State → StepResult) : onRead i h s k = .next s := by
  simp [onRead, hg]

theorem onWrite_waits {i : Instr} {h : Handle} {s : State} (hg : s.granted i h = false) (v : Word)
    (k : State → StepResult) : onWrite i h v s k = .next s := by
  simp [onWrite, hg]

/-- When a transaction is granted, in the words of R170 and R172. -/
theorem State.granted_iff (s : State) (i : Instr) (h : Handle) :
    s.granted i h = true ↔
      h ∉ s.locks ∧ (s.cfg.busLock = true → s.owner i.busClass = none ∨ s.owner i.busClass = some s.active) := by
  simp only [State.granted, State.ownerAllows, Bool.and_eq_true, Bool.or_eq_true, Bool.not_eq_true',
    beq_iff_eq, List.contains_eq_mem, decide_eq_false_iff_not]
  cases s.cfg.busLock <;> simp [and_comm]

/-! ### One step of a command -/

/-- An idle context accepts a valid command. -/
theorem runCommand_idle {i : Instr} {s : State} {c : Context} (hc : s.current = some c) (hp : c.phase = .idle)
    (hw : i.wellFormed = true) (body : Context → StepResult) : runCommand i s body = .next (s.issue i) := by
  simp [runCommand, hc, hp, hw]

/-- An idle context completes an ill-formed command as BAD_COMMAND. -/
theorem runCommand_illFormed {i : Instr} {s : State} {c : Context} (hc : s.current = some c) (hp : c.phase = .idle)
    (hw : i.wellFormed = false) (body : Context → StepResult) : runCommand i s body = .next s.badCommand := by
  simp [runCommand, hc, hp, hw]

/-- A context with the command in flight goes on with it. -/
theorem runCommand_inFlight {i : Instr} {s : State} {c : Context} (hc : s.current = some c) (hp : c.phase ≠ .idle)
    (ho : c.op = some i) (body : Context → StepResult) : runCommand i s body = body c := by
  simp [runCommand, hc, hp, ho]

/-- A context busy with another command turns it away. -/
theorem runCommand_busy {i : Instr} {s : State} {c : Context} (hc : s.current = some c) (hp : c.phase ≠ .idle)
    (ho : c.op ≠ some i) (body : Context → StepResult) : runCommand i s body = .next s.overrun := by
  simp [runCommand, hc, hp, ho]

theorem runCommand_noContext {i : Instr} {s : State} (hc : s.current = none) (body : Context → StepResult) :
    runCommand i s body = .next s := by
  simp [runCommand, hc]

/-- Everything one step of a command can do. -/
theorem runCommand_cases {i : Instr} {s : State} {body : Context → StepResult} {r : StepResult}
    (h : runCommand i s body = r) :
    (s.current = none ∧ r = .next s) ∨
    (∃ c, s.current = some c ∧ c.phase = .idle ∧ i.wellFormed = true ∧ r = .next (s.issue i)) ∨
    (∃ c, s.current = some c ∧ c.phase = .idle ∧ i.wellFormed = false ∧ r = .next s.badCommand) ∨
    (∃ c, s.current = some c ∧ c.phase ≠ .idle ∧ c.op = some i ∧ r = body c) ∨
    (∃ c, s.current = some c ∧ c.phase ≠ .idle ∧ c.op ≠ some i ∧ r = .next s.overrun) := by
  cases hc : s.current with
  | none => exact .inl ⟨rfl, by rw [← h, runCommand_noContext hc]⟩
  | some c =>
    right
    by_cases hp : c.phase = .idle
    · cases hw : i.wellFormed with
      | true => exact .inl ⟨c, rfl, hp, rfl, by rw [← h, runCommand_idle hc hp hw]⟩
      | false => exact .inr (.inl ⟨c, rfl, hp, rfl, by rw [← h, runCommand_illFormed hc hp hw]⟩)
    · by_cases ho : c.op = some i
      · exact .inr (.inr (.inl ⟨c, rfl, hp, ho, by rw [← h, runCommand_inFlight hc hp ho]⟩))
      · exact .inr (.inr (.inr ⟨c, rfl, hp, ho, by rw [← h, runCommand_busy hc hp ho]⟩))

/-! ### A poll iteration (R191) -/

/-- The condition holds: the poll is left. -/
theorem State.pollStep_holds {s : State} {c : Context} {cond : PollCond} {p : Phase} {v : Byte}
    (h : cond.holds v = true) :
    s.pollStep c cond p v =
      ((s.update (Context.polled v)).logEvent (.poll s.active cond (countRead c.iter) v)).update (Context.goTo p) := by
  simp [State.pollStep, h]

/-- The condition fails at the limit: TIMEOUT. -/
theorem State.pollStep_timeout {s : State} {c : Context} {cond : PollCond} {p : Phase} {v : Byte}
    (h : cond.holds v = false) (hl : limitReached s.cfg.pollLimit (countRead c.iter) = true) :
    s.pollStep c cond p v =
      ((s.update (Context.polled v)).logEvent (.poll s.active cond (countRead c.iter) v)).finish (zext32 v) .timeout := by
  simp [State.pollStep, h, hl]

/-- The condition fails below the limit: another iteration. -/
theorem State.pollStep_again {s : State} {c : Context} {cond : PollCond} {p : Phase} {v : Byte}
    (h : cond.holds v = false) (hl : limitReached s.cfg.pollLimit (countRead c.iter) = false) :
    s.pollStep c cond p v =
      (s.update (Context.polled v)).logEvent (.poll s.active cond (countRead c.iter) v) := by
  simp [State.pollStep, h, hl]

/-! ### The commands, as cases of `runCommand` -/

/-- A meaning that is one step of `runCommand` unfolds by this name. -/
theorem exec_portRead (h : Handle) (s : State) : exec (.portRead h) s = execPortRead h s := rfl

theorem exec_portWrite (h : Handle) (d : Word) (s : State) : exec (.portWrite h d) s = execPortWrite h d s := rfl

theorem exec_pciCfgRead (b sl f o : Byte) (s : State) : exec (.pciCfgRead b sl f o) s = execPciCfgRead b sl f o s := rfl

theorem exec_ataIdentify (d : Drive) (s : State) : exec (.ataIdentify d) s = execAtaIdentify d s := rfl

theorem exec_ataReadSector (l : Word) (s : State) : exec (.ataReadSector l) s = execAtaReadSector l s := rfl

/-- Every command, on an idle context, is its accepted GO. -/
theorem exec_idle {i : Instr} {s : State} {c : Context} (hc : s.current = some c) (hp : c.phase = .idle)
    (hw : i.wellFormed = true) : exec i s = .next (s.issue i) := by
  cases i <;> exact runCommand_idle hc hp hw _

/-- Every command, on a context busy with another, is turned away. -/
theorem exec_busy {i : Instr} {s : State} {c : Context} (hc : s.current = some c) (hp : c.phase ≠ .idle)
    (ho : c.op ≠ some i) : exec i s = .next s.overrun := by
  cases i <;> exact runCommand_busy hc hp ho _

end Sys2Proof.Machine
end

