-- ==== Sys2Proof/Laws/Invariant.lean ====
section
/-! SUPPORT. What keeps a context well-formed: the updates the transactions make of their context, one lemma each. -/

namespace Sys2Proof.Machine

/-- The registers no clause of the invariant but `sigTop` looks at. -/
theorem Context.Inv.setRegisters {c : Context} (hc : c.Inv) {sig : Word} (hs : sig.extractLsb' 24 8 = 0)
    (cmd0 cmd1 iter : Word) (last : Option Byte) (overrun absentSeen notAtaSeen : Bool) :
    Context.Inv { c with
      cmd0 := cmd0
      cmd1 := cmd1
      sig := sig
      iter := iter
      last := last
      status := { c.status with overrun := overrun, absentSeen := absentSeen, notAtaSeen := notAtaSeen } } :=
  ⟨hc.busyIffInFlight, hc.inFlight, hc.doneIffOutcome, hc.busyNotDone, hs, hc.bufWf, hc.dataCells, hc.idxZero, hc.bufFresh,
    hc.infoFresh, hc.badCommandNoOp, hc.okFull, hc.timeoutEmpty, hc.infoDecodes⟩

/-- A step to the next phase of the command, from a phase that is no data phase. -/
theorem Context.Inv.goTo {c : Context} (hc : c.Inv) {i : Instr} (ho : c.op = some i) (hp : c.phase ≠ .idle)
    {q : Phase} (hq : q ∈ phasesOf i) (hqi : q ≠ .idle) (hd : c.phase ∉ dataPhases)
    (hs : q ∈ setupPhases ∨ q ∈ dataPhases → c.phase ∈ setupPhases) :
    Context.Inv { c with phase := q } := by
  refine ⟨by simpa [hqi, hp] using hc.busyIffInFlight, fun _ => ⟨i, ho, ?_, hq⟩, hc.doneIffOutcome, hc.busyNotDone,
    hc.sigTop, hc.bufWf, fun h => ?_, fun _ => hc.idxZero hd, fun h => hc.bufFresh (hs (.inl h)),
    fun d h _ => hc.infoFresh d h hp, hc.badCommandNoOp, hc.okFull, hc.timeoutEmpty, hc.infoDecodes⟩
  · obtain ⟨j, hj, hw, -⟩ := hc.inFlight hp
    rw [ho] at hj
    cases hj
    exact hw
  · simp [hc.idxZero hd, hc.bufFresh (hs (.inr h))]

/-- A completion of the command in flight, other than the last step of a data phase. -/
theorem Context.Inv.complete {c : Context} (hc : c.Inv) {i : Instr} (ho : c.op = some i) (v : Word) {o : OutcomeCode}
    (hn : o ≠ .noneYet) (hb : o ≠ .badCommand)
    (hok : usesBuffer i = true → o = .ok → c.buf.map Prod.fst = List.range 256) (hto : o = .timeout → c.buf = []) :
    Context.Inv (Context.completed o { c with result := v }) := by
  refine ⟨by simp [Context.completed, Status.completed], by simp [Context.completed],
    by simp [Context.completed, Status.completed, hn], by simp [Context.completed, Status.completed], hc.sigTop, hc.bufWf,
    by simp [Context.completed, dataPhases], by simp [Context.completed], by simp [Context.completed, setupPhases],
    by simp [Context.completed], fun h => absurd h hb, fun j hj hu h => ?_, hto, hc.infoDecodes⟩
  simp only [Context.completed] at hj
  rw [ho] at hj
  cases hj
  exact hok hu h

/-- A data word before the last. -/
theorem Context.Inv.storeWord {c : Context} (hc : c.Inv) (hp : c.phase ∈ dataPhases) (hi : c.idx < 255) (v : Half) :
    (Context.storeWord c.idx v c).Inv := by
  have hidle : c.phase ≠ .idle := by
    intro h
    simp [h, dataPhases] at hp
  have hset : c.phase ∉ setupPhases := by
    revert hp
    cases c.phase <;> decide
  have hbusy := hc.busyIffInFlight
  simp only [hidle, ne_eq, not_false_eq_true, decide_true] at hbusy
  have hout := hc.doneIffOutcome
  rw [hc.busyNotDone hbusy] at hout
  replace hout : c.status.outcome = .noneYet := by simpa using hout
  refine ⟨hc.busyIffInFlight, hc.inFlight, hc.doneIffOutcome, hc.busyNotDone, hc.sigTop,
    Memory.write_wf hc.bufWf v (by omega),
    fun _ => ⟨by simp only [Context.storeWord]; omega, Memory.keys_write_range (hc.dataCells hp).2 v⟩,
    fun h => absurd hp h, fun h => absurd h hset, hc.infoFresh, hc.badCommandNoOp, ?_, ?_, ?_⟩
  · intro i _ _ h
    simp [Context.storeWord, hout] at h
  · intro h
    simp [Context.storeWord, hout] at h
  · intro d r h1 h2
    simp [Context.storeWord, hc.infoFresh d h1 hidle] at h2

/-- The last data word and the completion with it. -/
theorem Context.Inv.lastWord {c : Context} (hc : c.Inv) (hp : c.phase ∈ dataPhases) (hi : c.idx = 255) (w : Half)
    (v : Word) {o : OutcomeCode} (hn : o ≠ .noneYet) (hb : o ≠ .badCommand) (hto : o ≠ .timeout)
    {info : Option DeviceInfo}
    (hinfo : info = c.info ∨ info = some (decodeInfo (Memory.word (Memory.write c.buf 255 w)))) :
    Context.Inv (Context.completed o { c with buf := Memory.write c.buf 255 w, info := info, result := v }) := by
  have keys := Memory.keys_write_range (hc.dataCells hp).2 w
  rw [hi] at keys
  have hidle : c.phase ≠ .idle := by
    intro h
    simp [h, dataPhases] at hp
  refine ⟨by simp [Context.completed, Status.completed], by simp [Context.completed],
    by simp [Context.completed, Status.completed, hn], by simp [Context.completed, Status.completed], hc.sigTop,
    Memory.write_wf hc.bufWf w (by omega), by simp [Context.completed, dataPhases], by simp [Context.completed],
    by simp [Context.completed, setupPhases], by simp [Context.completed], fun h => absurd h hb, fun _ _ _ _ => keys,
    fun h => absurd h hto, fun d r h1 h2 => ⟨keys, ?_⟩⟩
  simp only [Context.completed] at h1 h2
  rcases hinfo with h | h
  · rw [h, hc.infoFresh d h1 hidle] at h2
    cases h2
  · rw [h] at h2
    cases h2
    rfl

/-- An accepted command. -/
theorem Context.Inv.issued {c : Context} (hc : c.Inv) {i : Instr} (hw : i.wellFormed = true) :
    (Context.issued i c).Inv := by
  cases i <;> refine ⟨by simp [Context.issued, firstPhase],
    fun _ => ⟨_, rfl, hw, by simp [Context.issued, firstPhase, phasesOf]⟩, by simp [Context.issued, Status.cleared],
    by simp [Context.issued, Status.cleared], by simp [Context.issued, Context.cleared], ?_,
    by simp [Context.issued, firstPhase, dataPhases], by simp [Context.issued, Context.cleared], ?_, ?_,
    by simp [Context.issued, Status.cleared], by simp [Context.issued, Status.cleared],
    by simp [Context.issued, Status.cleared], ?_⟩ <;>
  first
  | exact hc.bufWf
  | exact Memory.nil_wf
  | simp [Context.issued, bufAtIssue, infoAtIssue, firstPhase, setupPhases]

/-- A context at reset. -/
theorem Context.reset_inv : Context.Inv .reset :=
  ⟨by decide, fun h => absurd rfl h, by decide, by decide, by decide, Memory.nil_wf,
    fun h => by simp [Context.reset, dataPhases] at h, fun _ => rfl, fun _ => rfl, (fun d h => by cases h),
    (fun h => by cases h), (fun i h => by cases h), fun _ => rfl, (fun d r h => by cases h)⟩

/-- What only touches the environment's side, the counts and the log keeps the state well-formed. -/
theorem State.Inv.of_same {s u : State} (hs : s.Inv) (hcfg : u.cfg = s.cfg) (hlocks : u.locks = s.locks)
    (hctxs : u.ctxs = s.ctxs) (hata : u.ataOwner = s.ataOwner) (hpci : u.pciOwner = s.pciOwner) : u.Inv := by
  have howner : ∀ k, u.owner k = s.owner k := by
    intro k
    cases k <;> simp [State.owner, hata, hpci]
  refine ⟨by rw [hcfg]; exact hs.cfgWf, by rw [hcfg, hctxs]; exact hs.contexts, by rw [hlocks]; exact hs.locksFree,
    by rw [hctxs]; exact hs.contextInv, ?_, ?_, ?_⟩
  · rw [hcfg]
    exact fun h k => by rw [howner]; exact hs.ownersAbsent h k
  · rw [hctxs]
    exact fun k n h => hs.ownerStarted k n (by rw [← howner]; exact h)
  · rw [hcfg, hctxs]
    exact fun h k n c hc hst => by rw [howner]; exact hs.startedOwns h k n c hc hst

end Sys2Proof.Machine
end

