-- ==== Sys2Proof/Laws/PerInstr.lean ====
section
/-! SUPPORT. Facts about every command as syntax, one lemma per constructor of `Instr`. The family `EncodeRow` says that a
command's encoding matches its row of the opcode table (30_encoding.md R115). -/

namespace Sys2Proof.Laws

/-- The row of R115's table that carries a command's mnemonic. -/
def rowOf (i : Instr) : Option OpcodeRow := opcodeRows.find? fun r => r.mnemonic == i.mnemonic

/-- The command's encoding, under its row's mask, is its row's match. -/
def EncodeRow.Statement (i : Instr) : Prop := (rowOf i).map (fun r => r.selects (encode i)) = some true

theorem EncodeRow.portRead (h : Handle) : EncodeRow.Statement (.portRead h) := by
  unfold EncodeRow.Statement
  cases h <;> decide

theorem EncodeRow.portWrite (h : Handle) (data : Word) : EncodeRow.Statement (.portWrite h data) := by
  have masked : (0#16 ++ data ++ 0#4 ++ h.index ++ 0x02#8) &&& (0xFFFF#16 ++ 0#32 ++ 0xF#4 ++ 0#4 ++ 0xFF#8)
      = 0#16 ++ 0#32 ++ 0#4 ++ 0#4 ++ 0x02#8 := by
    rw [BitVec.and_append, BitVec.and_append, BitVec.and_append, BitVec.and_append]
    simp
  have row : rowOf (.portWrite h data) = some ⟨"PORT_WRITE", 0xFFFF00000000F0FF, 0x0000000000000002⟩ := by rfl
  simp only [EncodeRow.Statement, row, Option.map_some, Option.some.injEq, OpcodeRow.selects, beq_iff_eq]
  exact masked

theorem EncodeRow.pciCfgRead (bus slot func off : Byte) : EncodeRow.Statement (.pciCfgRead bus slot func off) := by
  have masked : (0#24 ++ off ++ func ++ slot ++ bus ++ 0x10#8) &&& (0xFFFFFF#24 ++ 0#8 ++ 0#8 ++ 0#8 ++ 0#8 ++ 0xFF#8)
      = 0#24 ++ 0#8 ++ 0#8 ++ 0#8 ++ 0#8 ++ 0x10#8 := by
    rw [BitVec.and_append, BitVec.and_append, BitVec.and_append, BitVec.and_append, BitVec.and_append]
    simp
  have row : rowOf (.pciCfgRead bus slot func off) = some ⟨"PCI_CFG_READ", 0xFFFFFF00000000FF, 0x0000000000000010⟩ := by
    rfl
  simp only [EncodeRow.Statement, row, Option.map_some, Option.some.injEq, OpcodeRow.selects, beq_iff_eq]
  exact masked

theorem EncodeRow.ataIdentify (d : Drive) : EncodeRow.Statement (.ataIdentify d) := by
  unfold EncodeRow.Statement
  cases d <;> decide

theorem EncodeRow.ataReadSector (lba : Word) : EncodeRow.Statement (.ataReadSector lba) := by
  have masked : (0#16 ++ lba ++ 0#8 ++ 0x21#8) &&& (0xFFFF#16 ++ 0#32 ++ 0xFF#8 ++ 0xFF#8)
      = 0#16 ++ 0#32 ++ 0#8 ++ 0x21#8 := by
    rw [BitVec.and_append, BitVec.and_append, BitVec.and_append]
    simp
  have row : rowOf (.ataReadSector lba) = some ⟨"ATA_READ_SECTOR", 0xFFFF00000000FFFF, 0x0000000000000021⟩ := by rfl
  simp only [EncodeRow.Statement, row, Option.map_some, Option.some.injEq, OpcodeRow.selects, beq_iff_eq]
  exact masked

end Sys2Proof.Laws
end

