-- ==== Sys2Proof/Laws/Results.lean ====
section
/-! SUPPORT. The shared operations in the words of the statements: one bus transaction and what follows it, as the states
`afterRead` and `afterWrite` of `Sys2Proof.Spec`. -/

namespace Sys2Proof.Laws

open Sys2Proof.Machine Sys2Proof.Spec

/-- A context that is ready may perform its transaction. -/
theorem Ready.granted {s : State} {i : Instr} {c : Context} {h : Handle} (r : Ready s i c h) : s.granted i h = true :=
  (s.granted_iff i h).mpr ⟨r.lockFree, r.ownerFree⟩

theorem readValue_eq_oracle (s : State) (h : Handle) : s.readValue h = oracle s h := rfl

theorem claim_ataOwner (s : State) (i : Instr) : (s.claim i).ataOwner = ownerAfter s i.busClass .ata false := by
  simp only [State.claim_ataOwner, ownerAfter, State.owner]
  split <;> simp_all

theorem claim_pciOwner (s : State) (i : Instr) : (s.claim i).pciOwner = ownerAfter s i.busClass .pci false := by
  simp only [State.claim_pciOwner, ownerAfter, State.owner]
  split <;> simp_all

theorem draws_after (s : State) :
    (if s.answers.isEmpty then s.draws + 1 else s.draws) = if s.answers = [] then s.draws + 1 else s.draws := by
  cases s.answers <;> simp

/-- A read, and an update of the reading context. -/
theorem busRead_update {s : State} {i : Instr} {c : Context} {h : Handle} (r : Ready s i c h) (f : Context → Context) :
    (s.busRead i h).update f = afterRead s i h (oracle s h) (f c) false [] := by
  ext1 <;> simp only [afterRead, State.update_cfg, State.update_locks, State.update_ataOwner, State.update_pciOwner,
    State.update_irqAckCount, State.update_log, State.update_trace, State.update_ctxs, State.update_active,
    State.update_agenda, State.update_answers, State.update_draws, State.update_hostReads, State.busRead_cfg,
    State.busRead_locks, State.busRead_ataOwner, State.busRead_pciOwner, State.busRead_irqAckCount, State.busRead_log,
    State.busRead_trace, State.busRead_ctxs, State.busRead_active, State.busRead_agenda, State.busRead_answers,
    State.busRead_draws, State.busRead_hostReads, claim_ataOwner, claim_pciOwner, draws_after, List.append_nil]
  · rfl
  · exact State.modify_active r.current f

/-- A write, and an update of the writing context. -/
theorem busWrite_update {s : State} {i : Instr} {c : Context} {h : Handle} (r : Ready s i c h) (v : Word)
    (f : Context → Context) :
    (s.busWrite i h v).update f = afterWrite s i h (h.width.carry v) (f c) false := by
  ext1 <;> simp only [afterWrite, State.update_cfg, State.update_locks, State.update_ataOwner, State.update_pciOwner,
    State.update_irqAckCount, State.update_log, State.update_trace, State.update_ctxs, State.update_active,
    State.update_agenda, State.update_answers, State.update_draws, State.update_hostReads, State.busWrite_cfg,
    State.busWrite_locks, State.busWrite_ataOwner, State.busWrite_pciOwner, State.busWrite_irqAckCount,
    State.busWrite_log, State.busWrite_trace, State.busWrite_ctxs, State.busWrite_active, State.busWrite_agenda,
    State.busWrite_answers, State.busWrite_draws, State.busWrite_hostReads, claim_ataOwner, claim_pciOwner]
  · exact State.modify_active r.current f

/-- A completion after a read. -/
theorem afterRead_finish {s : State} {i : Instr} {c d : Context} {h : Handle} (hc : s.ctxs[s.active]? = some c)
    (w v : Word) (o : OutcomeCode) (es : List LogEvent) :
    (afterRead s i h w d false es).finish v o = afterRead s i h w (completed d v o) true es := by
  have hlt := (List.getElem?_eq_some_iff.mp hc).1
  ext1 <;> simp only [State.finish_cfg, State.finish_locks, State.finish_ataOwner, State.finish_pciOwner,
    State.finish_irqAckCount, State.finish_log, State.finish_trace, State.finish_ctxs, State.finish_active,
    State.finish_agenda, State.finish_answers, State.finish_draws, State.finish_hostReads, State.complete_ataOwner,
    State.complete_pciOwner, afterRead]
  · cases hb : s.cfg.busLock <;> cases hk : i.busClass <;> simp [ownerAfter, hb, State.owner]
  · cases hb : s.cfg.busLock <;> cases hk : i.busClass <;> simp [ownerAfter, hb, State.owner]
  · rw [List.modify_eq_set_getElem?]
    simp [hlt, completed, Context.completed, Status.completed]

/-- A completion after a write. -/
theorem afterWrite_finish {s : State} {i : Instr} {c d : Context} {h : Handle} (hc : s.ctxs[s.active]? = some c)
    (w v : Word) (o : OutcomeCode) :
    (afterWrite s i h w d false).finish v o = afterWrite s i h w (completed d v o) true := by
  have hlt := (List.getElem?_eq_some_iff.mp hc).1
  ext1 <;> simp only [State.finish_cfg, State.finish_locks, State.finish_ataOwner, State.finish_pciOwner,
    State.finish_irqAckCount, State.finish_log, State.finish_trace, State.finish_ctxs, State.finish_active,
    State.finish_agenda, State.finish_answers, State.finish_draws, State.finish_hostReads, State.complete_ataOwner,
    State.complete_pciOwner, afterWrite]
  · cases hb : s.cfg.busLock <;> cases hk : i.busClass <;> simp [ownerAfter, hb, State.owner]
  · cases hb : s.cfg.busLock <;> cases hk : i.busClass <;> simp [ownerAfter, hb, State.owner]
  · rw [List.modify_eq_set_getElem?]
    simp [hlt, completed, Context.completed, Status.completed]

/-- A further update of the context that read. -/
theorem afterRead_update {s : State} {i : Instr} {c d : Context} {h : Handle} (hc : s.ctxs[s.active]? = some c)
    (w : Word) (es : List LogEvent) (f : Context → Context) :
    (afterRead s i h w d false es).update f = afterRead s i h w (f d) false es := by
  have hlt := (List.getElem?_eq_some_iff.mp hc).1
  ext1 <;> simp only [State.update_cfg, State.update_locks, State.update_ataOwner, State.update_pciOwner,
    State.update_irqAckCount, State.update_log, State.update_trace, State.update_ctxs, State.update_active,
    State.update_agenda, State.update_answers, State.update_draws, State.update_hostReads, afterRead]
  rw [List.modify_eq_set_getElem?]
  simp [hlt]

/-- A log event after a read. -/
theorem afterRead_logEvent (s : State) (i : Instr) (h : Handle) (w : Word) (d : Context) (es : List LogEvent)
    (e : LogEvent) : (afterRead s i h w d false es).logEvent e = afterRead s i h w d false (es ++ [e]) := by
  ext1 <;> simp [afterRead]

/-- A read that completes its command. -/
theorem busRead_finish {s : State} {i : Instr} {c : Context} {h : Handle} (r : Ready s i c h) (v : Word)
    (o : OutcomeCode) :
    (s.busRead i h).finish v o = afterRead s i h (oracle s h) (completed c v o) true [] := by
  have same : (s.busRead i h).update id = s.busRead i h := by ext1 <;> simp
  rw [← same, busRead_update r, afterRead_finish r.current]
  rfl

/-- A write that completes its command. -/
theorem busWrite_finish {s : State} {i : Instr} {c : Context} {h : Handle} (r : Ready s i c h) (w v : Word)
    (o : OutcomeCode) :
    (s.busWrite i h w).finish v o = afterWrite s i h (h.width.carry w) (completed c v o) true := by
  have same : (s.busWrite i h w).update id = s.busWrite i h w := by ext1 <;> simp
  rw [← same, busWrite_update r, afterWrite_finish r.current]
  rfl

theorem condHolds_eq (p : PollCond) (v : Byte) : condHolds p v = p.holds v := by
  cases p <;> simp [condHolds, PollCond.holds, bsy, drq, err]

theorem limitReached_iff (l : Option Word) (n : Word) :
    limitReached l n = true ↔ ∃ k, l = some k ∧ k.toNat ≤ n.toNat := by
  cases l <;> simp [limitReached, BitVec.le_def]

theorem oracleByte_zext {s : State} {h : Handle} (hw : h.width = .w8) : (oracleByte s h).setWidth 32 = oracle s h := by
  unfold oracleByte oracle
  rw [hw]
  simp [Width.bits]

theorem lastResult_eq (c : Context) : lastResult c.last = lastWord c := by
  cases h : c.last <;> simp [lastResult, lastWord, h]

/-- A transaction leaves the owner registers as `ownerAfter` says. -/
theorem afterRead_owner (s : State) (i : Instr) (h : Handle) (w : Word) (c : Context) (b : Bool) (es : List LogEvent)
    (k : BusClass) : (afterRead s i h w c b es).owner k = ownerAfter s i.busClass k b := by
  cases k <;> rfl

theorem afterWrite_owner (s : State) (i : Instr) (h : Handle) (w : Word) (c : Context) (b : Bool) (k : BusClass) :
    (afterWrite s i h w c b).owner k = ownerAfter s i.busClass k b := by
  cases k <;> rfl

/-- Repeated steps of a command compose. -/
theorem execs_add {i : Instr} {s t : State} {m : Nat} (n : Nat) (h : execs i m s = .next t) :
    execs i (m + n) s = execs i n t := by
  induction m generalizing s with
  | zero =>
    cases h
    simp
  | succ m ih =>
    rw [Nat.add_right_comm]
    simp only [execs] at h ⊢
    split at h
    · exact ih h
    · cases h
    · cases h

end Sys2Proof.Laws
end

