-- ==== Sys2Proof/Laws/Transactions.lean ====
section
/-! SUPPORT. Everything one step of a command can do, said once: it waits, it is accepted or turned away, or it performs one bus
transaction and then changes only its own context, the log and, at a completion, the owner registers. -/

namespace Sys2Proof.Machine

/-- What may follow the transaction in its step: `t` differs from `u` in the active context's operation registers, in events
appended to the log and in owner registers given back. -/
structure Continues (u t : State) : Prop where
  cfg : t.cfg = u.cfg
  locks : t.locks = u.locks
  irqAckCount : t.irqAckCount = u.irqAckCount
  trace : t.trace = u.trace
  active : t.active = u.active
  agenda : t.agenda = u.agenda
  answers : t.answers = u.answers
  draws : t.draws = u.draws
  hostReads : t.hostReads = u.hostReads
  log : ∃ es, t.log = u.log ++ es
  ctxs : ∃ f : Context → Context, t.ctxs = u.ctxs.modify u.active f ∧
    ∀ c, (f c).cmd0 = c.cmd0 ∧ (f c).cmd1 = c.cmd1 ∧ (f c).op = c.op ∧ (f c).status.overrun = c.status.overrun
  ataOwner : t.ataOwner = u.ataOwner ∨ (u.ataOwner = some u.active ∧ t.ataOwner = none)
  pciOwner : t.pciOwner = u.pciOwner ∨ (u.pciOwner = some u.active ∧ t.pciOwner = none)

/-- The registers no transaction writes: `CMD0`, `CMD1`, the latched command and `OVERRUN`. -/
def KeepsCommand (f : Context → Context) : Prop :=
  ∀ c, (f c).cmd0 = c.cmd0 ∧ (f c).cmd1 = c.cmd1 ∧ (f c).op = c.op ∧ (f c).status.overrun = c.status.overrun

theorem Continues.update (u : State) {f : Context → Context} (hf : KeepsCommand f) : Continues u (u.update f) :=
  ⟨rfl, rfl, rfl, rfl, rfl, rfl, rfl, rfl, rfl, ⟨[], by simp⟩, ⟨f, rfl, hf⟩, .inl rfl, .inl rfl⟩

theorem Continues.logEvent (u : State) (e : LogEvent) : Continues u (u.logEvent e) :=
  ⟨rfl, rfl, rfl, rfl, rfl, rfl, rfl, rfl, rfl, ⟨[e], rfl⟩, ⟨id, by simp, fun _ => ⟨rfl, rfl, rfl, rfl⟩⟩, .inl rfl, .inl rfl⟩

theorem Continues.complete (u : State) (o : OutcomeCode) : Continues u (u.complete o) := by
  refine ⟨rfl, rfl, rfl, rfl, rfl, rfl, rfl, rfl, rfl, ⟨[], by simp⟩, ⟨_, rfl, fun _ => ⟨rfl, rfl, rfl, rfl⟩⟩, ?_, ?_⟩ <;>
  · simp only [State.complete_ataOwner, State.complete_pciOwner]
    split
    · next h => exact .inr ⟨h.2, rfl⟩
    · exact .inl rfl

theorem Continues.trans {u t v : State} (h : Continues u t) (k : Continues t v) : Continues u v := by
  refine ⟨k.cfg.trans h.cfg, k.locks.trans h.locks, k.irqAckCount.trans h.irqAckCount, k.trace.trans h.trace,
    k.active.trans h.active, k.agenda.trans h.agenda, k.answers.trans h.answers, k.draws.trans h.draws,
    k.hostReads.trans h.hostReads, ?_, ?_, ?_, ?_⟩
  · obtain ⟨a, ha⟩ := h.log
    obtain ⟨b, hb⟩ := k.log
    exact ⟨a ++ b, by rw [hb, ha, List.append_assoc]⟩
  · obtain ⟨f, hf, kf⟩ := h.ctxs
    obtain ⟨g, hg, kg⟩ := k.ctxs
    refine ⟨g ∘ f, by rw [hg, hf, h.active, List.modify_modify_eq], fun c => ?_⟩
    obtain ⟨a1, a2, a3, a4⟩ := kf c
    obtain ⟨b1, b2, b3, b4⟩ := kg (f c)
    exact ⟨b1.trans a1, b2.trans a2, b3.trans a3, b4.trans a4⟩
  · rcases h.ataOwner with e | ⟨e, e'⟩ <;> rcases k.ataOwner with d | ⟨d, d'⟩ <;> simp_all [h.active]
  · rcases h.pciOwner with e | ⟨e, e'⟩ <;> rcases k.pciOwner with d | ⟨d, d'⟩ <;> simp_all [h.active]

theorem Continues.finish (u : State) (v : Word) (o : OutcomeCode) : Continues u (u.finish v o) :=
  (Continues.update u (f := fun c => { c with result := v }) fun _ => ⟨rfl, rfl, rfl, rfl⟩).trans (Continues.complete _ o)

theorem Continues.pollStep (u : State) (c : Context) (cond : PollCond) (p : Phase) (v : Byte) :
    Continues u (u.pollStep c cond p v) := by
  have polled := (Continues.update u (f := Context.polled v) fun _ => ⟨rfl, rfl, rfl, rfl⟩).trans
    (Continues.logEvent _ (.poll u.active cond (countRead c.iter) v))
  simp only [State.pollStep]
  split
  · exact polled.trans (Continues.update _ fun _ => ⟨rfl, rfl, rfl, rfl⟩)
  · split
    · exact polled.trans (Continues.finish _ _ _)
    · exact polled

theorem Continues.readBack (u : State) (v : Byte) : Continues u (identifyReadBack v u) := by
  have read := Continues.update u (f := Context.readBack v) fun _ => ⟨rfl, rfl, rfl, rfl⟩
  have marked := (read.trans (Continues.update _ (f := Context.markAbsent) fun _ => ⟨rfl, rfl, rfl, rfl⟩)).trans
    (Continues.logEvent _ (.absent u.active))
  simp only [identifyReadBack]
  split
  · split
    · exact marked.trans (Continues.finish _ _ _)
    · exact marked.trans (Continues.update _ fun _ => ⟨rfl, rfl, rfl, rfl⟩)
  · exact read.trans (Continues.update _ fun _ => ⟨rfl, rfl, rfl, rfl⟩)

theorem Continues.signature (u : State) (c : Context) (v : Byte) : Continues u (identifySignature c v u) := by
  have read := Continues.update u (f := fun x => { x with sig := setSigHigh x.sig v }) fun _ => ⟨rfl, rfl, rfl, rfl⟩
  have marked := (read.trans (Continues.update _ (f := Context.markNotAta) fun _ => ⟨rfl, rfl, rfl, rfl⟩)).trans
    (Continues.logEvent _ (.notAta u.active (sigMid c.sig) v))
  simp only [identifySignature]
  split
  · split
    · exact marked.trans (Continues.finish _ _ _)
    · exact marked.trans (Continues.update _ fun _ => ⟨rfl, rfl, rfl, rfl⟩)
  · exact read.trans (Continues.update _ fun _ => ⟨rfl, rfl, rfl, rfl⟩)

theorem Continues.identifyWord {u t : State} {c : Context} {v : Half} (h : identifyWord c v u = .next t) :
    Continues u t := by
  have stored := Continues.update u (f := Context.storeWord c.idx v) fun _ => ⟨rfl, rfl, rfl, rfl⟩
  simp only [Machine.identifyWord] at h
  split at h
  · split at h
    · cases h
      exact (stored.trans (Continues.update _
        (f := fun x => { x with info := some (decodeInfo (Memory.word (Memory.write c.buf 255 v))) })
        fun _ => ⟨rfl, rfl, rfl, rfl⟩)).trans (Continues.finish _ _ _)
    · cases h
  · cases h
    exact stored

theorem Continues.sectorWord (u : State) (c : Context) (v : Half) : Continues u (sectorWord c v u) := by
  have stored := Continues.update u (f := Context.storeWord c.idx v) fun _ => ⟨rfl, rfl, rfl, rfl⟩
  simp only [Machine.sectorWord]
  split
  · exact stored.trans (Continues.finish _ _ _)
  · exact stored

/-- One transaction of command `i`, granted, at a handle of its class, and what follows it in its step. Of the engines' writes to
`CMDSTAT` it says the value. -/
def Accesses (i : Instr) (s t : State) : Prop :=
  ∃ h u, s.granted i h = true ∧ h.busClass = i.busClass ∧ Continues u t ∧
    (u = s.busRead i h ∨ ∃ v, u = s.busWrite i h v ∧
      ((∃ k d, i = .portWrite k d) ∨ h ≠ .cmdstat ∨
        ((∃ d, i = .ataIdentify d) ∧ v = zext32 cmdIdentify) ∨ ((∃ l, i = .ataReadSector l) ∧ v = zext32 cmdReadSectors)))

theorem onRead_cases {i : Instr} {h : Handle} {s t : State} {k : Word → State → StepResult}
    (hr : onRead i h s k = .next t) : t = s ∨ (s.granted i h = true ∧ k (s.readValue h) (s.busRead i h) = .next t) := by
  simp only [onRead] at hr
  split at hr
  · next hg => exact .inr ⟨hg, hr⟩
  · cases hr
    exact .inl rfl

theorem onWrite_cases {i : Instr} {h : Handle} {v : Word} {s t : State} {k : State → StepResult}
    (hr : onWrite i h v s k = .next t) : t = s ∨ (s.granted i h = true ∧ k (s.busWrite i h v) = .next t) := by
  simp only [onWrite] at hr
  split at hr
  · next hg => exact .inr ⟨hg, hr⟩
  · cases hr
    exact .inl rfl

/-- A read whose continuation only continues. -/
theorem Accesses.read {i : Instr} {h : Handle} {s t : State} {k : Word → State → StepResult}
    (hr : onRead i h s k = .next t) (hb : h.busClass = i.busClass)
    (hk : ∀ v u t, k v u = .next t → Continues u t) : t = s ∨ Accesses i s t := by
  rcases onRead_cases hr with rfl | ⟨hg, e⟩
  · exact .inl rfl
  · exact .inr ⟨h, _, hg, hb, hk _ _ _ e, .inl rfl⟩

/-- A write whose continuation only continues. -/
theorem Accesses.write {i : Instr} {h : Handle} {v : Word} {s t : State} {k : State → StepResult}
    (hr : onWrite i h v s k = .next t) (hb : h.busClass = i.busClass)
    (hc : (∃ k d, i = .portWrite k d) ∨ h ≠ .cmdstat ∨
        ((∃ d, i = .ataIdentify d) ∧ v = zext32 cmdIdentify) ∨ ((∃ l, i = .ataReadSector l) ∧ v = zext32 cmdReadSectors))
    (hk : ∀ u t, k u = .next t → Continues u t) : t = s ∨ Accesses i s t := by
  rcases onWrite_cases hr with rfl | ⟨hg, e⟩
  · exact .inl rfl
  · exact .inr ⟨h, _, hg, hb, hk _ _ e, .inr ⟨v, rfl, hc⟩⟩

theorem next_update {f : Context → Context} (hf : KeepsCommand f) :
    ∀ u t : State, Host.Outcome.next (u.update f) = (Host.Outcome.next t : StepResult) → Continues u t := by
  intro u t h
  cases h
  exact Continues.update u hf

/-- Everything one step of a command can do when it answers a next state: it waits, is accepted, is no command, is turned away,
or performs one transaction. -/
inductive StepCases (i : Instr) (s : State) : State → Prop
  | waits : StepCases i s s
  | accepted (c : Context) : s.current = some c → c.phase = .idle → i.wellFormed = true → StepCases i s (s.issue i)
  | bad (c : Context) : s.current = some c → c.phase = .idle → i.wellFormed = false → StepCases i s s.badCommand
  | turnedAway (c : Context) : s.current = some c → c.phase ≠ .idle → c.op ≠ some i → StepCases i s s.overrun
  | accesses (c : Context) (t : State) : s.current = some c → c.phase ≠ .idle → c.op = some i → Accesses i s t →
    StepCases i s t

theorem StepCases.ofRunCommand {i : Instr} {s t : State} {body : Context → StepResult}
    (hr : runCommand i s body = .next t) (hb : ∀ c, body c = .next t → t = s ∨ Accesses i s t) : StepCases i s t := by
  rcases runCommand_cases hr with ⟨-, e⟩ | ⟨c, hc, hp, hw, e⟩ | ⟨c, hc, hp, hw, e⟩ | ⟨c, hc, hp, ho, e⟩ | ⟨c, hc, hp, ho, e⟩
  · cases e; exact .waits
  · cases e; exact .accepted c hc hp hw
  · cases e; exact .bad c hc hp hw
  · rcases hb c e.symm with e | e
    · subst e; exact .waits
    · exact .accesses c t hc hp ho e
  · cases e; exact .turnedAway c hc hp ho

theorem exec_next_cases {i : Instr} {s t : State} (h : exec i s = .next t) : StepCases i s t := by
  cases i with
  | portRead k =>
    refine StepCases.ofRunCommand h fun c e => ?_
    split at e
    · exact Accesses.read e rfl fun v u t q => by cases q; exact Continues.finish _ _ _
    · cases e
  | portWrite k d =>
    refine StepCases.ofRunCommand h fun c e => ?_
    split at e
    · exact Accesses.write e rfl (.inl ⟨_, _, rfl⟩) fun u t q => by cases q; exact Continues.finish _ _ _
    · cases e
  | pciCfgRead b sl f o =>
    refine StepCases.ofRunCommand h fun c e => ?_
    split at e
    · exact Accesses.write e rfl (by simp) (next_update fun _ => ⟨rfl, rfl, rfl, rfl⟩)
    · exact Accesses.read e rfl fun v u t q => by cases q; exact Continues.finish _ _ _
    · cases e
  | ataIdentify d =>
    refine StepCases.ofRunCommand h fun c e => ?_
    split at e
    · exact Accesses.write e rfl (by simp) (next_update fun _ => ⟨rfl, rfl, rfl, rfl⟩)
    · exact Accesses.write e rfl (by simp) (next_update fun _ => ⟨rfl, rfl, rfl, rfl⟩)
    · exact Accesses.write e rfl (by simp) (next_update fun _ => ⟨rfl, rfl, rfl, rfl⟩)
    · exact Accesses.write e rfl (by simp) (next_update fun _ => ⟨rfl, rfl, rfl, rfl⟩)
    · exact Accesses.write e rfl (by simp) (next_update fun _ => ⟨rfl, rfl, rfl, rfl⟩)
    · exact Accesses.write e rfl (.inr (.inr (.inl ⟨⟨d, rfl⟩, rfl⟩))) (next_update fun _ => ⟨rfl, rfl, rfl, rfl⟩)
    · exact Accesses.read e rfl fun v u t q => by cases q; exact Continues.readBack _ _
    · exact Accesses.read e rfl fun v u t q => by cases q; exact Continues.pollStep _ _ _ _ _
    · exact Accesses.read e rfl fun v => next_update fun _ => ⟨rfl, rfl, rfl, rfl⟩
    · exact Accesses.read e rfl fun v u t q => by cases q; exact Continues.signature _ _ _
    · exact Accesses.read e rfl fun v u t q => by cases q; exact Continues.pollStep _ _ _ _ _
    · split at e
      · exact Accesses.read e rfl fun v u t q => Continues.identifyWord q
      · cases e
    · cases e
  | ataReadSector l =>
    refine StepCases.ofRunCommand h fun c e => ?_
    split at e
    · exact Accesses.write e rfl (by simp) (next_update fun _ => ⟨rfl, rfl, rfl, rfl⟩)
    · exact Accesses.write e rfl (by simp) (next_update fun _ => ⟨rfl, rfl, rfl, rfl⟩)
    · exact Accesses.write e rfl (by simp) (next_update fun _ => ⟨rfl, rfl, rfl, rfl⟩)
    · exact Accesses.write e rfl (by simp) (next_update fun _ => ⟨rfl, rfl, rfl, rfl⟩)
    · exact Accesses.write e rfl (by simp) (next_update fun _ => ⟨rfl, rfl, rfl, rfl⟩)
    · exact Accesses.write e rfl (.inr (.inr (.inr ⟨⟨l, rfl⟩, rfl⟩))) (next_update fun _ => ⟨rfl, rfl, rfl, rfl⟩)
    · exact Accesses.read e rfl fun v u t q => by cases q; exact Continues.pollStep _ _ _ _ _
    · split at e
      · exact Accesses.read e rfl fun v u t q => by cases q; exact Continues.sectorWord _ _ _
      · cases e
    · cases e

end Sys2Proof.Machine
end

