-- ==== Sys2Proof/Machine/Render.lean ====
section
/-! DEFINITION. The host-side debug rendering of a raw text field (44_identify_decoder.md R251): informative, outside the
block's datapath; no step of the machine calls it. -/

namespace Sys2Proof.Machine

/-- What R251 leaves OPEN (D30): the hex-escape spelling, the quote character and its escape, the printable range. -/
structure RenderFormat where
  hexEscape : Byte → String
  quote : Byte
  quoteEscape : String
  printable : Byte → Bool

/-- The format of this platform: every part of it a free value (assumption 13). -/
def renderFormat : RenderFormat where
  hexEscape := Config.hexEscapeFormat
  quote := Config.quoteCharacter
  quoteEscape := Config.quoteEscape
  printable := Config.printable

/-- One byte, by the list of R251, first line that fits. The spellings of the escapes of carriage return and backslash are
PRESUMED there (G6, assumption 13). -/
def renderByte (f : RenderFormat) (b : Byte) : String :=
  if b = 0x00 then "\\0"
  else if b = 0x0A then "\\n"
  else if b = 0x0D then "\\r"
  else if b = 0x5C then "\\\\"
  else if b = f.quote then f.quoteEscape
  else if f.printable b then String.singleton (Char.ofNat b.toNat)
  else f.hexEscape b

/-- A text field, byte by byte. -/
def renderText (f : RenderFormat) (text : List Byte) : String :=
  text.foldl (fun acc b => acc ++ renderByte f b) ""

end Sys2Proof.Machine
end

