-- ==== Sys2Proof/Tests/Slice0.lean ====
section
/-! SUPPORT. Tests, their expected results from the spec's tables (30_encoding.md R126, 95_test_vectors.md), and one witness for the
hypotheses of each statement. -/

namespace Sys2Proof.Tests

open Sys2Proof.Machine Sys2Proof.Spec

/-! ### Well-formedness -/

theorem test_wellFormed_data_fits : (Instr.portWrite .seccount 0xFF).wellFormed = true := by decide

theorem test_illFormed_data_too_wide : (Instr.portWrite .seccount 0x100).wellFormed = false := by decide

theorem test_illFormed_data_too_wide_16 : (Instr.portWrite .data 0x10000).wellFormed = false := by decide

theorem test_wellFormed_32_bit_port : (Instr.portWrite .pciAddr 0xFFFFFFFF).wellFormed = true := by decide

/-! ### Decoding: words written out bit by bit from the formats of R111, and the rejections by name -/

/-- R126: format P, `h` = 6, opcode 0x01. -/
theorem test_decode_portRead :
    decode 0b0000000000000000_00000000000000000000000000000000_0000_0110_00000001 = .ok (.portRead .cmdstat) := by decide

/-- R126: format P, `data` = 1, `h` = 1, opcode 0x02. -/
theorem test_decode_portWrite :
    decode 0b0000000000000000_00000000000000000000000000000001_0000_0001_00000010 = .ok (.portWrite .seccount 1) := by
  decide

/-- R126: format C, `off` = 0x10, `func` = 3, `slot` = 2, `bus` = 1, opcode 0x10. -/
theorem test_decode_pciCfgRead :
    decode 0b000000000000000000000000_00010000_00000011_00000010_00000001_00010000 = .ok (.pciCfgRead 1 2 3 0x10) := by
  decide

/-- R126: format I, `d` = 1, opcode 0x20. -/
theorem test_decode_ataIdentify :
    decode 0b0000000000000000000000000000000000000000000000000000000_1_00100000 = .ok (.ataIdentify .slave) := by decide

/-- R126: format S, `lba` = 0x0ABCDEF1, opcode 0x21. -/
theorem test_decode_ataReadSector :
    decode 0b0000000000000000_00001010101111001101111011110001_00000000_00100001 = .ok (.ataReadSector 0x0ABCDEF1) := by
  decide

/-- V-PORT-2, V-PORT-3, V-PORT-8: the first and the last handle, and a full data field. -/
theorem test_decode_handles :
    decode 0x0000000000000001 = .ok (.portRead .data) ∧ decode 0x0000000000000801 = .ok (.portRead .pciData) ∧
    decode 0x0000FFFFFFFF0702 = .ok (.portWrite .pciAddr 0xFFFFFFFF) := by decide

/-- V-GO-1, V-GO-3 to V-GO-6, V-PORT-5 to V-PORT-7, V-PORT-9. -/
theorem test_decode_rejects :
    decode 0x0000000000000000 = .error .illegalOpcode ∧ decode 0x0000000000000022 = .error .illegalOpcode ∧
    decode 0x0000000000000220 = .error .reservedBits ∧ decode 0x0000000000000121 = .error .reservedBits ∧
    decode 0x0000010000000010 = .error .reservedBits ∧ decode 0x0000000001000102 = .error .dataTooWide ∧
    decode 0x0000000000000901 = .error .illegalHandle ∧ decode 0x0000000000010601 = .error .reservedBits ∧
    decode 0x0000000100000002 = .error .dataTooWide := by decide

/-- The assembler refuses an immediate that does not fit its field, and an index that names no handle (R125). -/
theorem test_assemble_refuses :
    assemble (.pciRd 256 0 0 0) = none ∧ assemble (.portRd (.index 9)) = none ∧ assemble (.read 0x100000000) = none := by
  decide

/-! ### Operands and flags -/

/-- V-PCI-3, V-PCI-6 to V-PCI-10. -/
theorem test_pci_addresses :
    pciAddress 1 2 3 0x10 = 0x80011310 ∧ pciAddress 0 0 0 0xFF = 0x800000FC ∧ pciAddress 0 0x20 0 0 = 0x80010000 ∧
    pciAddress 0 0 8 0 = 0x80000800 ∧ pciAddress 0xFF 0xFF 0xFF 0xFF = 0x80FFFFFC ∧
    pciAddress 0 31 7 0x3C = 0x8000FF3C := by decide

/-- V-PCI-1, V-PCI-2, V-PCI-4, V-PCI-5. -/
theorem test_pci_halves :
    pciHalf 0 0x12378086 = 0x8086 ∧ pciHalf 2 0x12378086 = 0x1237 ∧ pciHalf 0x13 0xAABBCCDD = 0xAABB ∧
    pciHalf 1 0xAABBCCDD = 0xCCDD := by decide

/-- V-RS-1 to V-RS-6 (S5, S10). -/
theorem test_sector_select :
    sectorSelect 0 = 0xE0 ∧ sectorSelect 0x0F000000 = 0xEF ∧ sectorSelect 0x10000000 = 0xE0 ∧
    sectorSelect 0x0ABCDEF1 = 0xEA ∧ sectorSelect 0xFFFFFFFF = 0xEF ∧ sectorSelect 0x12345678 = 0xE2 := by decide

/-- V-POLL-1a to V-POLL-3d. -/
theorem test_poll_conditions :
    [0x80, 0x7F, 0x00, 0xFF].map PollCond.bsyClear.holds = [false, true, true, false] ∧
    [0x08, 0x01, 0x80, 0x50, 0x89, 0x00].map PollCond.drqOrErr.holds = [true, true, false, false, true, false] ∧
    [0x08, 0x01, 0x88, 0x51].map PollCond.drqSet.holds = [true, false, true, false] := by decide

/-- V-GO-1, V-ID-3, V-ID-5, V-ID-8, and the end states of programs P1 and P4: the `STATUS` words, one for each outcome. -/
theorem test_status_words :
    (Status.mk false true false .badCommand false false).toWord = 0x52 ∧
    (Status.mk false true false .absent true false).toWord = 0x122 ∧
    (Status.mk false true false .notAta false true).toWord = 0x232 ∧
    (Status.mk false true false .absent true true).toWord = 0x322 ∧
    (Status.mk false true false .timeout true false).toWord = 0x142 ∧
    (Status.mk false true false .ok false false).toWord = 0x012 ∧ Status.reset.toWord = 0 := by decide

/-- Words 10 to 19 of V-DEC-1, and the words of V-DEC-2, V-DEC-4 and V-DEC-6. -/
def vectorWords : Nat → Half
  | 10 => 0x4142 | 11 => 0x4344 | 12 => 0x4546 | 13 => 0x4748 | 14 => 0x494A
  | 15 => 0x4B4C | 16 => 0x4D4E | 17 => 0x4F50 | 18 => 0x5152 | 19 => 0x5354
  | 49 => 0x0F00 | 50 => 0x4000 | 60 => 0x5678 | 61 => 0x1234
  | 100 => 1 | 101 => 2 | 102 => 3 | 103 => 4
  | _ => 0

/-- V-DEC-1: the serial number is 0x41 to 0x54, and its first host register 0x44434241. -/
theorem test_decode_serial :
    (decodeInfo vectorWords).serial = (List.range 20).map (fun k => BitVec.ofNat 8 (0x41 + k)) ∧
    packBytes (decodeInfo vectorWords).serial 0 = 0x44434241 := by decide

/-- V-DEC-2, V-DEC-4, V-DEC-6. -/
theorem test_decode_numbers :
    (decodeInfo vectorWords).lba28Sectors = 0x12345678 ∧ (decodeInfo vectorWords).lba48Sectors = 0x0004000300020001 ∧
    (decodeInfo vectorWords).capabilities = 0x40000F00 := by decide

/-- V-DEC-3. -/
theorem test_swap : swapPairs [1, 2, 3, 4] = some [2, 1, 4, 3] := by decide

/-- S7, in a format with 0x41 printable. -/
theorem test_render :
    renderText ⟨fun _ => "?", 0x27, "\\'", fun b => 0x20 ≤ b && b < 0x7F⟩ [0x00, 0x41, 0x0A] = "\\0A\\n" := by decide

/-! ### One step of each command -/

/-- Command `i` in flight on the one context, in phase `p`. -/
def inFlight (i : Instr) (p : Phase) : Context := { Context.issued i .reset with phase := p }

/-- A block with the contexts `cs`, the answers fixed. -/
def block (cfg : Config) (cs : List Context) (answers : List Word) : State :=
  { State.start cfg with ctxs := cs, answers := answers }

/-- One step of `i` in phase `p`, the next answer `a`. -/
def oneStep (i : Instr) (p : Phase) (a : Word) : StepResult := exec i (block .reference [inFlight i p] [a])

/-- The next state, where there is one. -/
def nextOf : StepResult → Option State
  | .next t => some t
  | .fault _ => none
  | .refused _ => none

/-- The trace and the registers of context 0 after a step. -/
def shown (r : StepResult) : Option (List BusEvent × Option (Word × Word × Phase)) :=
  (nextOf r).map fun t => (t.trace, t.ctxs[0]?.map fun c => (c.status.toWord, c.result, c.phase))

/-- V-PORT-1. -/
theorem test_portRead_cmdstat :
    shown (oneStep (.portRead .cmdstat) .pXfer 0x50)
      = some ([⟨0, .read, 0x1F7, .w8, 0x50⟩], some (0x12, 0x50, .idle)) := by decide

/-- V-PORT-2. -/
theorem test_portRead_data :
    shown (oneStep (.portRead .data) .pXfer 0xBEEF)
      = some ([⟨0, .read, 0x1F0, .w16, 0xBEEF⟩], some (0x12, 0xBEEF, .idle)) := by decide

/-- V-PORT-4. -/
theorem test_portWrite_seccount :
    shown (oneStep (.portWrite .seccount 0x01) .pXfer 0)
      = some ([⟨0, .write, 0x1F2, .w8, 0x01⟩], some (0x12, 0, .idle)) := by decide

/-- V-PCI-3: the address step. -/
theorem test_pciCfgRead_address :
    shown (oneStep (.pciCfgRead 1 2 3 0x10) .cWAddr 0)
      = some ([⟨0, .write, 0xCF8, .w32, 0x80011310⟩], some (0x01, 0, .cRData)) := by decide

/-- V-PCI-4: the data step takes the upper half. -/
theorem test_pciCfgRead_data :
    shown (oneStep (.pciCfgRead 0 0 0 0x13) .cRData 0xAABBCCDD)
      = some ([⟨0, .read, 0xCFC, .w32, 0xAABBCCDD⟩], some (0x12, 0xAABB, .idle)) := by decide

/-- V-ID-6: the slave's select byte. -/
theorem test_ataIdentify_select :
    shown (oneStep (.ataIdentify .slave) .iSel 0)
      = some ([⟨0, .write, 0x1F6, .w8, 0xB0⟩], some (0x01, 0, .iCnt)) := by decide

/-- V-ID-3: an absent drive with `EARLY_ABORT`. -/
theorem test_ataIdentify_early_abort :
    shown (exec (.ataIdentify .master)
        (block { Config.reference with earlyAbort := true } [inFlight (.ataIdentify .master) .iS0] [0x00]))
      = some ([⟨0, .read, 0x1F7, .w8, 0x00⟩], some (0x122, 0, .idle)) := by decide

/-- V-RS-4: bits 23:16 of the LBA. -/
theorem test_ataReadSector_high :
    shown (oneStep (.ataReadSector 0x0ABCDEF1) .rHi 0)
      = some ([⟨0, .write, 0x1F5, .w8, 0xBC⟩], some (0x01, 0, .rCmd)) := by decide

/-- V-RS-7: DRQ ends the poll although BSY is set too. -/
theorem test_ataReadSector_drq_with_bsy :
    shown (oneStep (.ataReadSector 0) .rDrq 0x88)
      = some ([⟨0, .read, 0x1F7, .w8, 0x88⟩], some (0x01, 0, .rData)) := by decide

/-! ### The other agents -/

/-- A state whose next step is `e`. -/
def picking (e : Event) (s : State) : State := { s with agenda := [e] }

/-- V-IRQ-2: the count wraps. -/
theorem test_irq14_wraps :
    (nextOf (step (picking .irq14 { State.reset with irqAckCount := 0xFFFFFFFF }))).map
      (fun t => (t.irqAckCount, t.log, t.trace, t.ctxs)) = some (0, [.irq14], [], [.reset]) := by decide

/-- V-RST-1: a reset in the data phase. -/
theorem test_reset_in_data_phase :
    (nextOf (step (picking .reset
      (block .reference [{ inFlight (.ataIdentify .master) .iData with idx := 100, buf := [(0, 7)] }] [])))).map
      (fun t => (t.ctxs, t.trace)) = some ([.reset], []) := by decide

/-- V-GO-1: a GO of the word 0. -/
theorem test_go_bad_command :
    shown (step (picking (.hostWrite 32 0x1008 1) .reset)) = some ([], some (0x52, 0, .idle)) := by decide

/-- V-GO-7: a placed IDENTIFY is the first instruction after reset. -/
theorem test_go_identify : shown (step (State.reset.withFetchWord 64 0x20)) = some ([], some (0x01, 0, .iSel)) := by decide

/-- V-GO-8: a write of `CTRL` with bit 0 clear. -/
theorem test_ctrl_without_go :
    (nextOf (step (picking (.hostWrite 32 0x1008 0) .reset))).map (fun t => t.ctxs) = some [.reset] := by decide

/-- V-BL-1: context 1 is held while context 0 owns the ATA class. -/
theorem test_bus_lock_holds :
    (nextOf (step (picking (.context 1)
      { block { Config.reference with busLock := true, numContexts := 2 }
          [inFlight (.ataIdentify .master) .iBsy, inFlight (.ataReadSector 0) .rSel] [] with ataOwner := some 0 }))).map
      (fun t => (t.trace, t.ctxs)) =
      some ([], [inFlight (.ataIdentify .master) .iBsy, inFlight (.ataReadSector 0) .rSel]) := by decide

/-! ### Witnesses: concrete states and operands that meet the hypotheses of each statement -/

theorem witness_EncodedCommandDecodesToItself :
    (Instr.portWrite .cmdstat 0xFF).wellFormed = true ∧ (Instr.ataReadSector 0xFFFFFFFF).wellFormed = true := by decide

theorem witness_DecodedWordIsItsEncoding :
    decode 0x0000FFFFFFFF0702 = .ok (.portWrite .pciAddr 0xFFFFFFFF) ∧
    encode (.portWrite .pciAddr 0xFFFFFFFF) = 0x0000FFFFFFFF0702 := by decide

/-- Context 0 idle, with the command word `w` written. -/
def holding (w : CmdWord) : Context := { Context.reset with cmd0 := w.extractLsb' 0 32, cmd1 := w.extractLsb' 32 32 }

/-- The next step is a GO to context 0, which is `c`. -/
def going (c : Context) : State := picking (.hostWrite 32 (window 0 0x008) 1) (block .reference [c] [])

theorem witness_GoRunsTheDecodedCommand :
    Picks (going (holding 0x120)) (.hostWrite 32 (window 0 0x008) 1) ∧ (1 : Word).getLsbD 0 = true ∧
    (going (holding 0x120)).ctxs[0]? = some (holding 0x120) ∧ (holding 0x120).phase = .idle ∧
    decode ((holding 0x120).cmd1 ++ (holding 0x120).cmd0) = .ok (.ataIdentify .slave) := by decide

theorem witness_ContextStepRunsTheLatchedCommand :
    let c := inFlight (.ataIdentify .master) .iBsy
    let s := picking (.context 1) (block .reference [.reset, c] [])
    Picks s (.context 1) ∧ s.ctxs[1]? = some c ∧ c.phase ≠ .idle ∧ c.op = some (.ataIdentify .master) := by decide

theorem witness_PlacedWordIsIssuedNext :
    decodeTableWord 16 0x120 = some (.ataIdentify .slave) ∧ 0 < State.reset.ctxs.length := by decide

/-- Every family, on the reset state. -/
theorem witness_AcceptedGoLatchesTheCommand :
    State.reset.ctxs[State.reset.active]? = some .reset ∧ Context.reset.phase = .idle ∧
    (Instr.portRead .data).wellFormed = true ∧ (Instr.portWrite .data 0xFFFF).wellFormed = true ∧
    (Instr.pciCfgRead 0xFF 0xFF 0xFF 0xFF).wellFormed = true ∧ (Instr.ataIdentify .master).wellFormed = true ∧
    (Instr.ataReadSector 0).wellFormed = true := by decide

theorem witness_InvalidWordCompletesBadCommand :
    Picks (going (holding 0x22)) (.hostWrite 32 (window 0 0x008) 1) ∧ (1 : Word).getLsbD 0 = true ∧
    (going (holding 0x22)).ctxs[0]? = some (holding 0x22) ∧ (holding 0x22).phase = .idle ∧
    valid ((holding 0x22).cmd1 ++ (holding 0x22).cmd0) = false := by decide

theorem witness_GoWhileBusyOnlySetsOverrun :
    let c := inFlight (.ataReadSector 5) .rDrq
    Picks (going c) (.hostWrite 32 (window 0 0x008) 1) ∧ (going c).ctxs[0]? = some c ∧ c.phase ≠ .idle := by decide

/-- One context with `i` in flight in phase `p` is ready at every handle, without `BUS_LOCK` and, owning or not, with it. -/
theorem ready_block (lock : Bool) (i : Instr) (p : Phase) (answers : List Word) (h : Handle) :
    Ready (block { Config.reference with busLock := lock } [inFlight i p] answers) i (inFlight i p) h :=
  ⟨rfl, rfl, by simp [block, State.start], fun _ => .inl (by cases i.busClass <;> rfl)⟩

/-- Every handle. -/
theorem witness_PortReadCompletesWithTheValueRead (h : Handle) :
    Ready (block .reference [inFlight (.portRead h) .pXfer] [0x50]) (.portRead h) (inFlight (.portRead h) .pXfer) h ∧
    (inFlight (.portRead h) .pXfer).phase = .pXfer := ⟨ready_block false _ _ _ _, rfl⟩

theorem witness_PortWriteCompletesWithResultZero :
    Ready (block .reference [inFlight (.portWrite .data 0xFFFF) .pXfer] []) (.portWrite .data 0xFFFF)
      (inFlight (.portWrite .data 0xFFFF) .pXfer) .data ∧
    (inFlight (.portWrite .data 0xFFFF) .pXfer).phase = .pXfer ∧ (0xFFFF : Word).toNat < 2 ^ Handle.data.width.bits :=
  ⟨ready_block false _ _ _ _, rfl, by decide⟩

/-- Each of the two steps, with `BUS_LOCK`. -/
theorem witness_PciReadWritesAddressThenReadsHalf :
    (∃ s c, Ready s (.pciCfgRead 0 31 7 0x3E) c .pciAddr ∧ c.phase = .cWAddr) ∧
    (∃ s c, Ready s (.pciCfgRead 0 31 7 0x3E) c .pciData ∧ c.phase = .cRData) :=
  ⟨⟨_, _, ready_block true _ .cWAddr [] _, rfl⟩, ⟨_, _, ready_block true _ .cRData [7] _, rfl⟩⟩

theorem witness_PciAddressFixedBitsAndFields : (31 : Byte).toNat < 32 ∧ (7 : Byte).toNat < 8 := by decide

/-- An idle context of a block with `BUS_LOCK`, the answers fixed. -/
theorem witness_PciReadIsOneWriteAndOneRead :
    let s := block { Config.reference with busLock := true } [.reset] [0x12378086]
    s.ctxs[s.active]? = some .reset ∧ Context.reset.phase = .idle ∧ s.locks = [] ∧ s.pciOwner = none ∧
    s.answers = 0x12378086 :: [] := by decide

/-- Each of the three polls; with the limit 1 and without. -/
theorem witness_PollIterationReadsTestsAndLogs (lock : Bool) :
    (∃ s c, Ready s (.ataIdentify .master) c .cmdstat ∧
      pollOf (.ataIdentify .master) c.phase = some (.bsyClear, .iRMid)) ∧
    (∃ s c, Ready s (.ataIdentify .slave) c .cmdstat ∧
      pollOf (.ataIdentify .slave) c.phase = some (.drqOrErr, .iData)) ∧
    (∃ s c, Ready s (.ataReadSector 1) c .cmdstat ∧ pollOf (.ataReadSector 1) c.phase = some (.drqSet, .rData)) :=
  ⟨⟨_, _, ready_block lock _ .iBsy [0x58] _, rfl⟩, ⟨_, _, ready_block lock _ .iDrq [0x80] _, rfl⟩,
    ⟨_, _, ready_block lock _ .rDrq [0x51] _, rfl⟩⟩

/-- A block whose poll limit is `n`, READ_SECTOR in its poll. -/
def polling (n : Word) : State :=
  block { Config.reference with pollLimit := some n } [inFlight (.ataReadSector 0) .rDrq] [0x51, 0x51, 0x51, 0x51]

/-- V-RS-8b, and the limit 1. -/
theorem witness_BoundedPollEndsWithinItsLimit (n : Word) (hn : n = 1 ∨ n = 4) :
    Ready (polling n) (.ataReadSector 0) (inFlight (.ataReadSector 0) .rDrq) .cmdstat ∧ (polling n).locks = [] ∧
    (inFlight (.ataReadSector 0) .rDrq).phase = .rDrq ∧
    pollOf (.ataReadSector 0) .rDrq = some (.drqSet, .rData) ∧ (inFlight (.ataReadSector 0) .rDrq).iter = 0 ∧
    (polling n).cfg.pollLimit = some n ∧ n ≠ 0 :=
  ⟨⟨rfl, rfl, by simp [polling, block, State.start], by simp [polling, block, State.start, Config.reference]⟩, rfl, rfl, rfl,
    rfl, rfl, by rcases hn with rfl | rfl <;> decide⟩

/-- V-ID-7: BSY read set, twice, and no answer after. -/
theorem witness_UnboundedPollSpinsWhileItsConditionFails :
    ∃ s c, Ready s (.ataIdentify .master) c .cmdstat ∧ s.locks = [] ∧
      pollOf (.ataIdentify .master) c.phase = some (.bsyClear, .iRMid) ∧ c.iter = 0 ∧ s.cfg.pollLimit = none ∧
      s.answers = [0x80, 0xFF] ++ [] ∧ ∀ a ∈ ([0x80, 0xFF] : List Word), condHolds .bsyClear (a.setWidth 8) = false :=
  ⟨_, _, ready_block false _ .iBsy [0x80, 0xFF] _, rfl, rfl, rfl, rfl, rfl, by simp [condHolds]⟩

/-- Each of the six writes. -/
theorem witness_IdentifyPerformsItsSixWrites (d : Drive) :
    ∀ r ∈ identifyWrites .reference d,
      Ready (block .reference [inFlight (.ataIdentify d) r.phase] []) (.ataIdentify d) (inFlight (.ataIdentify d) r.phase)
        r.handle ∧ (inFlight (.ataIdentify d) r.phase).phase = r.phase :=
  fun _ _ => ⟨ready_block false _ _ _ _, rfl⟩

/-- The read-back answered 0 and answered 0x80. -/
theorem witness_IdentifyReadBackSignalsAbsent (a : Word) (h : a = 0 ∨ a = 0x80) :
    ∃ s c, Ready s (.ataIdentify .master) c .cmdstat ∧ c.phase = .iS0 ∧ (oracleByte s .cmdstat = 0 ↔ a = 0) :=
  ⟨_, _, ready_block false _ .iS0 [a] _, rfl, by rcases h with rfl | rfl <;> decide⟩

theorem witness_IdentifyReadsLbaMidIntoSig :
    ∃ s c, Ready s (.ataIdentify .master) c .lbaMid ∧ c.phase = .iRMid ∧ oracleByte s .lbaMid = 0x14 :=
  ⟨_, _, ready_block false _ .iRMid [0x14] _, rfl, by decide⟩

/-- The signature bytes 0 and 0, and 0 and 0xEB. -/
theorem witness_IdentifyReadsLbaHighAndSignalsNotAta (a : Word) (h : a = 0 ∨ a = 0xEB) :
    ∃ s c, Ready s (.ataIdentify .master) c .lbaHi ∧ c.phase = .iRHi ∧ c.sig.extractLsb' 8 8 = 0 ∧
      (oracleByte s .lbaHi = 0 ↔ a = 0) :=
  ⟨_, _, ready_block false _ .iRHi [a] _, rfl, by decide, by rcases h with rfl | rfl <;> decide⟩

/-- Command `i` in its data phase `p` with `k` words stored, word `j` being `j`. -/
def storing (i : Instr) (p : Phase) (k : Nat) : Context :=
  { inFlight i p with idx := k, buf := (List.range k).map fun j => (j, BitVec.ofNat 16 j) }

theorem ready_storing (i : Instr) (p : Phase) (k : Nat) (a : Word) (h : Handle) :
    Ready (block .reference [storing i p k] [a]) i (storing i p k) h :=
  ⟨rfl, rfl, by simp [block, State.start], by simp [block, State.start, Config.reference]⟩

/-- The first data word and the last but one. -/
theorem witness_IdentifyStoresEachDataWord (k : Nat) (h : k = 0 ∨ k = 254) :
    ∃ s c, Ready s (.ataIdentify .master) c .data ∧ c.phase = .iData ∧ c.idx = k ∧ c.idx < 255 :=
  ⟨_, _, ready_storing _ .iData k 0x0040 _, rfl, rfl, by rcases h with rfl | rfl <;> decide⟩

theorem witness_IdentifyCompletesWithTheDecodedRecord :
    ∃ s c, Ready s (.ataIdentify .master) c .data ∧ c.phase = .iData ∧ c.idx = 255 ∧
      ∀ k < 255, (Memory.read c.buf k).isSome = true := by
  refine ⟨_, _, ready_storing _ .iData 255 0x0040 _, rfl, rfl, fun k hk => ?_⟩
  rw [Memory.read_isSome_iff]
  simpa [storing] using hk

/-- A sector's worth of data words. -/
def anyWords : List Word := List.replicate 256 0xA55A

theorem anyWords_length : anyWords.length = 256 := List.length_replicate

/-- V-ID-4: an ATAPI signature, ERR in the last poll, 256 words. -/
theorem witness_IdentifyRunsToCompletion :
    let s := block { Config.reference with busLock := true, pollLimit := some 2 } [.reset]
      ([0x51] ++ [0xD1] ++ [0x51, 0x14, 0xEB] ++ [0x80] ++ 0x51 :: anyWords ++ [])
    s.ctxs[s.active]? = some .reset ∧ Context.reset.phase = .idle ∧ s.locks = [] ∧ s.ataOwner = none ∧
    s.cfg.earlyAbort = false ∧
    s.answers = 0x51 :: [0xD1] ++ 0x51 :: 0x14 :: 0xEB :: [0x80] ++ 0x51 :: anyWords ++ [] ∧
    (∀ a ∈ ([0xD1] : List Word), condHolds .bsyClear (a.setWidth 8) = false) ∧
    condHolds .bsyClear ((0x51 : Word).setWidth 8) = true ∧
    (∀ a ∈ ([0x80] : List Word), condHolds .drqOrErr (a.setWidth 8) = false) ∧
    condHolds .drqOrErr ((0x51 : Word).setWidth 8) = true ∧
    (∀ n, s.cfg.pollLimit = some n → 1 < n.toNat ∧ 1 < n.toNat) ∧ anyWords.length = 256 :=
  ⟨rfl, rfl, rfl, rfl, rfl, rfl, by simp [condHolds], by decide, by simp [condHolds], by decide, fun n h => by cases h; decide, anyWords_length⟩

/-- Each of the six writes. -/
theorem witness_ReadSectorPerformsItsSixWrites (lba : Word) :
    ∀ r ∈ sectorWrites lba,
      Ready (block .reference [inFlight (.ataReadSector lba) r.phase] []) (.ataReadSector lba)
        (inFlight (.ataReadSector lba) r.phase) r.handle ∧ (inFlight (.ataReadSector lba) r.phase).phase = r.phase :=
  fun _ _ => ⟨ready_block false _ _ _ _, rfl⟩

/-- The first data word, the last but one and the last. -/
theorem witness_ReadSectorStoresEachDataWord (k : Nat) (h : k = 0 ∨ k = 254 ∨ k = 255) :
    ∃ s c, Ready s (.ataReadSector 16) c .data ∧ c.phase = .rData ∧ c.idx = k ∧ c.idx < 256 :=
  ⟨_, _, ready_storing _ .rData k 0xA500 _, rfl, rfl, by rcases h with rfl | rfl | rfl <;> decide⟩

/-- V-RS-7 after one failed read: the poll of program P3. -/
theorem witness_ReadSectorRunsToCompletion :
    let s := block { Config.reference with pollLimit := some 2 } [.reset] ([0x50] ++ 0x58 :: anyWords ++ [7])
    s.ctxs[s.active]? = some .reset ∧ Context.reset.phase = .idle ∧ s.locks = [] ∧ s.cfg.busLock = false ∧
    s.answers = [0x50] ++ 0x58 :: anyWords ++ [7] ∧
    (∀ a ∈ ([0x50] : List Word), condHolds .drqSet (a.setWidth 8) = false) ∧
    condHolds .drqSet ((0x58 : Word).setWidth 8) = true ∧ (∀ n, s.cfg.pollLimit = some n → 1 < n.toNat) ∧
    anyWords.length = 256 :=
  ⟨rfl, rfl, rfl, rfl, rfl, by simp [condHolds], by decide, fun n h => by cases h; decide, anyWords_length⟩

/-- V-RS-1 and V-RS-3: the accepted GO and the select write. -/
theorem witness_ReadSectorIgnoresTheTopLbaBits :
    (0x00000000 : Word).extractLsb' 0 28 = (0xF0000000 : Word).extractLsb' 0 28 ∧
    State.reset.ctxs[State.reset.active]? = some .reset ∧ Context.reset.phase = .idle ∧
    (nextOf (execs (.ataReadSector 0) 2 .reset)).isSome = true := by decide

theorem witness_SwapIsAnInvolutionOnEvenLengths :
    ([1, 2, 3, 4] : List Byte).length % 2 = 0 ∧ ([1, 2, 3] : List Byte).length % 2 = 1 := by decide

/-- Two blocks that differ in word 119 only. -/
theorem witness_DecoderIgnoresUnnamedWords :
    ∃ words words' : Nat → Half, words 119 ≠ words' 119 ∧
      ∀ k, k = 0 ∨ (10 ≤ k ∧ k ≤ 19) ∨ (23 ≤ k ∧ k ≤ 47) ∨ k = 49 ∨ k = 50 ∨ k = 53 ∨ (59 ≤ k ∧ k ≤ 61) ∨
        (100 ≤ k ∧ k ≤ 103) ∨ k = 106 ∨ k = 117 ∨ k = 118 → words k = words' k := by
  refine ⟨fun _ => 0, fun k => if k = 119 then 1 else 0, by decide, fun k hk => ?_⟩
  have other : k ≠ 119 := by omega
  simp [other]

/-- Context 1 with READ_SECTOR begun, the ATA class owned by context 0. -/
def heldState : State :=
  { block { Config.reference with busLock := true, numContexts := 2 }
      [inFlight (.ataIdentify .master) .iBsy, inFlight (.ataReadSector 0) .rSel] [] with
    ataOwner := some 0
    active := 1 }

/-- V-BL-1. -/
theorem witness_HeldContextHasNoStep :
    heldState.ctxs[heldState.active]? = some (inFlight (.ataReadSector 0) .rSel) ∧
    (inFlight (.ataReadSector 0) .rSel).op = some (.ataReadSector 0) ∧
    (inFlight (.ataReadSector 0) .rSel).phase ∈ phasesOf (.ataReadSector 0) ∧
    (inFlight (.ataReadSector 0) .rSel).idx < 256 ∧ heldState.cfg.busLock = true ∧
    heldState.owner (Instr.ataReadSector 0).busClass = some 0 ∧ 0 ≠ heldState.active := by decide

/-- A block with the one context `c`, well-formed when `c` is and has not begun. -/
theorem block_inv {cfg : Config} (hw : cfg.wf = true) (hn : cfg.numContexts = 1) {c : Context} (hc : c.Inv)
    (hs : ∀ k, ¬ c.Started k) (answers : List Word) : (block cfg [c] answers).Inv := by
  refine ⟨hw, hn.symm, rfl, ?_, fun _ k => by cases k <;> rfl, (fun k n h => by cases k <;> cases h), ?_⟩
  · simpa [block] using hc
  · intro _ k n d hd hst
    rcases List.mem_singleton.mp (List.mem_of_getElem? hd) with rfl
    exact absurd hst (hs k)

theorem witness_reset_inv : State.reset.Inv := by
  have : State.reset = block .reference [.reset] [] := rfl
  rw [this]
  exact block_inv (by decide) rfl Context.reset_inv (fun _ ⟨_, h, _⟩ => by cases h) _

/-- A well-formed state with PORT_READ accepted. -/
theorem witness_ContextStepIsExactlyOneTransaction :
    let c := Context.issued (.portRead .cmdstat) .reset
    let s := picking (.context 0) (block .reference [c] [0x50])
    s.Inv ∧ Picks s (.context 0) ∧ s.ctxs[0]? = some c ∧ c.phase ≠ .idle ∧ c.op = some (.portRead .cmdstat) ∧
    s.cfg.busLock = false := by
  refine ⟨State.Inv.of_same (block_inv (by decide) rfl (Context.Inv.issued Context.reset_inv rfl) ?_ [0x50]) rfl rfl rfl rfl
    rfl, rfl, rfl, by decide, rfl, rfl⟩
  rintro k ⟨i, hi, -, -, hp⟩
  cases hi
  exact hp rfl

/-- A step that performs a transaction, and one that does not. -/
theorem witness_EveryTransactionIsAtAHandleAndItsWidth :
    (nextOf (step (picking (.context 0) (block .reference [inFlight (.portRead .data) .pXfer] [5])))).map (·.trace)
      = some [⟨0, .read, 0x1F0, .w16, 5⟩] ∧
    (nextOf (step (picking .irq14 .reset))).map (·.trace) = some [] := by decide

/-- IDENTIFY's and READ_SECTOR's command step. -/
theorem witness_EnginesEmitOnlyTwoCommandBytes :
    (nextOf (oneStep (.ataIdentify .master) .iCmd 0)).map (·.trace) = some [⟨0, .write, 0x1F7, .w8, 0xEC⟩] ∧
    (nextOf (oneStep (.ataReadSector 0) .rCmd 0)).map (·.trace) = some [⟨0, .write, 0x1F7, .w8, 0x20⟩] := by decide

/-- Context 0 owns the ATA class and polls. -/
theorem witness_OwnedAtaBusHasNoOtherTransactions :
    let s := picking (.context 0) { heldState with answers := [0x80] }
    s.cfg.busLock = true ∧ s.ataOwner = some 0 ∧
    (nextOf (step s)).map (·.trace) = some [⟨0, .read, 0x1F7, .w8, 0x80⟩] ∧ (0x1F7 : Half) ≠ 0xCF8 ∧
    (0x1F7 : Half) ≠ 0xCFC := by decide

/-- Two contexts with `BUS_LOCK`; context 0 is issued PCI_CFG_READ and takes its first step. -/
def lockedStart : State :=
  { State.start { Config.reference with busLock := true, numContexts := 2 } with
    agenda := [.hostWrite 32 0x1000 0x10, .hostWrite 32 0x1008 1, .context 0] }

/-- The state after a step that answers one. -/
def after (s : State) : State := (nextOf (step s)).getD s

theorem reaches_after {s t : State} (h : Reaches s t) (ok : (nextOf (step t)).isSome = true) : Reaches s (after t) := by
  refine .next h ?_
  unfold after
  cases e : step t with
  | next u => rfl
  | fault r => simp [e, nextOf] at ok
  | refused r => simp [e, nextOf] at ok

theorem witness_BusLockAdmitsOneStartedContextPerClass :
    ∃ s c, Reaches lockedStart s ∧ s.ctxs[0]? = some c ∧ c.Started .pci :=
  ⟨after (after (after lockedStart)),
    { Context.issued (.pciCfgRead 0 0 0 0) .reset with cmd0 := 0x10, phase := .cRData },
    reaches_after (reaches_after (reaches_after .here (by decide)) (by decide)) (by decide), by decide,
    _, rfl, rfl, by decide, by decide⟩

/-- A context with a written record and a full buffer. -/
def finished : Context :=
  { Context.reset with
    info := some (decodeInfo vectorWords)
    buf := (List.range 256).map fun k => (k, vectorWords k) }

/-- The first and the last plain register. -/
theorem witness_HostReadsPlainRegisters (o : Nat) (ho : o = 0x000 ∨ o = 0x018) :
    let s := picking (.hostRead 32 (window 0 o)) .reset
    Picks s (.hostRead 32 (window 0 o)) ∧ s.ctxs[0]? = some .reset ∧ (o, 0) ∈ plainRegisters .reset := by
  rcases ho with rfl | rfl <;> decide

/-- `ID_SERIAL[0]` (V-DEC-1) and `ID_MODEL[9]`. -/
theorem witness_HostReadsRecordRegisters :
    let s := picking (.hostRead 32 (window 0 0x140)) (block .reference [finished] [])
    Picks s (.hostRead 32 (window 0 0x140)) ∧ s.ctxs[0]? = some finished ∧ finished.phase = .idle ∧
    finished.info = some (decodeInfo vectorWords) ∧ (0x140, 0x44434241) ∈ recordRegisters (decodeInfo vectorWords) ∧
    (0x1A4, 0) ∈ recordRegisters (decodeInfo vectorWords) := by
  refine ⟨rfl, rfl, rfl, rfl, by decide, by decide⟩

/-- The next step is a host read of `BUF[k]` of context 0, which is `c`. -/
def readingCell (k : Nat) (c : Context) : State := picking (.hostRead 32 (window 0 (0x400 + 4 * k))) (block .reference [c] [])

/-- Each clause: the last cell, written; the first, unwritten; a cell a busy context has not yet written, and one it has. -/
theorem witness_HostReadsBufferCells :
    let c := { Context.reset with buf := [(255, 0xA5FF)] }
    let d := storing (.ataReadSector 0) .rData 3
    (Picks (readingCell 255 c) (.hostRead 32 (window 0 (0x400 + 4 * 255))) ∧ (readingCell 255 c).ctxs[0]? = some c ∧
      c.phase = .idle ∧ Memory.read c.buf 255 = some 0xA5FF) ∧
    (Picks (readingCell 0 c) (.hostRead 32 (window 0 (0x400 + 4 * 0))) ∧ (readingCell 0 c).ctxs[0]? = some c ∧
      Memory.read c.buf 0 = none) ∧
    (Picks (readingCell 3 d) (.hostRead 32 (window 0 (0x400 + 4 * 3))) ∧ (readingCell 3 d).ctxs[0]? = some d ∧
      d.phase ≠ .idle ∧ Memory.read d.buf 3 = none) ∧
    (Picks (readingCell 2 d) (.hostRead 32 (window 0 (0x400 + 4 * 2))) ∧ (readingCell 2 d).ctxs[0]? = some d ∧
      d.phase ≠ .idle ∧ (Memory.read d.buf 2).isSome = true) := by decide

/-- R58: the draw of an unwritten cell has 0 in bits 31:16 while the context is busy too. -/
theorem test_busy_unwritten_cell_upper_half :
    hostValue (readingCell 3 (storing (.ataReadSector 0) .rData 3)) (window 0 (0x400 + 4 * 3)) = .draw16 := by decide

/-- The last record register of a context at reset, and of a busy one. -/
theorem witness_UnwrittenOrBusyRecordReadsAreDraws :
    let s := picking (.hostRead 32 (window 0 0x1A4)) .reset
    Picks s (.hostRead 32 (window 0 0x1A4)) ∧ s.ctxs[0]? = some .reset ∧ 0x1A4 ∈ recordOffsets ∧
    Context.reset.info = none ∧ (inFlight (.ataIdentify .master) .iS0).phase ≠ .idle := by decide

/-- The three global registers. -/
theorem witness_HostReadsGlobalRegisters :
    let s := picking (.hostRead 32 0x004) .reset
    Picks s (.hostRead 32 0x004) ∧ (0x100 : Word).getLsbD 0 = s.cfg.earlyAbort ∧
    (0x100 : Word).getLsbD 1 = s.cfg.busLock ∧ (0x100 : Word).getLsbD 2 = s.cfg.pollLimit.isSome ∧
    (0x100 : Word).extractLsb' 3 5 = 0 ∧ (0x100 : Word).extractLsb' 8 8 = BitVec.ofNat 8 s.cfg.numContexts ∧
    (0x100 : Word).extractLsb' 16 16 = 0 ∧ (0 : Word) = s.irqAckCount ∧ (0 : Word) = s.cfg.pollLimit.getD 0 := by decide

/-- The gaps at both ends, a read-only register, the global window, and a window of no context. -/
theorem witness_UnmappedOffsetsReadZeroAndIgnoreWrites :
    0x01C ∉ registerOffsets ∧ 0xFFC ∉ registerOffsets ∧ 0x010 ∉ [0x000, 0x004, 0x008, 0x00C] ∧
    0x00C ∉ [0x000, 0x004, 0x008] ∧ State.reset.ctxs[1]? = none ∧
    Picks (picking (.hostRead 32 (window 0 0xFFC)) .reset) (.hostRead 32 (window 0 0xFFC)) ∧
    Picks (picking (.hostWrite 32 (window 1 0x008) 1) .reset) (.hostWrite 32 (window 1 0x008) 1) ∧
    Picks (picking (.hostRead 32 0x00C) .reset) (.hostRead 32 0x00C) ∧
    Picks (picking (.hostWrite 32 0x000 5) .reset) (.hostWrite 32 0x000 5) := by decide

/-- Each clause: `CMD0`, `CMD1`, `CTRL` with bit 0 clear, `STATUS`, and the last cell of the buffer. -/
theorem witness_HostWritesCommandWordAndClearsOverrun (o : Nat)
    (ho : o = 0x000 ∨ o = 0x004 ∨ o = 0x008 ∨ o = 0x00C ∨ o = 0x7FC) :
    let s := picking (.hostWrite 32 (window 0 o) 4) .reset
    Picks s (.hostWrite 32 (window 0 o) 4) ∧ s.ctxs[0]? = some .reset ∧ o ∈ registerOffsets ∧
    (o = 0x008 → (4 : Word).getLsbD 0 = false) := by
  rcases ho with rfl | rfl | rfl | rfl | rfl <;> decide

theorem witness_OddHostAccessIsRefused :
    ¬ (16 = 32 ∧ 0x1000 % 4 = 0) ∧ ¬ (32 = 32 ∧ 0x1002 % 4 = 0) ∧
    Picks (picking (.hostRead 16 0x1000) .reset) (.hostRead 16 0x1000) ∧
    Picks (picking (.hostWrite 32 0x1002 0) .reset) (.hostWrite 32 0x1002 0) := by decide

theorem witness_Irq14CountsAndLogs : Picks (picking .irq14 .reset) .irq14 := by decide

theorem witness_ResetClearsEveryRegister : Picks (picking .reset heldState) .reset := by decide

/-- Two contexts, both options, a poll limit of 1. -/
theorem witness_StartStateIsWellFormed : (Config.mk 2 (some 1) true true 0xA0 0xB0).wf = true := by decide

/-- A well-formed state and a step of it. -/
theorem witness_StepKeepsTheInvariant :
    let s := picking (.hostWrite 32 0x1000 0x20) State.reset
    s.Inv ∧ (nextOf (step s)).isSome = true :=
  ⟨State.Inv.of_same witness_reset_inv rfl rfl rfl rfl rfl, by decide⟩

/-- A well-formed state of which no step is taken. -/
theorem witness_WellFormedStateNeverFaults :
    let s := picking (.hostRead 8 0x1000) State.reset
    s.Inv ∧ step s = .refused (.hostAccess 8 0x1000) :=
  ⟨State.Inv.of_same witness_reset_inv rfl rfl rfl rfl rfl, rfl⟩

/-- A step that logs and records. -/
theorem witness_LogAndTraceAreAppendOnly :
    (nextOf (step (picking (.context 0) (polling 4)))).map (fun t => (t.log, t.trace))
      = some ([.poll 0 .drqSet 1 0x51], [⟨0, .read, 0x1F7, .w8, 0x51⟩]) := by decide

theorem witness_LogInfluencesNothing :
    (nextOf (step (picking (.context 0) { polling 4 with log := [.irq14] }))).map (·.log)
      = some [.irq14, .poll 0 .drqSet 1 0x51] := by decide

/-- A step that faults (a busy context with no command latched) and a refused one. -/
theorem witness_LogInfluencesNothing_stops :
    step (picking (.context 0) (block .reference [{ inFlight (.portRead .data) .pXfer with op := none }] []))
      = .fault .sequencerLost ∧
    step (picking (.hostRead 8 0x1000) .reset) = .refused (.hostAccess 8 0x1000) := ⟨rfl, rfl⟩

/-- A step of context 0 with two contexts. -/
theorem witness_StepTouchesOneContextOnly :
    let s := picking (.context 0) { heldState with answers := [0x80] }
    (nextOf (step s)).isSome = true ∧ touches s.nextEvent 1 = false ∧ touches s.nextEvent 0 = true := by decide

/-- A host write of `CMD0` while context 0 is busy. -/
theorem witness_OnlyItsOwnStepsChangeABusyOperation :
    let s := picking (.hostWrite 32 0x1000 7) heldState
    (nextOf (step s)).isSome = true ∧ s.ctxs[0]? = some (inFlight (.ataIdentify .master) .iBsy) ∧
    (inFlight (.ataIdentify .master) .iBsy).phase ≠ .idle ∧ s.nextEvent ≠ .context 0 ∧ s.nextEvent ≠ .reset := by decide

end Sys2Proof.Tests
end

section
/-! SUPPORT. A step of a context in flight, said once for all five commands: it answers a next state, in which it has either waited
for its bus or performed one transaction (00_scope.md R11, 10_state.md R55, 41_register_file_arbiter.md R172). -/

namespace Sys2Proof.Proofs

open Sys2Proof.Machine Sys2Proof.Spec

/-- The answers of one step of command `i` in flight: it waits because its transaction is not granted, or it performs it. No fault
and no refusal is among them. -/
inductive WaitsOrAccesses (i : Instr) (s : State) : StepResult → Prop
  | waits (h : Handle) : s.granted i h = false → WaitsOrAccesses i s (.next s)
  | accesses (t : State) : Accesses i s t → WaitsOrAccesses i s (.next t)

/-- A read whose continuation answers `t` and only continues to it. -/
theorem WaitsOrAccesses.read {i : Instr} {h : Handle} {s t : State} {k : Word → State → StepResult}
    (hb : h.busClass = i.busClass) (hk : k (s.readValue h) (s.busRead i h) = .next t)
    (ht : Continues (s.busRead i h) t) : WaitsOrAccesses i s (onRead i h s k) := by
  cases hg : s.granted i h with
  | false => rw [onRead_waits hg]; exact .waits h hg
  | true => rw [onRead_granted hg, hk]; exact .accesses t ⟨h, _, hg, hb, ht, .inl rfl⟩

/-- A write whose continuation answers `t` and only continues to it. Of a command byte of the engines its value is told, as
`Accesses` asks. -/
theorem WaitsOrAccesses.write {i : Instr} {h : Handle} {v : Word} {s t : State} {k : State → StepResult}
    (hb : h.busClass = i.busClass)
    (hv : (∃ k d, i = .portWrite k d) ∨ h ≠ .cmdstat ∨
        ((∃ d, i = .ataIdentify d) ∧ v = zext32 cmdIdentify) ∨ ((∃ l, i = .ataReadSector l) ∧ v = zext32 cmdReadSectors))
    (hk : k (s.busWrite i h v) = .next t) (ht : Continues (s.busWrite i h v) t) :
    WaitsOrAccesses i s (onWrite i h v s k) := by
  cases hg : s.granted i h with
  | false => rw [onWrite_waits hg]; exact .waits h hg
  | true => rw [onWrite_granted hg, hk]; exact .accesses t ⟨h, _, hg, hb, ht, .inr ⟨v, rfl, hv⟩⟩

/-- A write of a set-up phase: no command byte, and the phase moves on. -/
theorem WaitsOrAccesses.setup {i : Instr} {h : Handle} {v : Word} {s : State} {f : Context → Context}
    (hb : h.busClass = i.busClass) (hh : h ≠ .cmdstat) (hf : KeepsCommand f) :
    WaitsOrAccesses i s (onWrite i h v s fun t => .next (t.update f)) :=
  .write hb (.inr (.inl hh)) rfl (Continues.update _ hf)

theorem keepsCommand_goTo (p : Phase) : KeepsCommand (Context.goTo p) := fun _ => ⟨rfl, rfl, rfl, rfl⟩

theorem keepsCommand_enterPoll (p : Phase) : KeepsCommand (Context.enterPoll p) := fun _ => ⟨rfl, rfl, rfl, rfl⟩

/-- The word stored in a data phase of IDENTIFY never finds an unwritten cell to decode (R218, R240): the cells below `idx` are
written, so the 256th word fills the buffer. -/
theorem identifyWord_answers {c : Context} (hc : c.Inv) (hp : c.phase = .iData) (v : Half) (u : State) :
    ∃ t, identifyWord c v u = .next t := by
  obtain ⟨-, hkeys⟩ := hc.dataCells (by simp [hp, dataPhases])
  by_cases hi : c.idx = 255
  · have hfull : Memory.full (Memory.write c.buf 255 v) = true :=
      Memory.full_of_keys (by simpa [hi] using Memory.keys_write_range hkeys v)
    simp only [identifyWord, hi, if_true, hfull]
    exact ⟨_, rfl⟩
  · simp only [identifyWord, hi, if_false]
    exact ⟨_, rfl⟩

/-- Every step of a well-formed context in flight is one of its phases' (R55): it waits or performs its one transaction. -/
theorem exec_waitsOrAccesses {i : Instr} {s : State} {c : Context} (hc : s.current = some c) (hinv : c.Inv)
    (hp : c.phase ≠ .idle) (ho : c.op = some i) : WaitsOrAccesses i s (exec i s) := by
  have hphase : c.phase ∈ phasesOf i := by
    obtain ⟨j, hj, -, hmem⟩ := hinv.inFlight hp
    rw [ho] at hj
    cases hj
    exact hmem
  have hidx : c.phase ∈ dataPhases → c.idx < 256 := fun h => (hinv.dataCells h).1
  cases i with
  | portRead h =>
    rw [exec_portRead, execPortRead, runCommand_inFlight hc hp ho]
    split
    · exact .read rfl rfl (Continues.finish _ _ _)
    · simp_all [phasesOf]
  | portWrite h data =>
    rw [exec_portWrite, execPortWrite, runCommand_inFlight hc hp ho]
    split
    · exact .write rfl (.inl ⟨_, _, rfl⟩) rfl (Continues.finish _ _ _)
    · simp_all [phasesOf]
  | pciCfgRead bus slot func off =>
    rw [exec_pciCfgRead, execPciCfgRead, runCommand_inFlight hc hp ho]
    split
    · exact .setup rfl (by decide) (keepsCommand_goTo _)
    · exact .read rfl rfl (Continues.finish _ _ _)
    · simp_all [phasesOf]
  | ataIdentify d =>
    rw [exec_ataIdentify, execAtaIdentify, runCommand_inFlight hc hp ho]
    split
    · exact .setup rfl (by decide) (keepsCommand_goTo _)
    · exact .setup rfl (by decide) (keepsCommand_goTo _)
    · exact .setup rfl (by decide) (keepsCommand_goTo _)
    · exact .setup rfl (by decide) (keepsCommand_goTo _)
    · exact .setup rfl (by decide) (keepsCommand_goTo _)
    · exact .write rfl (.inr (.inr (.inl ⟨⟨d, rfl⟩, rfl⟩))) rfl (Continues.update _ (keepsCommand_goTo _))
    · exact .read rfl rfl (Continues.readBack _ _)
    · exact .read rfl rfl (Continues.pollStep _ _ _ _ _)
    · exact .read rfl rfl (Continues.update _ fun _ => ⟨rfl, rfl, rfl, rfl⟩)
    · exact .read rfl rfl (Continues.signature _ _ _)
    · exact .read rfl rfl (Continues.pollStep _ _ _ _ _)
    · next hdata =>
      rw [if_pos (hidx (by simp [hdata, dataPhases]))]
      obtain ⟨t, ht⟩ := identifyWord_answers hinv hdata ((s.readValue .data).setWidth 16) (s.busRead (.ataIdentify d) .data)
      exact .read rfl ht (Continues.identifyWord ht)
    · simp_all [phasesOf]
  | ataReadSector lba =>
    rw [exec_ataReadSector, execAtaReadSector, runCommand_inFlight hc hp ho]
    split
    · exact .setup rfl (by decide) (keepsCommand_goTo _)
    · exact .setup rfl (by decide) (keepsCommand_goTo _)
    · exact .setup rfl (by decide) (keepsCommand_goTo _)
    · exact .setup rfl (by decide) (keepsCommand_goTo _)
    · exact .setup rfl (by decide) (keepsCommand_goTo _)
    · exact .write rfl (.inr (.inr (.inr ⟨⟨lba, rfl⟩, rfl⟩))) rfl (Continues.update _ (keepsCommand_enterPoll _))
    · exact .read rfl rfl (Continues.pollStep _ _ _ _ _)
    · next hdata =>
      rw [if_pos (hidx (by simp [hdata, dataPhases]))]
      exact .read rfl rfl (Continues.sectorWord _ _ _)
    · simp_all [phasesOf]

/-- A transaction is one event at the end of the trace, of the active context. -/
theorem accesses_trace {i : Instr} {s t : State} (h : Accesses i s t) :
    ∃ e, t.trace = s.trace ++ [e] ∧ e.ctx = s.active := by
  obtain ⟨k, u, -, -, ht, rfl | ⟨v, rfl, -⟩⟩ := h
  · exact ⟨_, ht.trace, rfl⟩
  · exact ⟨_, ht.trace, rfl⟩

/-- A pick of a context in flight runs its latched command on it (R55). -/
theorem step_context_inFlight {s : State} {n : Nat} {c : Context} {i : Instr} (hpick : Picks s (.context n))
    (hc : s.ctxs[n]? = some c) (hp : c.phase ≠ .idle) (ho : c.op = some i) :
    step s = exec i (s.dropEvent.select n) := by
  rw [step, hpick]
  simp [runEvent, contextStep, hc, hp, ho]

/-- In a well-formed state every lock is free, so a context that no owner register holds back is granted every handle (R33, R172). -/
theorem granted_of_ownerFree {s : State} {n : Nat} {i : Instr} (hinv : s.Inv)
    (hown : s.cfg.busLock = true → s.owner i.busClass = none ∨ s.owner i.busClass = some n) (h : Handle) :
    (s.dropEvent.select n).granted i h = true :=
  (State.granted_iff _ i h).mpr ⟨by simp [hinv.locksFree], hown⟩

/-- Settles O38: the context's step is its command's, which waits or performs one transaction; with its class not held and every
lock free it cannot wait. -/
theorem contextStepIsExactlyOneTransaction : Obligations.ContextStepIsExactlyOneTransaction := by
  intro s n c i hinv hpick hc hp ho hown
  have hstep := exec_waitsOrAccesses (s := s.dropEvent.select n) hc (hinv.contextInv c (List.mem_of_getElem? hc)) hp ho
  rw [← step_context_inFlight hpick hc hp ho] at hstep
  generalize hr : step s = r at hstep ⊢
  cases hstep with
  | waits h hg => simp [granted_of_ownerFree hinv hown h] at hg
  | accesses t ht =>
    obtain ⟨e, htrace, hctx⟩ := accesses_trace ht
    exact ⟨t, e, rfl, htrace, hctx⟩

end Sys2Proof.Proofs
end

section
/-! SUPPORT. One step of the machine, said once: everything the picked agent's step can do when it answers a next state
(41_register_file_arbiter.md R173). -/

namespace Sys2Proof.Proofs

open Sys2Proof.Machine Sys2Proof.Spec

/-- The one check the decoder makes of an operand's size (R117). -/
theorem decodePortWrite_wellFormed {w : CmdWord} {i : Instr} (h : decodePortWrite w = .ok i) : i.wellFormed = true := by
  simp only [decodePortWrite] at h
  split at h
  · cases h
  · split at h
    · cases h
    · split at h
      next hfits => cases h; exact decide_eq_true hfits
      · cases h

/-- The decoder answers well-formed commands only (R117, R118). -/
theorem decode_wellFormed {w : CmdWord} {i : Instr} (h : decode w = .ok i) : i.wellFormed = true := by
  simp only [decode] at h
  split_ifs at h
  · simp only [decodePortRead] at h
    split_ifs at h
    split at h
    · cases h
    · cases h; rfl
  · exact decodePortWrite_wellFormed h
  · simp only [decodePciCfgRead] at h
    split_ifs at h
    cases h; rfl
  · simp only [decodeAtaIdentify] at h
    split_ifs at h
    cases h; rfl
  · simp only [decodeAtaReadSector] at h
    split_ifs at h
    cases h; rfl

/-- A host write that is no GO changes nothing, or one context by the register the offset names (R57, R59). -/
theorem hostWrite_cases (s : State) (off : Nat) (v : Word) :
    s.hostWrite off v = s ∨
      ∃ r, s.hostWrite off v = { s with ctxs := s.ctxs.modify (off / 0x1000 - 1) (Context.hostWrite r v) } := by
  simp only [State.hostWrite]
  split
  · exact .inl rfl
  · split
    · exact .inl rfl
    next r _ => exact .inr ⟨r, rfl⟩

/-- The write-1-to-clear of `OVERRUN` (R40). -/
theorem status_hostWrite_eq (st : Status) (v : Word) :
    st.hostWrite v = { st with overrun := st.overrun && !v.getLsbD 2 } := by
  cases hv : v.getLsbD 2 <;> simp only [Status.hostWrite, hv] <;> simp

/-- What a host write can change of a context: `CMD0`, `CMD1` and `OVERRUN` (R38, R40). -/
theorem context_hostWrite_eq (r : CtxReg) (v : Word) (c : Context) :
    ∃ cmd0 cmd1 overrun, Context.hostWrite r v c =
      { c with cmd0 := cmd0, cmd1 := cmd1, status := { c.status with overrun := overrun } } := by
  cases r with
  | cmd0 => exact ⟨v, c.cmd1, c.status.overrun, rfl⟩
  | cmd1 => exact ⟨c.cmd0, v, c.status.overrun, rfl⟩
  | status => exact ⟨c.cmd0, c.cmd1, c.status.overrun && !v.getLsbD 2, by rw [Context.hostWrite, status_hostWrite_eq]⟩
  | _ => exact ⟨c.cmd0, c.cmd1, c.status.overrun, rfl⟩

/-- Everything the step of the agent that `e` names can do when it answers a next state. -/
inductive AgentStep (s : State) : Event → State → Prop
  | passedOver (e : Event) : AgentStep s e s
  | hostRead (width off : Nat) : AgentStep s (.hostRead width off) (s.hostRead off)
  | hostWrite (width off : Nat) (v : Word) : goTarget off v = none → AgentStep s (.hostWrite width off v) (s.hostWrite off v)
  | badCommand (width off : Nat) (v : Word) (n : Nat) (c : Context) : goTarget off v = some n → s.ctxs[n]? = some c →
      c.phase = .idle → AgentStep s (.hostWrite width off v) (s.select n).badCommand
  | issue (width off : Nat) (v : Word) (n : Nat) (c : Context) (i : Instr) : goTarget off v = some n →
      s.ctxs[n]? = some c → c.phase = .idle → i.wellFormed = true → AgentStep s (.hostWrite width off v) ((s.select n).issue i)
  | overrun (width off : Nat) (v : Word) (n : Nat) (c : Context) : goTarget off v = some n → s.ctxs[n]? = some c →
      c.phase ≠ .idle → AgentStep s (.hostWrite width off v) (s.select n).overrun
  | command (n : Nat) (c : Context) (i : Instr) (t : State) : s.ctxs[n]? = some c → c.phase ≠ .idle → c.op = some i →
      exec i (s.select n) = .next t → AgentStep s (.context n) t
  | irq14 : AgentStep s .irq14 s.takeIrq14
  | reset : AgentStep s .reset s.takeReset

theorem agentStep_of_goStep {s t : State} {n off : Nat} {v : Word} (width : Nat) (hgo : goTarget off v = some n)
    (h : goStep n s = .next t) : AgentStep s (.hostWrite width off v) t := by
  simp only [goStep] at h
  split at h
  · cases h; exact .passedOver _
  next c hc =>
    split at h
    next hp =>
      split at h
      · cases h; exact .badCommand _ _ _ n c hgo hc hp
      next i hd =>
        have hw := decode_wellFormed hd
        rw [exec_idle (s := s.select n) hc hp hw] at h
        cases h
        exact .issue _ _ _ n c i hgo hc hp hw
    next hp => cases h; exact .overrun _ _ _ n c hgo hc hp

theorem agentStep_of_contextStep {s t : State} {n : Nat} (h : contextStep n s = .next t) :
    AgentStep s (.context n) t := by
  simp only [contextStep] at h
  split at h
  · cases h; exact .passedOver _
  next c hc =>
    split at h
    · cases h; exact .passedOver _
    next hp =>
      split at h
      · cases h
      next i ho => exact .command n c i t hc hp ho h

theorem agentStep_of_runEvent {e : Event} {s t : State} (h : runEvent e s = .next t) : AgentStep s e t := by
  cases e with
  | hostRead width off =>
    simp only [runEvent, hostReadStep] at h
    split at h
    · cases h; exact .hostRead _ _
    · cases h
  | hostWrite width off v =>
    simp only [runEvent, hostWriteStep] at h
    split at h
    · split at h
      next hgo => exact agentStep_of_goStep _ hgo h
      next hgo => cases h; exact .hostWrite _ _ _ hgo
    · cases h
  | context n => exact agentStep_of_contextStep h
  | irq14 => cases h; exact .irq14
  | reset => cases h; exact .reset

/-- The step of a state is its picked agent's, the pick being made. -/
theorem agentStep_of_step {s t : State} (h : step s = .next t) : AgentStep s.dropEvent s.nextEvent t :=
  agentStep_of_runEvent h

/-- Settles O7: the pick of a context in flight is its latched command's step on it. -/
theorem contextStepRunsTheLatchedCommand : Obligations.ContextStepRunsTheLatchedCommand :=
  fun _ _ _ _ hpick hc hp ho => step_context_inFlight hpick hc hp ho

end Sys2Proof.Proofs
end

section
/-! SUPPORT. The log and the trace only grow, and no step changes the parameters or the number of contexts (10_state.md R36,
R37). -/

namespace Sys2Proof.Proofs

open Sys2Proof.Machine Sys2Proof.Spec

/-- `t` has every event of `s`, in order and before its own, the same parameters and as many contexts. -/
def Extends (s t : State) : Prop :=
  (∃ es, t.log = s.log ++ es) ∧ (∃ es, t.trace = s.trace ++ es) ∧ t.cfg = s.cfg ∧ t.ctxs.length = s.ctxs.length

theorem Extends.of_same_events {s t : State} (hlog : t.log = s.log) (htrace : t.trace = s.trace) (hcfg : t.cfg = s.cfg)
    (hctxs : t.ctxs.length = s.ctxs.length) : Extends s t :=
  ⟨⟨[], by simp [hlog]⟩, ⟨[], by simp [htrace]⟩, hcfg, hctxs⟩

theorem Extends.refl (s : State) : Extends s s := .of_same_events rfl rfl rfl rfl

/-- A transaction is one event of the trace; what follows it in its step only appends to the log. -/
theorem Extends.of_accesses {i : Instr} {s t : State} (h : Accesses i s t) : Extends s t := by
  obtain ⟨e, htrace, -⟩ := accesses_trace h
  obtain ⟨k, u, -, -, ht, hu⟩ := h
  obtain ⟨es, hlog⟩ := ht.log
  obtain ⟨f, hctxs, -⟩ := ht.ctxs
  obtain rfl | ⟨v, rfl, -⟩ := hu
  · exact ⟨⟨es, hlog⟩, ⟨[e], htrace⟩, ht.cfg, by simp [hctxs]⟩
  · exact ⟨⟨es, hlog⟩, ⟨[e], htrace⟩, ht.cfg, by simp [hctxs]⟩

theorem Extends.of_exec {i : Instr} {s t : State} (h : exec i s = .next t) : Extends s t := by
  cases exec_next_cases h with
  | waits => exact .refl s
  | accepted => exact .of_same_events rfl rfl rfl (by simp)
  | bad => exact .of_same_events rfl rfl rfl (by simp)
  | turnedAway => exact .of_same_events rfl rfl rfl (by simp)
  | accesses _ _ _ _ _ ha => exact .of_accesses ha

theorem Extends.of_agentStep {e : Event} {s t : State} (h : AgentStep s e t) : Extends s t := by
  cases h with
  | passedOver => exact .refl s
  | hostRead => exact .of_same_events rfl rfl rfl rfl
  | hostWrite _ off v =>
    rcases hostWrite_cases s off v with h | ⟨r, h⟩ <;> rw [h]
    · exact .refl s
    · exact .of_same_events rfl rfl rfl (by simp)
  | badCommand => exact .of_same_events rfl rfl rfl (by simp)
  | issue => exact .of_same_events rfl rfl rfl (by simp)
  | overrun => exact .of_same_events rfl rfl rfl (by simp)
  | command n c i _ _ _ _ hexec => exact Extends.of_exec (s := s.select n) hexec
  | irq14 => exact ⟨⟨[.irq14], rfl⟩, ⟨[], by simp⟩, rfl, rfl⟩
  | reset => exact .of_same_events rfl rfl rfl (by simp)

/-- Settles O57: the pick changes neither list, and then each agent's step only appends. -/
theorem logAndTraceAreAppendOnly : Obligations.LogAndTraceAreAppendOnly :=
  fun s _ h => Extends.of_agentStep (s := s.dropEvent) (agentStep_of_step h)

end Sys2Proof.Proofs
end

section
/-! SUPPORT. The invariant of the whole state: which changes of one context and of the owner registers keep it
(41_register_file_arbiter.md R172), and the context a transaction may leave behind. -/

namespace Sys2Proof.Proofs

open Sys2Proof.Machine Sys2Proof.Spec

/-! ### One context changes -/

/-- With `BUS_LOCK`, a context owns a class exactly when it is past the first transaction of a command of that class (R172). -/
theorem owner_eq_iff_started {s : State} (hs : s.Inv) (hb : s.cfg.busLock = true) {n : Nat} {c : Context}
    (hc : s.ctxs[n]? = some c) (k : BusClass) : s.owner k = some n ↔ c.Started k := by
  refine ⟨fun h => ?_, hs.startedOwns hb k n c hc⟩
  obtain ⟨d, hd, hst⟩ := hs.ownerStarted k n h
  rw [hc] at hd
  cases hd
  exact hst

/-- The invariant, where one context changes to a well-formed one: the owner registers that name other contexts stay, and those
that name this one are as its new phase asks. -/
theorem inv_setContext {s t : State} (hs : s.Inv) {n : Nat} {c d : Context} (hc : s.ctxs[n]? = some c)
    (hcfg : t.cfg = s.cfg) (hlocks : t.locks = s.locks) (hctxs : t.ctxs = s.ctxs.set n d) (hd : d.Inv)
    (habsent : s.cfg.busLock = false → ∀ k, t.owner k = none)
    (hothers : ∀ k m, m ≠ n → (t.owner k = some m ↔ s.owner k = some m))
    (hself : s.cfg.busLock = true → ∀ k, t.owner k = some n ↔ d.Started k) : t.Inv := by
  have hlt : n < s.ctxs.length := (List.getElem?_eq_some_iff.mp hc).1
  have hn : t.ctxs[n]? = some d := by rw [hctxs, List.getElem?_set_self hlt]
  have hm : ∀ m, m ≠ n → t.ctxs[m]? = s.ctxs[m]? := fun m h => by rw [hctxs, List.getElem?_set_ne (Ne.symm h)]
  refine ⟨by rw [hcfg]; exact hs.cfgWf, by rw [hctxs, hcfg, List.length_set]; exact hs.contexts,
    by rw [hlocks]; exact hs.locksFree, fun x hx => ?_, by rw [hcfg]; exact habsent, fun k m hk => ?_,
    fun hb k m x hx hst => ?_⟩
  · rw [hctxs] at hx
    rcases List.mem_or_eq_of_mem_set hx with h | rfl
    · exact hs.contextInv x h
    · exact hd
  · by_cases h : m = n
    · subst h
      cases hb : s.cfg.busLock with
      | false => simp [habsent hb] at hk
      | true => exact ⟨d, hn, (hself hb k).mp hk⟩
    · rw [hm m h]
      exact hs.ownerStarted k m ((hothers k m h).mp hk)
  · rw [hcfg] at hb
    by_cases h : m = n
    · subst h
      rw [hn] at hx
      cases hx
      exact (hself hb k).mpr hst
    · rw [hm m h] at hx
      exact (hothers k m h).mpr (hs.startedOwns hb k m x hx hst)

/-- The invariant, where one context changes and is neither started nor stopped: the owner registers stay. -/
theorem inv_modifyContext {s t : State} (hs : s.Inv) (n : Nat) (f : Context → Context)
    (hcfg : t.cfg = s.cfg) (hlocks : t.locks = s.locks) (howner : ∀ k, t.owner k = s.owner k)
    (hctxs : t.ctxs = s.ctxs.modify n f)
    (hf : ∀ c, s.ctxs[n]? = some c → (f c).Inv ∧ ∀ k, (f c).Started k ↔ c.Started k) : t.Inv := by
  cases hc : s.ctxs[n]? with
  | none =>
    have hsame : s.ctxs.modify n f = s.ctxs := by rw [List.modify_eq_set_getElem?, hc]; rfl
    exact hs.of_same hcfg hlocks (hctxs.trans hsame) (howner .ata) (howner .pci)
  | some c =>
    obtain ⟨hinv, hst⟩ := hf c hc
    refine inv_setContext hs hc hcfg hlocks (d := f c) ?_ hinv ?_ ?_ ?_
    · rw [hctxs, List.modify_eq_set_getElem?, hc]; rfl
    · exact fun hb k => (howner k).trans (hs.ownersAbsent hb k)
    · exact fun k m _ => by rw [howner]
    · exact fun hb k => by rw [howner, hst, owner_eq_iff_started hs hb hc]

/-- An idle context is past no first transaction. -/
theorem not_started_of_idle {c : Context} (hp : c.phase = .idle) (k : BusClass) : ¬ c.Started k :=
  fun ⟨_, _, _, h, _⟩ => h hp

/-- A context in the first phase of its command has made no transaction. -/
theorem not_started_issued (i : Instr) (c : Context) (k : BusClass) : ¬ (Context.issued i c).Started k := by
  rintro ⟨j, hj, -, -, hfirst⟩
  cases hj
  exact hfirst rfl

/-! ### What the agents other than a command's transactions do -/

/-- No clause of the invariant and no owner looks at `CMD0`, `CMD1` or `OVERRUN`. -/
theorem contextInv_hostWrite {c : Context} (hc : c.Inv) (r : CtxReg) (v : Word) :
    (Context.hostWrite r v c).Inv ∧ ∀ k, (Context.hostWrite r v c).Started k ↔ c.Started k := by
  obtain ⟨cmd0, cmd1, overrun, h⟩ := context_hostWrite_eq r v c
  rw [h]
  exact ⟨hc.setRegisters hc.sigTop cmd0 cmd1 c.iter c.last overrun c.status.absentSeen c.status.notAtaSeen, fun _ => Iff.rfl⟩

/-- A GO to a busy context sets its `OVERRUN` and no more (R308). -/
theorem contextInv_overrun {c : Context} (hc : c.Inv) :
    Context.Inv { c with status := { c.status with overrun := true } } :=
  hc.setRegisters hc.sigTop c.cmd0 c.cmd1 c.iter c.last true c.status.absentSeen c.status.notAtaSeen

/-- The context a BAD_COMMAND leaves (R303): no command latched, `RESULT` 0, the buffer and `REC` as they were. -/
theorem contextInv_badCommand {c : Context} (hc : c.Inv) :
    Context.Inv (Context.completed .badCommand { c.cleared with op := none }) where
  busyIffInFlight := by simp [Context.completed, Status.completed]
  inFlight := by simp [Context.completed]
  doneIffOutcome := by simp [Context.completed, Status.completed]
  busyNotDone := by simp [Context.completed, Status.completed]
  sigTop := by simp [Context.completed, Context.cleared]
  bufWf := hc.bufWf
  dataCells := by simp [Context.completed, dataPhases]
  idxZero := fun _ => rfl
  bufFresh := by simp [Context.completed, setupPhases]
  infoFresh := by simp [Context.completed]
  badCommandNoOp := fun _ => ⟨rfl, rfl⟩
  okFull := by simp [Context.completed]
  timeoutEmpty := by simp [Context.completed, Status.completed]
  infoDecodes := by simp [Context.completed]

theorem inv_hostWrite {s : State} (hs : s.Inv) (off : Nat) (v : Word) : (s.hostWrite off v).Inv := by
  rcases hostWrite_cases s off v with h | ⟨r, h⟩ <;> rw [h]
  · exact hs
  · exact inv_modifyContext hs _ _ rfl rfl (fun k => by cases k <;> rfl) rfl
      fun c hc => contextInv_hostWrite (hs.contextInv c (List.mem_of_getElem? hc)) r v

theorem inv_overrun {s : State} (hs : s.Inv) : s.overrun.Inv :=
  inv_modifyContext hs _ _ rfl rfl (fun k => by cases k <;> rfl) rfl
    fun c hc => ⟨contextInv_overrun (hs.contextInv c (List.mem_of_getElem? hc)), fun _ => Iff.rfl⟩

/-- An accepted GO: the context was idle and is in its command's first phase, so it owns nothing before and after. -/
theorem inv_issue {s : State} (hs : s.Inv) {c : Context} (hc : s.current = some c) (hp : c.phase = .idle) {i : Instr}
    (hw : i.wellFormed = true) : (s.issue i).Inv :=
  inv_modifyContext hs s.active (Context.issued i) rfl rfl (fun k => by cases k <;> rfl) rfl fun x hx => by
    cases hc.symm.trans hx
    exact ⟨(hs.contextInv c (State.current_mem hc)).issued hw,
      fun k => iff_of_false (not_started_issued i c k) (not_started_of_idle hp k)⟩

/-- An idle context owns no bus class. -/
theorem owner_ne_of_idle {s : State} (hs : s.Inv) {n : Nat} {c : Context} (hc : s.ctxs[n]? = some c) (hp : c.phase = .idle)
    (k : BusClass) : s.owner k ≠ some n := by
  intro h
  obtain ⟨d, hd, hst⟩ := hs.ownerStarted k n h
  cases hc.symm.trans hd
  exact not_started_of_idle hp k hst

/-- A GO of no command: the context was idle and is idle, so `complete` finds no owner register to give back. -/
theorem inv_badCommand {s : State} (hs : s.Inv) {c : Context} (hc : s.current = some c) (hp : c.phase = .idle) :
    s.badCommand.Inv := by
  have hown := owner_ne_of_idle hs hc hp
  refine inv_modifyContext hs s.active _ rfl rfl (fun k => ?_) s.badCommand_ctxs fun x hx => ?_
  · cases k
    · have hata : s.ataOwner ≠ some s.active := hown .ata
      simp [State.owner, hata]
    · have hpci : s.pciOwner ≠ some s.active := hown .pci
      simp [State.owner, hpci]
  · cases hc.symm.trans hx
    exact ⟨contextInv_badCommand (hs.contextInv c (State.current_mem hc)),
      fun k => iff_of_false (not_started_of_idle rfl k) (not_started_of_idle hp k)⟩

/-- A context at reset is idle, and so owns nothing. -/
theorem inv_takeReset {s : State} (hs : s.Inv) : s.takeReset.Inv := by
  have hreset : ∀ c ∈ s.takeReset.ctxs, c = .reset := fun c hc => List.eq_of_mem_replicate hc
  have hnone : ∀ k, s.takeReset.owner k = none := fun k => by cases k <;> rfl
  exact
    { cfgWf := hs.cfgWf
      contexts := by simpa using hs.contexts
      locksFree := rfl
      contextInv := fun c hc => by rw [hreset c hc]; exact Context.reset_inv
      ownersAbsent := fun _ => hnone
      ownerStarted := fun k n h => by simp [hnone] at h
      startedOwns := fun _ k n c hc hst => by
        rw [hreset c (List.mem_of_getElem? hc)] at hst
        exact absurd hst (not_started_of_idle rfl k) }

/-! ### One transaction of a command -/

/-- `d` is a context that a transaction of command `i` may leave behind: idle where the transaction completes the command, else
in flight past its first transaction. -/
structure Leaves (i : Instr) (d : Context) (completes : Bool) : Prop where
  inv : d.Inv
  latched : d.op = some i
  idle : completes = true → d.phase = .idle
  busy : completes = false → d.phase ≠ .idle
  pastFirst : completes = false → d.phase ≠ firstPhase i

/-- Such a context is past a first transaction of the command's class, exactly where the command goes on. -/
theorem Leaves.started_iff {i : Instr} {d : Context} {b : Bool} (h : Leaves i d b) (k : BusClass) :
    d.Started k ↔ b = false ∧ i.busClass = k := by
  constructor
  · rintro ⟨j, hj, hk, hp, -⟩
    cases h.latched.symm.trans hj
    exact ⟨by_contra fun hb => hp (h.idle (by simpa using hb)), hk⟩
  · rintro ⟨rfl, hk⟩
    exact ⟨i, h.latched, hk, h.busy rfl, h.pastFirst rfl⟩

/-- The invariant, after one transaction of the command in flight: its class is owned where the command goes on, and given back
where it completes (R172, R301). -/
theorem inv_transaction {s t : State} (hs : s.Inv) {i : Instr} {c d : Context} {h : Handle} {b : Bool}
    (r : Ready s i c h) (hd : Leaves i d b) (hcfg : t.cfg = s.cfg) (hlocks : t.locks = s.locks)
    (hctxs : t.ctxs = s.ctxs.set s.active d) (howner : ∀ k, t.owner k = ownerAfter s i.busClass k b) : t.Inv := by
  have hfree : s.cfg.busLock = true → ∀ m, m ≠ s.active → s.owner i.busClass ≠ some m := by
    intro hb m hm hown
    rcases r.ownerFree hb with h | h <;> simp_all
  have hclass : ∀ k, s.owner k = some s.active → k = i.busClass := by
    intro k hk
    obtain ⟨x, hx, j, hj, hjk, -⟩ := hs.ownerStarted k _ hk
    cases r.current.symm.trans hx
    cases r.latched.symm.trans hj
    exact hjk.symm
  refine inv_setContext hs r.current hcfg hlocks hctxs hd.inv ?_ ?_ ?_
  · intro hb k
    rw [howner, ownerAfter, if_pos hb, hs.ownersAbsent hb]
  · intro k m hm
    rw [howner]
    cases hb : s.cfg.busLock with
    | false => simp [ownerAfter, hb]
    | true =>
      by_cases hk : i.busClass = k
      · subst hk
        cases b <;> simp [ownerAfter, hb, hfree hb m hm, Ne.symm hm]
      · by_cases ha : s.owner k = some s.active
        · exact absurd (hclass k ha).symm hk
        · cases b <;> simp [ownerAfter, hb, hk, ha]
  · intro hb k
    rw [howner, hd.started_iff]
    by_cases hk : i.busClass = k
    · cases b <;> simp [ownerAfter, hb, hk]
    · have ha : s.owner k ≠ some s.active := fun ha => hk (hclass k ha).symm
      cases b <;> simp [ownerAfter, hb, hk, ha]

end Sys2Proof.Proofs
end

section
/-! SUPPORT. What each transaction of each command leaves behind: the phases follow one another in the order of R48, and the context
stays well-formed (10_state.md R55, 43_drive_identify.md R210, 45_pio_sector_read.md R270). -/

namespace Sys2Proof.Proofs

open Sys2Proof.Machine Sys2Proof.Spec Sys2Proof.Laws

/-! ### The order of the phases -/

/-- `q` is the phase right after `p` in command `i` (R48, R55). -/
def Follows (i : Instr) (p q : Phase) : Prop := (p, q) ∈ (phasesOf i).zip (phasesOf i).tail

/-- What the order of the phases gives the invariant: a phase with a successor is no data phase, a successor is no first phase, and
before a set-up or data phase comes a set-up phase. -/
structure PhaseStep (i : Instr) (p q : Phase) : Prop where
  source_ne_idle : p ≠ .idle
  source_not_data : p ∉ dataPhases
  target_mem : q ∈ phasesOf i
  target_ne_idle : q ≠ .idle
  target_ne_first : q ≠ firstPhase i
  setup_before : q ∈ setupPhases ∨ q ∈ dataPhases → p ∈ setupPhases

theorem Follows.phaseStep {i : Instr} {p q : Phase} (h : Follows i p q) : PhaseStep i p q := by
  have key : ∀ r ∈ (phasesOf i).zip (phasesOf i).tail, r.1 ≠ .idle ∧ r.1 ∉ dataPhases ∧ r.2 ∈ phasesOf i ∧
      r.2 ≠ .idle ∧ r.2 ≠ firstPhase i ∧ (r.2 ∈ setupPhases ∨ r.2 ∈ dataPhases → r.1 ∈ setupPhases) := by
    cases i <;> simp only [phasesOf, firstPhase] <;> decide
  obtain ⟨hidle, hdata, hmem, hbusy, hfirst, hsetup⟩ := key _ h
  exact ⟨hidle, hdata, hmem, hbusy, hfirst, hsetup⟩

/-! ### The registers a transaction writes -/

/-- The three bytes of `SIG` that IDENTIFY writes are below `SIG[31:24]` (R44). -/
theorem setSigStatus_top (sig : Word) (b : Byte) : (setSigStatus sig b).extractLsb' 24 8 = sig.extractLsb' 24 8 := by
  apply BitVec.eq_of_toNat_eq
  simp only [setSigStatus, BitVec.extractLsb'_toNat, append_toNat, Nat.shiftRight_eq_div_pow]
  omega

theorem setSigMid_top (sig : Word) (b : Byte) : (setSigMid sig b).extractLsb' 24 8 = sig.extractLsb' 24 8 := by
  apply BitVec.eq_of_toNat_eq
  simp only [setSigMid, BitVec.extractLsb'_toNat, append_toNat, Nat.shiftRight_eq_div_pow]
  omega

theorem setSigHigh_top (sig : Word) (b : Byte) : (setSigHigh sig b).extractLsb' 24 8 = sig.extractLsb' 24 8 := by
  apply BitVec.eq_of_toNat_eq
  simp only [setSigHigh, BitVec.extractLsb'_toNat, append_toNat, Nat.shiftRight_eq_div_pow]
  omega

section
variable {c : Context} (hc : c.Inv)
include hc

theorem contextInv_polled (v : Byte) : (Context.polled v c).Inv :=
  hc.setRegisters hc.sigTop c.cmd0 c.cmd1 _ _ c.status.overrun c.status.absentSeen c.status.notAtaSeen

theorem contextInv_iterZero : Context.Inv { c with iter := 0 } :=
  hc.setRegisters hc.sigTop c.cmd0 c.cmd1 _ c.last c.status.overrun c.status.absentSeen c.status.notAtaSeen

theorem contextInv_markAbsent : (Context.markAbsent c).Inv :=
  hc.setRegisters hc.sigTop c.cmd0 c.cmd1 c.iter c.last c.status.overrun true c.status.notAtaSeen

theorem contextInv_markNotAta : (Context.markNotAta c).Inv :=
  hc.setRegisters hc.sigTop c.cmd0 c.cmd1 c.iter c.last c.status.overrun c.status.absentSeen true

theorem contextInv_readBack (b : Byte) : (Context.readBack b c).Inv := by
  have hs := (setSigStatus_top c.sig b).trans hc.sigTop
  exact hc.setRegisters hs c.cmd0 c.cmd1 c.iter _ c.status.overrun c.status.absentSeen c.status.notAtaSeen

theorem contextInv_sigMid (b : Byte) : Context.Inv { c with sig := setSigMid c.sig b } := by
  have hs := (setSigMid_top c.sig b).trans hc.sigTop
  exact hc.setRegisters hs c.cmd0 c.cmd1 c.iter c.last c.status.overrun c.status.absentSeen c.status.notAtaSeen

theorem contextInv_sigHigh (b : Byte) : Context.Inv { c with sig := setSigHigh c.sig b } := by
  have hs := (setSigHigh_top c.sig b).trans hc.sigTop
  exact hc.setRegisters hs c.cmd0 c.cmd1 c.iter c.last c.status.overrun c.status.absentSeen c.status.notAtaSeen

end

/-- IDENTIFY's final outcome (R220) is one that a data phase can end with. -/
theorem identifyOutcome_dataEnd (st : Status) :
    identifyOutcome st ≠ .noneYet ∧ identifyOutcome st ≠ .badCommand ∧ identifyOutcome st ≠ .timeout := by
  simp only [identifyOutcome]
  split_ifs <;> decide

/-! ### The contexts a transaction leaves -/

section
variable {i : Instr} {c : Context} (hc : c.Inv) (ho : c.op = some i)
include hc ho

/-- A context in flight past its command's first phase. -/
theorem leaves_inFlight (hp : c.phase ≠ .idle) (hf : c.phase ≠ firstPhase i) : Leaves i c false :=
  ⟨hc, ho, nofun, fun _ => hp, fun _ => hf⟩

/-- The next phase of the command. -/
theorem leaves_goTo {q : Phase} (hf : Follows i c.phase q) : Leaves i (Context.goTo q c) false :=
  have hq := hf.phaseStep
  ⟨hc.goTo ho hq.source_ne_idle hq.target_mem hq.target_ne_idle hq.source_not_data hq.setup_before, ho, nofun,
    fun _ => hq.target_ne_idle, fun _ => hq.target_ne_first⟩

/-- The next phase of the command, a poll (R190). -/
theorem leaves_enterPoll {q : Phase} (hf : Follows i c.phase q) : Leaves i (Context.enterPoll q c) false :=
  leaves_goTo (contextInv_iterZero hc) ho hf

/-- A completion that is no last word of a data phase. -/
theorem leaves_completed (v : Word) {o : OutcomeCode} (hn : o ≠ .noneYet) (hb : o ≠ .badCommand)
    (hok : usesBuffer i = true → o ≠ .ok) (hto : o = .timeout → c.buf = []) : Leaves i (completed c v o) true :=
  ⟨hc.complete ho v hn hb (fun hu h => absurd h (hok hu)) hto, ho, fun _ => rfl, nofun, nofun⟩

/-- A data word before the last. -/
theorem leaves_storeWord (hp : c.phase ∈ dataPhases) (hi : c.idx < 255) (hf : c.phase ≠ firstPhase i) (v : Half) :
    Leaves i (Context.storeWord c.idx v c) false := by
  have hidle : c.phase ≠ .idle := by
    intro h
    simp [h, dataPhases] at hp
  exact ⟨hc.storeWord hp hi v, ho, nofun, fun _ => hidle, fun _ => hf⟩

/-- The last data word, and the completion with it; IDENTIFY has decoded the record. -/
theorem leaves_lastWord (hp : c.phase ∈ dataPhases) (hi : c.idx = 255) (w : Half) (v : Word) {o : OutcomeCode}
    (hend : o ≠ .noneYet ∧ o ≠ .badCommand ∧ o ≠ .timeout) {info : Option DeviceInfo}
    (hinfo : info = c.info ∨ info = some (decodeInfo (Memory.word (Memory.write c.buf 255 w)))) :
    Leaves i (completed { Context.storeWord c.idx w c with info := info } v o) true := by
  obtain ⟨hn, hb, hto⟩ := hend
  rw [hi]
  exact ⟨hc.lastWord hp hi w v hn hb hto hinfo, ho, fun _ => rfl, nofun, nofun⟩

end

/-! ### What follows the access in its step -/

/-- `t` is `s` after one read of command `i` at handle `h`, with a context that the command may leave behind. -/
def ReadsTo (i : Instr) (h : Handle) (s t : State) : Prop :=
  ∃ d b es, t = afterRead s i h (oracle s h) d b es ∧ Leaves i d b

section
variable {i : Instr} {h : Handle} {s : State} {c : Context} (r : Ready s i c h)
include r

theorem readsTo_update {f : Context → Context} (hl : Leaves i (f c) false) : ReadsTo i h s ((s.busRead i h).update f) :=
  ⟨f c, false, [], busRead_update r f, hl⟩

theorem readsTo_finish {v : Word} {o : OutcomeCode} (hl : Leaves i (completed c v o) true) :
    ReadsTo i h s ((s.busRead i h).finish v o) :=
  ⟨completed c v o, true, [], busRead_finish r v o, hl⟩

/-- A read, an update, a log event and an update. -/
theorem busRead_update_logEvent_update (f g : Context → Context) (e : LogEvent) :
    (((s.busRead i h).update f).logEvent e).update g = afterRead s i h (oracle s h) (g (f c)) false [e] := by
  rw [busRead_update r, afterRead_logEvent, afterRead_update r.current]
  rfl

/-- A read, an update, a log event and a completion. -/
theorem busRead_update_logEvent_finish (f : Context → Context) (e : LogEvent) (v : Word) (o : OutcomeCode) :
    (((s.busRead i h).update f).logEvent e).finish v o = afterRead s i h (oracle s h) (completed (f c) v o) true [e] := by
  rw [busRead_update r, afterRead_logEvent, afterRead_finish r.current]
  rfl

/-- Two updates after a read are one. -/
theorem busRead_update_update (f g : Context → Context) :
    ((s.busRead i h).update f).update g = (s.busRead i h).update (g ∘ f) := by
  rw [busRead_update r, afterRead_update r.current, busRead_update r]
  rfl

variable (hc : c.Inv)
include hc

/-- A poll iteration (R191): the next phase, a TIMEOUT with the buffer still unwritten, or the poll again. -/
theorem readsTo_pollStep (hset : c.phase ∈ setupPhases) (hfirst : c.phase ≠ firstPhase i) {q : Phase}
    (hf : Follows i c.phase q) (cond : PollCond) (v : Byte) : ReadsTo i h s ((s.busRead i h).pollStep c cond q v) := by
  have hpolled := contextInv_polled hc v
  cases hcond : cond.holds v with
  | true =>
    rw [State.pollStep_holds hcond]
    exact ⟨_, _, _, busRead_update_logEvent_update r _ _ _, leaves_goTo hpolled r.latched hf⟩
  | false =>
    cases hlimit : limitReached (s.busRead i h).cfg.pollLimit (countRead c.iter) with
    | true =>
      rw [State.pollStep_timeout hcond hlimit]
      exact ⟨_, _, _, busRead_update_logEvent_finish r _ _ _ _,
        leaves_completed hpolled r.latched _ nofun nofun (fun _ => nofun) fun _ => hc.bufFresh hset⟩
    | false =>
      rw [State.pollStep_again hcond hlimit, busRead_update r, afterRead_logEvent]
      exact ⟨_, _, _, rfl, leaves_inFlight hpolled r.latched hf.phaseStep.source_ne_idle hfirst⟩

/-- The read-back of the status byte (R213, R214). -/
theorem readsTo_readBack (hf : Follows i c.phase .iBsy) (b : Byte) : ReadsTo i h s (identifyReadBack b (s.busRead i h)) := by
  have hread := contextInv_readBack hc b
  simp only [identifyReadBack]
  split
  · rw [busRead_update_update r]
    split
    · exact ⟨_, _, _, busRead_update_logEvent_finish r _ _ _ _,
        leaves_completed (contextInv_markAbsent hread) r.latched _ nofun nofun (fun _ => nofun) nofun⟩
    · exact ⟨_, _, _, busRead_update_logEvent_update r _ _ _, leaves_enterPoll (contextInv_markAbsent hread) r.latched hf⟩
  · rw [busRead_update_update r]
    exact readsTo_update r (leaves_enterPoll hread r.latched hf)

/-- The LBA-high byte (R215, R216). -/
theorem readsTo_signature (hf : Follows i c.phase .iDrq) (b : Byte) :
    ReadsTo i h s (identifySignature c b (s.busRead i h)) := by
  have hread := contextInv_sigHigh hc b
  simp only [identifySignature]
  split
  · rw [busRead_update_update r]
    split
    · exact ⟨_, _, _, busRead_update_logEvent_finish r _ _ _ _,
        leaves_completed (contextInv_markNotAta hread) r.latched _ nofun nofun (fun _ => nofun) nofun⟩
    · exact ⟨_, _, _, busRead_update_logEvent_update r _ _ _, leaves_enterPoll (contextInv_markNotAta hread) r.latched hf⟩
  · rw [busRead_update_update r]
    exact readsTo_update r (leaves_enterPoll hread r.latched hf)

/-- A data word of READ_SECTOR (R276). -/
theorem readsTo_sectorWord (hp : c.phase ∈ dataPhases) (hfirst : c.phase ≠ firstPhase i) (w : Half) :
    ReadsTo i h s (sectorWord c w (s.busRead i h)) := by
  obtain ⟨hlt, -⟩ := hc.dataCells hp
  simp only [sectorWord]
  split
  next hi =>
    rw [busRead_update r, afterRead_finish r.current]
    exact ⟨_, _, _, rfl, leaves_lastWord hc r.latched hp hi w _ (o := .ok) (by decide) (.inl rfl)⟩
  next hi => exact readsTo_update r (leaves_storeWord hc r.latched hp (by omega) hfirst w)

/-- A data word of IDENTIFY (R218 to R220). -/
theorem readsTo_identifyWord (hp : c.phase ∈ dataPhases) (hfirst : c.phase ≠ firstPhase i) {w : Half} {t : State}
    (ht : identifyWord c w (s.busRead i h) = .next t) : ReadsTo i h s t := by
  obtain ⟨hlt, -⟩ := hc.dataCells hp
  simp only [identifyWord] at ht
  split at ht
  next hi =>
    split at ht
    · cases ht
      rw [busRead_update r, afterRead_update r.current, afterRead_finish r.current]
      exact ⟨_, _, _, rfl, leaves_lastWord hc r.latched hp hi w _ (identifyOutcome_dataEnd c.status) (.inr rfl)⟩
    · cases ht
  next hi =>
    cases ht
    exact readsTo_update r (leaves_storeWord hc r.latched hp (by omega) hfirst w)

end

end Sys2Proof.Proofs
end

section
/-! SUPPORT. One step of a command in flight, for all five commands: it waits, or performs one transaction and leaves a well-formed
context. With the steps of the other agents, the invariant of the machine. -/

namespace Sys2Proof.Proofs

open Sys2Proof.Machine Sys2Proof.Spec Sys2Proof.Laws

/-! ### One step of a command in flight -/

/-- `t` is `s` after one transaction of command `i`, by the active context. -/
def Transacts (i : Instr) (s t : State) : Prop :=
  ∃ c h d b, Ready s i c h ∧ Leaves i d b ∧
    ((∃ es, t = afterRead s i h (oracle s h) d b es) ∨ ∃ v, t = afterWrite s i h v d b)

theorem inv_of_transacts {i : Instr} {s t : State} (hs : s.Inv) (h : Transacts i s t) : t.Inv := by
  obtain ⟨c, h, d, b, r, hl, ⟨es, rfl⟩ | ⟨v, rfl⟩⟩ := h
  · exact inv_transaction hs r hl rfl rfl rfl (afterRead_owner s i h _ d b es)
  · exact inv_transaction hs r hl rfl rfl rfl (afterWrite_owner s i h v d b)

section
variable {i : Instr} {h : Handle} {s t : State} {c : Context} (hc : s.current = some c) (ho : c.op = some i)
include hc ho

theorem ready_of_granted (hg : s.granted i h = true) : Ready s i c h :=
  have ⟨hlock, hown⟩ := (s.granted_iff i h).mp hg
  ⟨hc, ho, hlock, hown⟩

/-- A step that reads: it waits, or goes on from the read as `hk` says. -/
theorem transacts_of_onRead {k : Word → State → StepResult} (hr : onRead i h s k = .next t)
    (hk : Ready s i c h → ∀ v, k v (s.busRead i h) = .next t → ReadsTo i h s t) : t = s ∨ Transacts i s t := by
  rcases onRead_cases hr with rfl | ⟨hg, e⟩
  · exact .inl rfl
  · have r := ready_of_granted hc ho hg
    obtain ⟨d, b, es, ht, hl⟩ := hk r _ e
    exact .inr ⟨c, h, d, b, r, hl, .inl ⟨es, ht⟩⟩

/-- The same, where what follows the read cannot stop the machine. -/
theorem transacts_of_read {g : Word → State → State} (hr : onRead i h s (fun v u => .next (g v u)) = .next t)
    (hk : Ready s i c h → ∀ v, ReadsTo i h s (g v (s.busRead i h))) : t = s ∨ Transacts i s t :=
  transacts_of_onRead hc ho hr fun r v e => by
    cases e
    exact hk r v

/-- A step that writes and updates its context. -/
theorem transacts_of_onWrite {v : Word} {f : Context → Context}
    (hr : onWrite i h v s (fun u => .next (u.update f)) = .next t) (hl : Leaves i (f c) false) :
    t = s ∨ Transacts i s t := by
  rcases onWrite_cases hr with rfl | ⟨hg, e⟩
  · exact .inl rfl
  · have r := ready_of_granted hc ho hg
    cases e
    exact .inr ⟨c, h, f c, false, r, hl, .inr ⟨_, busWrite_update r v f⟩⟩

end

/-- A port command completes with its one transaction (R174, R175). -/
theorem execPortRead_transacts {k : Handle} {s t : State} {c : Context} (hc : s.current = some c) (hinv : c.Inv)
    (hp : c.phase ≠ .idle) (ho : c.op = some (.portRead k)) (h : exec (.portRead k) s = .next t) :
    t = s ∨ Transacts (.portRead k) s t := by
  rw [exec_portRead, execPortRead, runCommand_inFlight hc hp ho] at h
  split at h
  · exact transacts_of_read hc ho h fun r v => readsTo_finish r (leaves_completed hinv ho v nofun nofun nofun nofun)
  · cases h

theorem execPortWrite_transacts {k : Handle} {w : Word} {s t : State} {c : Context} (hc : s.current = some c) (hinv : c.Inv)
    (hp : c.phase ≠ .idle) (ho : c.op = some (.portWrite k w)) (h : exec (.portWrite k w) s = .next t) :
    t = s ∨ Transacts (.portWrite k w) s t := by
  rw [exec_portWrite, execPortWrite, runCommand_inFlight hc hp ho] at h
  split at h
  · rcases onWrite_cases h with rfl | ⟨hg, e⟩
    · exact .inl rfl
    · have r := ready_of_granted hc ho hg
      cases e
      exact .inr ⟨c, k, completed c 0 .ok, true, r, leaves_completed hinv ho 0 nofun nofun nofun nofun,
        .inr ⟨_, busWrite_finish r w 0 .ok⟩⟩
  · cases h

theorem execPciCfgRead_transacts {bus slot func off : Byte} {s t : State} {c : Context} (hc : s.current = some c)
    (hinv : c.Inv) (hp : c.phase ≠ .idle) (ho : c.op = some (.pciCfgRead bus slot func off))
    (h : exec (.pciCfgRead bus slot func off) s = .next t) : t = s ∨ Transacts (.pciCfgRead bus slot func off) s t := by
  rw [exec_pciCfgRead, execPciCfgRead, runCommand_inFlight hc hp ho] at h
  split at h
  next hph => exact transacts_of_onWrite hc ho h (leaves_goTo hinv ho (by simp [hph, Follows, phasesOf]))
  · exact transacts_of_read hc ho h fun r _ => readsTo_finish r (leaves_completed hinv ho _ nofun nofun nofun nofun)
  · cases h

theorem execAtaIdentify_transacts {d : Drive} {s t : State} {c : Context} (hc : s.current = some c) (hinv : c.Inv)
    (hp : c.phase ≠ .idle) (ho : c.op = some (.ataIdentify d)) (h : exec (.ataIdentify d) s = .next t) :
    t = s ∨ Transacts (.ataIdentify d) s t := by
  rw [exec_ataIdentify, execAtaIdentify, runCommand_inFlight hc hp ho] at h
  split at h
  next hph => exact transacts_of_onWrite hc ho h (leaves_goTo hinv ho (by simp [hph, Follows, phasesOf]))
  next hph => exact transacts_of_onWrite hc ho h (leaves_goTo hinv ho (by simp [hph, Follows, phasesOf]))
  next hph => exact transacts_of_onWrite hc ho h (leaves_goTo hinv ho (by simp [hph, Follows, phasesOf]))
  next hph => exact transacts_of_onWrite hc ho h (leaves_goTo hinv ho (by simp [hph, Follows, phasesOf]))
  next hph => exact transacts_of_onWrite hc ho h (leaves_goTo hinv ho (by simp [hph, Follows, phasesOf]))
  next hph => exact transacts_of_onWrite hc ho h (leaves_goTo hinv ho (by simp [hph, Follows, phasesOf]))
  next hph =>
    exact transacts_of_read hc ho h fun r _ => readsTo_readBack r hinv (by simp [hph, Follows, phasesOf]) _
  next hph =>
    exact transacts_of_read hc ho h fun r _ =>
      readsTo_pollStep r hinv (by simp [hph, setupPhases]) (by simp [hph, firstPhase])
        (by simp [hph, Follows, phasesOf]) _ _
  next hph =>
    exact transacts_of_read hc ho h fun r _ =>
      readsTo_update r (leaves_goTo (contextInv_sigMid hinv _) ho (by simp [hph, Follows, phasesOf]))
  next hph =>
    exact transacts_of_read hc ho h fun r _ => readsTo_signature r hinv (by simp [hph, Follows, phasesOf]) _
  next hph =>
    exact transacts_of_read hc ho h fun r _ =>
      readsTo_pollStep r hinv (by simp [hph, setupPhases]) (by simp [hph, firstPhase])
        (by simp [hph, Follows, phasesOf]) _ _
  next hph =>
    split at h
    · exact transacts_of_onRead hc ho h fun r v e =>
        readsTo_identifyWord r hinv (by simp [hph, dataPhases]) (by simp [hph, firstPhase]) e
    · cases h
  · cases h

theorem execAtaReadSector_transacts {lba : Word} {s t : State} {c : Context} (hc : s.current = some c) (hinv : c.Inv)
    (hp : c.phase ≠ .idle) (ho : c.op = some (.ataReadSector lba)) (h : exec (.ataReadSector lba) s = .next t) :
    t = s ∨ Transacts (.ataReadSector lba) s t := by
  rw [exec_ataReadSector, execAtaReadSector, runCommand_inFlight hc hp ho] at h
  split at h
  next hph => exact transacts_of_onWrite hc ho h (leaves_goTo hinv ho (by simp [hph, Follows, phasesOf]))
  next hph => exact transacts_of_onWrite hc ho h (leaves_goTo hinv ho (by simp [hph, Follows, phasesOf]))
  next hph => exact transacts_of_onWrite hc ho h (leaves_goTo hinv ho (by simp [hph, Follows, phasesOf]))
  next hph => exact transacts_of_onWrite hc ho h (leaves_goTo hinv ho (by simp [hph, Follows, phasesOf]))
  next hph => exact transacts_of_onWrite hc ho h (leaves_goTo hinv ho (by simp [hph, Follows, phasesOf]))
  next hph => exact transacts_of_onWrite hc ho h (leaves_enterPoll hinv ho (by simp [hph, Follows, phasesOf]))
  next hph =>
    exact transacts_of_read hc ho h fun r _ =>
      readsTo_pollStep r hinv (by simp [hph, setupPhases]) (by simp [hph, firstPhase])
        (by simp [hph, Follows, phasesOf]) _ _
  next hph =>
    split at h
    · exact transacts_of_read hc ho h fun r _ =>
        readsTo_sectorWord r hinv (by simp [hph, dataPhases]) (by simp [hph, firstPhase]) _
    · cases h
  · cases h

/-- A step of a command in flight: it waits, or performs one transaction and leaves a well-formed context (R55). -/
theorem exec_transacts {i : Instr} {s t : State} {c : Context} (hc : s.current = some c) (hinv : c.Inv)
    (hp : c.phase ≠ .idle) (ho : c.op = some i) (h : exec i s = .next t) : t = s ∨ Transacts i s t := by
  cases i with
  | portRead => exact execPortRead_transacts hc hinv hp ho h
  | portWrite => exact execPortWrite_transacts hc hinv hp ho h
  | pciCfgRead => exact execPciCfgRead_transacts hc hinv hp ho h
  | ataIdentify => exact execAtaIdentify_transacts hc hinv hp ho h
  | ataReadSector => exact execAtaReadSector_transacts hc hinv hp ho h

/-! ### The invariant of the machine -/

/-- No clause of the invariant looks at the environment's side or at the active context's number. -/
theorem inv_dropEvent {s : State} (hs : s.Inv) : s.dropEvent.Inv := hs.of_same rfl rfl rfl rfl rfl

theorem inv_select {s : State} (hs : s.Inv) (n : Nat) : (s.select n).Inv := hs.of_same rfl rfl rfl rfl rfl

theorem inv_of_agentStep {e : Event} {s t : State} (hs : s.Inv) (h : AgentStep s e t) : t.Inv := by
  cases h with
  | passedOver => exact hs
  | hostRead => exact hs.of_same rfl rfl rfl rfl rfl
  | hostWrite _ off v => exact inv_hostWrite hs off v
  | badCommand _ _ _ n c _ hc hp => exact inv_badCommand (inv_select hs n) hc hp
  | issue _ _ _ n c i _ hc hp hw => exact inv_issue (inv_select hs n) hc hp hw
  | overrun _ _ _ n => exact inv_overrun (inv_select hs n)
  | command n c i _ hc hp ho hexec =>
    rcases exec_transacts (s := s.select n) hc (hs.contextInv c (List.mem_of_getElem? hc)) hp ho hexec with rfl | ht
    · exact inv_select hs n
    · exact inv_of_transacts (inv_select hs n) ht
  | irq14 => exact hs.of_same rfl rfl rfl rfl rfl
  | reset => exact inv_takeReset hs

/-- Settles O55: each agent's step keeps the invariant, a command's by the order of its phases. -/
theorem stepKeepsTheInvariant : Obligations.StepKeepsTheInvariant :=
  fun _ _ hs h => inv_of_agentStep (inv_dropEvent hs) (agentStep_of_step h)

end Sys2Proof.Proofs
end

section
/-! SUPPORT. The register words the host reads, as numbers: `STATUS` and `CONFIG` by their fields (10_state.md R40, R56), and four
bytes of a text field in one register (20_memory.md R85). -/

namespace Sys2Proof.Proofs

open Sys2Proof.Machine Sys2Proof.Spec

theorem bool_toNat_injective : Function.Injective Bool.toNat := by decide

/-- Bit `i` of a register, as a number. -/
theorem bit_toNat (v : Word) (i : Nat) : (v.getLsbD i).toNat = v.toNat / 2 ^ i % 2 := Nat.toNat_testBit v.toNat i

/-- Bits `lo + n - 1` to `lo` of a register, as a number. -/
theorem bits_toNat (v : Word) (lo n : Nat) : (v.extractLsb' lo n).toNat = v.toNat / 2 ^ lo % 2 ^ n := by
  rw [BitVec.extractLsb'_toNat, Nat.shiftRight_eq_div_pow]

/-- The `STATUS` word as a number (R40). -/
theorem toWord_toNat (st : Status) : st.toWord.toNat =
    st.busy.toNat + 2 * st.done.toNat + 2 ^ 2 * st.overrun.toNat + 2 ^ 4 * st.outcome.bits.toNat +
      2 ^ 8 * st.absentSeen.toNat + 2 ^ 9 * st.notAtaSeen.toNat := by
  simp only [Status.toWord, append_toNat, bitOf, BitVec.toNat_ofBool, BitVec.toNat_ofNat]
  omega

/-- Settles O51: each field is a digit of the word's number. -/
theorem statusWordFields : Obligations.StatusWordFields := by
  intro st
  have hword := toWord_toNat st
  have hbusy := st.busy.toNat_lt
  have hdone := st.done.toNat_lt
  have hoverrun := st.overrun.toNat_lt
  have hcode := st.outcome.bits.isLt
  have habsent := st.absentSeen.toNat_lt
  have hnotAta := st.notAtaSeen.toNat_lt
  have bit {i : Nat} {b : Bool} (h : st.toWord.toNat / 2 ^ i % 2 = b.toNat) : st.toWord.getLsbD i = b :=
    bool_toNat_injective ((bit_toNat _ _).trans h)
  have bits {lo n : Nat} {x : BitVec n} (h : st.toWord.toNat / 2 ^ lo % 2 ^ n = x.toNat) :
      st.toWord.extractLsb' lo n = x := BitVec.eq_of_toNat_eq ((bits_toNat _ _ _).trans h)
  refine ⟨bit (by omega), bit (by omega), bit (by omega), bit (by rw [Bool.toNat_false]; omega),
    (bits (x := st.outcome.bits) (by omega)).trans ?_, bit (by omega), bit (by omega),
    bits (x := 0#22) (by rw [BitVec.toNat_ofNat]; omega)⟩
  cases st.outcome <;> rfl

/-- The `CONFIG` word as a number (R56). -/
theorem configWord_toNat (cfg : Config) : (configWord cfg).toNat =
    cfg.earlyAbort.toNat + 2 * cfg.busLock.toNat + 4 * cfg.pollLimit.isSome.toNat + 2 ^ 8 * (cfg.numContexts % 2 ^ 8) := by
  simp only [configWord, append_toNat, bitOf, BitVec.toNat_ofBool, BitVec.toNat_ofNat]
  omega

/-- A word with the fields of `CONFIG` is `CONFIG` (R56): the fields cover all 32 bits. -/
theorem eq_configWord {cfg : Config} {v : Word} (hearly : v.getLsbD 0 = cfg.earlyAbort) (hlock : v.getLsbD 1 = cfg.busLock)
    (hpoll : v.getLsbD 2 = cfg.pollLimit.isSome) (hgap : v.extractLsb' 3 5 = 0)
    (hcontexts : v.extractLsb' 8 8 = BitVec.ofNat 8 cfg.numContexts) (htop : v.extractLsb' 16 16 = 0) :
    v = configWord cfg := by
  have hgapNat : v.toNat / 2 ^ 3 % 2 ^ 5 = 0 := by rw [← bits_toNat, hgap]; rfl
  have hcontextsNat : v.toNat / 2 ^ 8 % 2 ^ 8 = cfg.numContexts % 2 ^ 8 := by rw [← bits_toNat, hcontexts]; rfl
  have htopNat : v.toNat / 2 ^ 16 % 2 ^ 16 = 0 := by rw [← bits_toNat, htop]; rfl
  apply BitVec.eq_of_toNat_eq
  rw [configWord_toNat, ← hearly, ← hlock, ← hpoll, bit_toNat, bit_toNat, bit_toNat]
  omega

/-- A concatenation in a register: the right operand below, the left one shifted past it. -/
theorem zext32_append {m n : Nat} (x : BitVec m) (y : BitVec n) : zext32 (x ++ y) = zext32 y ||| zext32 x <<< n := by
  apply BitVec.eq_of_getLsbD_eq
  intro i hi
  simp only [BitVec.getLsbD_setWidth, BitVec.getLsbD_append, BitVec.getLsbD_or, BitVec.getLsbD_shiftLeft, hi,
    decide_true, Bool.true_and]
  by_cases h : i < n
  · simp [h]
  · simp [h, BitVec.getLsbD_of_ge y i (by omega), show i - n < 32 by omega]

/-- Four bytes side by side are the same bytes shifted to their places (R85). -/
theorem packBytes_eq_textRegister (text : List Byte) (j : Nat) : packBytes text j = textRegister text j := by
  rw [← BitVec.setWidth_eq (packBytes text j)]
  simp only [packBytes, textRegister, textByte, zext32_append, BitVec.shiftLeft_or_distrib, ← BitVec.shiftLeft_add,
    BitVec.or_assoc, Nat.mul_zero, BitVec.shiftLeft_zero]
  rfl

end Sys2Proof.Proofs
end

section
/-! SUPPORT. The host's reads (10_state.md R56 to R58): where a register lies in a context's window, and what a read finds there. -/

namespace Sys2Proof.Proofs

open Sys2Proof.Machine Sys2Proof.Spec

/-! ### The register map -/

/-- A block of registers is the list of its offsets. -/
theorem inBlock_iff {base n o : Nat} (hbase : base % 4 = 0) :
    inBlock base n o = true ↔ o ∈ (List.range n).map fun j => base + 4 * j := by
  simp only [inBlock, Bool.and_eq_true, decide_eq_true_eq, List.mem_map, List.mem_range]
  constructor
  · rintro ⟨⟨h1, h2⟩, h3⟩
    exact ⟨(o - base) / 4, by omega, by omega⟩
  · rintro ⟨j, hj, rfl⟩
    omega

/-- A chain of tests answers something exactly when one of them succeeds. -/
theorem isSome_ite_some {α : Type} {p : Prop} [Decidable p] (a : α) (x : Option α) :
    (if p then some a else x).isSome = true ↔ p ∨ x.isSome = true := by
  split <;> simp [*]

/-- A context register lies at exactly the offsets of R57's table. -/
theorem ctxRegAt_isSome_iff (o : Nat) : (ctxRegAt o).isSome = true ↔ o ∈ registerOffsets := by
  simp only [ctxRegAt, isSome_ite_some, Option.isSome_none, Bool.false_eq_true, or_false, registerOffsets, recordOffsets,
    List.mem_append, List.mem_cons, List.not_mem_nil, ← inBlock_iff (base := 0x140) rfl,
    ← inBlock_iff (base := 0x160) rfl, ← inBlock_iff (base := 0x180) rfl, ← inBlock_iff (base := 0x400) rfl, or_assoc]

theorem ctxRegAt_buf {k : Nat} (hk : k < 256) : ctxRegAt (0x400 + 4 * k) = some (.buf k) := by
  have hblock : inBlock 0x400 256 (0x400 + 4 * k) = true := by
    simp only [inBlock, Bool.and_eq_true, decide_eq_true_eq]; omega
  have hbefore : ∀ {base n}, base + 4 * n ≤ 0x400 → ¬ inBlock base n (0x400 + 4 * k) = true := by
    intro base n h
    simp only [inBlock, Bool.and_eq_true, decide_eq_true_eq]; omega
  have hindex : (0x400 + 4 * k - 0x400) / 4 = k := by omega
  unfold ctxRegAt
  -- the 17 single registers lie below, and so do the three text fields
  iterate 17 rw [if_neg (by omega)]
  rw [if_neg (hbefore (by omega)), if_neg (hbefore (by omega)), if_neg (hbefore (by omega)), if_pos hblock, hindex]

theorem ctxRegAt_idSerial {j : Nat} (hj : j < 5) : ctxRegAt (0x140 + 4 * j) = some (.idSerial j) := by
  interval_cases j <;> rfl

theorem ctxRegAt_idFirmware {j : Nat} (hj : j < 2) : ctxRegAt (0x160 + 4 * j) = some (.idFirmware j) := by
  interval_cases j <;> rfl

theorem ctxRegAt_idModel {j : Nat} (hj : j < 10) : ctxRegAt (0x180 + 4 * j) = some (.idModel j) := by
  interval_cases j <;> rfl

/-- Registers lie in their window, at multiples of 4. -/
theorem registerOffsets_aligned {o : Nat} (h : o ∈ registerOffsets) : o < 0x1000 ∧ o % 4 = 0 := by
  simp only [registerOffsets, recordOffsets, List.mem_append, List.mem_map, List.mem_range, List.mem_cons,
    List.not_mem_nil, or_false] at h
  rcases h with (h | ((h | ⟨j, hj, rfl⟩) | ⟨j, hj, rfl⟩) | ⟨j, hj, rfl⟩) | ⟨j, hj, rfl⟩ <;> omega

/-! ### One access -/

theorem window_aligned {n o : Nat} (ha : o % 4 = 0) : window n o % 4 = 0 := by simp only [window]; omega

section
variable {s : State} {n o : Nat} (ho : o < 0x1000)
include ho

theorem window_div : window n o / 0x1000 = n + 1 := by simp only [window]; omega

theorem window_mod : window n o % 0x1000 = o := by simp only [window]; omega

/-- A read of a register of a context that exists. -/
theorem hostValue_window {c : Context} {r : CtxReg} (hc : s.ctxs[n]? = some c) (hr : ctxRegAt o = some r) :
    hostValue s (window n o) = ctxValue c r := by
  simp [hostValue, window_div ho, window_mod ho, hc, hr]

/-- A read in the window of no context, or at the offset of no register (R59). -/
theorem hostValue_unmapped (h : s.ctxs[n]? = none ∨ o ∉ registerOffsets) : hostValue s (window n o) = .word 0 := by
  simp only [hostValue, window_div ho, window_mod ho, Nat.add_sub_cancel, Nat.succ_ne_zero, if_false]
  split
  · rfl
  next c hc =>
    split
    · rfl
    next r hr =>
      have hreg : o ∈ registerOffsets := (ctxRegAt_isSome_iff o).mp (by rw [hr]; rfl)
      simp [hc, hreg] at h

end

/-- The pick of an aligned 32-bit host read is that read (R88). -/
theorem step_hostRead {s : State} {off : Nat} (hpick : Picks s (.hostRead 32 off)) (ha : off % 4 = 0) :
    step s = .next (s.dropEvent.hostRead off) := by
  simp [step, hpick, runEvent, hostReadStep, hostAccessAllowed, ha]

/-- A read that finds a value takes no draw and changes nothing but the host's own record of it. -/
theorem step_hostRead_word {s : State} {off : Nat} {v : Word} (hpick : Picks s (.hostRead 32 off)) (ha : off % 4 = 0)
    (hv : hostValue s.dropEvent off = .word v) :
    step s = .next { s.dropEvent with hostReads := s.hostReads ++ [⟨off, v⟩] } := by
  rw [step_hostRead hpick ha, State.hostRead, hv]
  rfl

/-- A read that finds a draw of 32 bits takes one free value (R58). -/
theorem step_hostRead_draw32 {s : State} {off : Nat} (hpick : Picks s (.hostRead 32 off)) (ha : off % 4 = 0)
    (hv : hostValue s.dropEvent off = .draw32) :
    step s = .next
      { s.dropEvent with
        hostReads := s.hostReads ++ [⟨off, Config.hostDraw s.dropEvent.draws⟩]
        draws := s.dropEvent.draws + 1 } := by
  rw [step_hostRead hpick ha, State.hostRead, hv]
  rfl

/-- A read that finds a draw of 16 bits takes one free value and shows its low half (R58). -/
theorem step_hostRead_draw16 {s : State} {off : Nat} (hpick : Picks s (.hostRead 32 off)) (ha : off % 4 = 0)
    (hv : hostValue s.dropEvent off = .draw16) :
    step s = .next
      { s.dropEvent with
        hostReads := s.hostReads ++ [⟨off, ((Config.hostDraw s.dropEvent.draws).setWidth 16).setWidth 32⟩]
        draws := s.dropEvent.draws + 1 } := by
  have hlow (w : Word) : w &&& 0x0000FFFF = (w.setWidth 16).setWidth 32 := by
    apply BitVec.eq_of_toNat_eq
    have hmask : w.toNat &&& 0xFFFF = w.toNat % 2 ^ 16 := Nat.and_two_pow_sub_one_eq_mod w.toNat 16
    rw [BitVec.toNat_and, BitVec.toNat_setWidth, BitVec.toNat_setWidth]
    exact hmask.trans (by omega)
  rw [step_hostRead hpick ha, State.hostRead, hv, ← hlow]
  rfl

/-! ### What the host reads -/

/-- Settles O43: each of the seven offsets holds its register, and the read finds a value. -/
theorem hostReadsPlainRegisters : Obligations.HostReadsPlainRegisters := by
  intro s n o c v hpick hc hmem
  have hreg : o < 0x1000 ∧ o % 4 = 0 ∧ ∃ r, ctxRegAt o = some r ∧ ctxValue c r = .word v := by
    simp only [plainRegisters, List.mem_cons, List.not_mem_nil, or_false, Prod.mk.injEq] at hmem
    rcases hmem with ⟨rfl, rfl⟩ | ⟨rfl, rfl⟩ | ⟨rfl, rfl⟩ | ⟨rfl, rfl⟩ | ⟨rfl, rfl⟩ | ⟨rfl, rfl⟩ | ⟨rfl, rfl⟩ <;>
      exact ⟨by decide, by decide, _, rfl, rfl⟩
  obtain ⟨ho, ha, r, hr, hv⟩ := hreg
  exact step_hostRead_word hpick (window_aligned ha) ((hostValue_window ho (s := s.dropEvent) hc hr).trans hv)

/-- A record register lies at `o`, and shows `view` of a written record of an idle context. -/
def ShowsRecord (o : Nat) (view : DeviceInfo → Word) : Prop :=
  ∃ r, ctxRegAt o = some r ∧ ∀ c, ctxValue c r = recordValue c view

/-- Every record register of R57's table shows its view of the record. -/
theorem showsRecord_of_mem {r : DeviceInfo} {o : Nat} {v : Word} (h : (o, v) ∈ recordRegisters r) :
    ∃ view, ShowsRecord o view ∧ view r = v := by
  simp only [recordRegisters, List.mem_append, List.mem_cons, List.not_mem_nil, or_false, Prod.mk.injEq, List.mem_map,
    List.mem_range] at h
  rcases h with ((h | ⟨j, hj, rfl, rfl⟩) | ⟨j, hj, rfl, rfl⟩) | ⟨j, hj, rfl, rfl⟩
  · rcases h with ⟨rfl, rfl⟩ | ⟨rfl, rfl⟩ | ⟨rfl, rfl⟩ | ⟨rfl, rfl⟩ | ⟨rfl, rfl⟩ | ⟨rfl, rfl⟩ | ⟨rfl, rfl⟩ | ⟨rfl, rfl⟩ |
      ⟨rfl, rfl⟩ | ⟨rfl, rfl⟩
    all_goals exact ⟨_, ⟨_, rfl, fun _ => rfl⟩, rfl⟩
  · exact ⟨fun r => packBytes r.serial j, ⟨_, ctxRegAt_idSerial hj, fun _ => rfl⟩, packBytes_eq_textRegister _ _⟩
  · exact ⟨fun r => packBytes r.firmware j, ⟨_, ctxRegAt_idFirmware hj, fun _ => rfl⟩, packBytes_eq_textRegister _ _⟩
  · exact ⟨fun r => packBytes r.model j, ⟨_, ctxRegAt_idModel hj, fun _ => rfl⟩, packBytes_eq_textRegister _ _⟩

theorem recordOffsets_eq (r : DeviceInfo) : recordOffsets = (recordRegisters r).map Prod.fst := rfl

theorem recordOffsets_aligned {o : Nat} (h : o ∈ recordOffsets) : o < 0x1000 ∧ o % 4 = 0 :=
  registerOffsets_aligned (by simp [registerOffsets, h])

/-- Settles O44: the register shows its view of the record. -/
theorem hostReadsRecordRegisters : Obligations.HostReadsRecordRegisters := by
  intro s n o c r v hpick hc hp hinfo hmem
  obtain ⟨ho, ha⟩ := recordOffsets_aligned (o := o) (by rw [recordOffsets_eq r]; exact List.mem_map_of_mem hmem)
  obtain ⟨view, ⟨reg, hreg, hshow⟩, rfl⟩ := showsRecord_of_mem hmem
  refine step_hostRead_word hpick (window_aligned ha) ?_
  rw [hostValue_window ho (s := s.dropEvent) hc hreg, hshow]
  simp [recordValue, hp, hinfo]

/-- Settles O46: the same registers, of a context whose record is not to be seen. -/
theorem unwrittenOrBusyRecordReadsAreDraws : Obligations.UnwrittenOrBusyRecordReadsAreDraws := by
  intro s n o c hpick hc hmem hdraw
  obtain ⟨ho, ha⟩ := recordOffsets_aligned hmem
  rw [recordOffsets_eq (decodeInfo fun _ => 0), List.mem_map] at hmem
  obtain ⟨⟨_, v⟩, hmem, rfl⟩ := hmem
  obtain ⟨view, ⟨reg, hreg, hshow⟩, -⟩ := showsRecord_of_mem hmem
  refine step_hostRead_draw32 hpick (window_aligned ha) ?_
  rw [hostValue_window ho (s := s.dropEvent) hc hreg, hshow]
  rcases hdraw with hp | hinfo
  · simp [recordValue, hp]
  · simp [recordValue, hinfo]

/-- Settles O45: cell `k` lies at `0x400 + 4 * k`. -/
theorem hostReadsBufferCells : Obligations.HostReadsBufferCells := by
  intro s n k c hpick hc hk
  have ha : window n (0x400 + 4 * k) % 4 = 0 := window_aligned (by omega)
  have hvalue : hostValue s.dropEvent (window n (0x400 + 4 * k)) = bufferValue c k :=
    hostValue_window (s := s.dropEvent) (by omega) hc (ctxRegAt_buf hk)
  refine ⟨fun v hp hcell => step_hostRead_word hpick ha ?_, fun hcell => step_hostRead_draw16 hpick ha ?_,
    fun hp hcell => step_hostRead_draw32 hpick ha ?_⟩ <;> rw [hvalue, bufferValue]
  · simp [hcell, hp]
  · simp [hcell]
  · obtain ⟨w, hw⟩ := Option.isSome_iff_exists.mp hcell
    simp [hw, hp]

/-- Settles O47: the three registers of the global window, which is window 0. -/
theorem hostReadsGlobalRegisters : Obligations.HostReadsGlobalRegisters := by
  intro s o v hpick h
  rcases h with ⟨rfl, rfl⟩ | ⟨rfl, hearly, hlock, hpoll, hgap, hcontexts, htop⟩ | ⟨rfl, rfl⟩
  · exact step_hostRead_word hpick rfl rfl
  · rw [eq_configWord hearly hlock hpoll hgap hcontexts htop]
    exact step_hostRead_word hpick rfl rfl
  · exact step_hostRead_word hpick rfl rfl

end Sys2Proof.Proofs
end

section
/-! SUPPORT. The host's writes (10_state.md R38, R40, R57, R59): what one that is no GO changes, and where it changes nothing. -/

namespace Sys2Proof.Proofs

open Sys2Proof.Machine Sys2Proof.Spec

/-- A register that no host write changes and that is no `CTRL` (R57, R59). -/
def ReadOnly (r : CtxReg) : Prop := r ≠ .ctrl ∧ ∀ v c, Context.hostWrite r v c = c

/-- What holds of the first answer of a chain of tests and of what the rest answers holds of the chain's answer. -/
theorem of_ite_eq_some {α : Type} {P : α → Prop} {p : Prop} [Decidable p] {a r : α} {x : Option α}
    (h : (if p then some a else x) = some r) (ha : P a) (hx : x = some r → P r) : P r := by
  by_cases hp : p
  · rw [if_pos hp] at h
    cases h
    exact ha
  · rw [if_neg hp] at h
    exact hx h

/-- The registers after `CMD0`, `CMD1`, `CTRL` and `STATUS` are read-only. -/
theorem readOnly_of_offset {o : Nat} {r : CtxReg} (hr : ctxRegAt o = some r) (ho : o ∉ [0x000, 0x004, 0x008, 0x00C]) :
    ReadOnly r := by
  simp only [List.mem_cons, List.not_mem_nil, or_false, not_or] at ho
  obtain ⟨hcmd0, hcmd1, hctrl, hstatus⟩ := ho
  rw [ctxRegAt, if_neg hcmd0, if_neg hcmd1, if_neg hctrl, if_neg hstatus] at hr
  -- the 13 single registers after `STATUS`, then the four blocks
  iterate 17 refine of_ite_eq_some hr ⟨nofun, fun _ _ => rfl⟩ fun hr => ?_
  cases hr

theorem offset_of_ctrl {o : Nat} (hr : ctxRegAt o = some .ctrl) : o = 0x008 := by
  by_cases hro : o ∈ [0x000, 0x004, 0x008, 0x00C]
  · simp only [List.mem_cons, List.not_mem_nil, or_false] at hro
    rcases hro with rfl | rfl | rfl | rfl
    · cases hr
    · cases hr
    · rfl
    · cases hr
  · exact absurd rfl (readOnly_of_offset hr hro).1

/-- The pick of an aligned 32-bit host write that is no GO is that write (R88). -/
theorem step_hostWrite {s : State} {off : Nat} {v : Word} (hpick : Picks s (.hostWrite 32 off v)) (ha : off % 4 = 0)
    (hgo : goTarget off v = none) : step s = .next (s.dropEvent.hostWrite off v) := by
  simp [step, hpick, runEvent, hostWriteStep, hostAccessAllowed, ha, hgo]

/-- Which write in a context's window is a GO (R119). -/
theorem goTarget_window {n o : Nat} (ho : o < 0x1000) (v : Word) :
    goTarget (window n o) v = if ctxRegAt o = some .ctrl ∧ v.getLsbD 0 = true then some n else none := by
  simp [goTarget, window_div ho, window_mod ho]

/-- A write in the window of no context changes nothing, a GO included. -/
theorem step_hostWrite_noContext {s : State} {n o : Nat} {v : Word} (hpick : Picks s (.hostWrite 32 (window n o) v))
    (ho : o < 0x1000) (ha : o % 4 = 0) (hn : s.ctxs[n]? = none) : step s = .next s.dropEvent := by
  by_cases hgo : ctxRegAt o = some .ctrl ∧ v.getLsbD 0 = true
  · have htarget : goTarget (window n o) v = some n := by rw [goTarget_window ho, if_pos hgo]
    rw [step, hpick]
    simp [runEvent, hostWriteStep, hostAccessAllowed, window_aligned ha, htarget, goStep, hn]
  · rw [step_hostWrite hpick (window_aligned ha) (by rw [goTarget_window ho, if_neg hgo])]
    have hsame (f : Context → Context) : s.dropEvent.ctxs.modify (window n o / 0x1000 - 1) f = s.dropEvent.ctxs := by
      simp [window_div ho, List.modify_eq_set_getElem?, hn]
    rcases hostWrite_cases s.dropEvent (window n o) v with h | ⟨r, h⟩ <;> rw [h]
    rw [hsame]

/-- A write that is no GO to a register of a context that exists. -/
theorem step_hostWrite_window {s : State} {n o : Nat} {v : Word} {c : Context} {r : CtxReg}
    (hpick : Picks s (.hostWrite 32 (window n o) v)) (hc : s.ctxs[n]? = some c) (ho : o < 0x1000) (ha : o % 4 = 0)
    (hr : ctxRegAt o = some r) (hgo : r = .ctrl → v.getLsbD 0 = false) :
    step s = .next { s.dropEvent with ctxs := s.ctxs.set n (Context.hostWrite r v c) } := by
  have hnone : goTarget (window n o) v = none := by
    rw [goTarget_window ho, hr]
    refine if_neg ?_
    rintro ⟨hctrl, hv⟩
    rw [hgo (Option.some.inj hctrl)] at hv
    cases hv
  rw [step_hostWrite hpick (window_aligned ha) hnone, State.hostWrite]
  simp [window_div ho, window_mod ho, hr, List.modify_eq_set_getElem?, hc]

/-- A write to a read-only register, or where no register is, changes nothing (R59). -/
theorem step_hostWrite_readOnly {s : State} {n o : Nat} {v : Word} {c : Context}
    (hpick : Picks s (.hostWrite 32 (window n o) v)) (hc : s.ctxs[n]? = some c) (ho : o < 0x1000) (ha : o % 4 = 0)
    (hro : o ∉ [0x000, 0x004, 0x008, 0x00C]) : step s = .next s.dropEvent := by
  cases hr : ctxRegAt o with
  | none =>
    rw [step_hostWrite hpick (window_aligned ha) (by simp [goTarget_window ho, hr]), State.hostWrite]
    simp [window_div ho, window_mod ho, hr]
  | some r =>
    obtain ⟨hctrl, hsame⟩ := readOnly_of_offset hr hro
    obtain ⟨hlt, rfl⟩ := List.getElem?_eq_some_iff.mp hc
    rw [step_hostWrite_window hpick hc ho ha hr (absurd · hctrl), hsame, List.set_getElem_self]
    rfl

/-- What a write changes of a context, by the offset it is made at (R38, R40, R59). -/
theorem hostWrite_at {o : Nat} {r : CtxReg} (hr : ctxRegAt o = some r) (v : Word) (c : Context) :
    Context.hostWrite r v c =
      if o = 0x000 then { c with cmd0 := v }
      else if o = 0x004 then { c with cmd1 := v }
      else if o = 0x00C then { c with status := { c.status with overrun := c.status.overrun && !v.getLsbD 2 } }
      else c := by
  by_cases hro : o ∈ [0x000, 0x004, 0x008, 0x00C]
  · simp only [List.mem_cons, List.not_mem_nil, or_false] at hro
    rcases hro with rfl | rfl | rfl | rfl <;> cases hr
    · rfl
    · rfl
    · rfl
    · rw [Context.hostWrite, status_hostWrite_eq]
      rfl
  · rw [(readOnly_of_offset hr hro).2]
    simp only [List.mem_cons, List.not_mem_nil, or_false, not_or] at hro
    simp [hro]

/-- Settles O49: every register offset names a register, and a write that is no GO is that register's. -/
theorem hostWritesCommandWordAndClearsOverrun : Obligations.HostWritesCommandWordAndClearsOverrun := by
  intro s n o c v hpick hc hmem hgo
  obtain ⟨ho, ha⟩ := registerOffsets_aligned hmem
  obtain ⟨r, hr⟩ := Option.isSome_iff_exists.mp ((ctxRegAt_isSome_iff o).mpr hmem)
  rw [step_hostWrite_window hpick hc ho ha hr fun h => hgo (offset_of_ctrl (h ▸ hr)), hostWrite_at hr]

/-- Settles O48: where no register or no context is, a read finds 0 and a write does nothing; window 0 has no register to write. -/
theorem unmappedOffsetsReadZeroAndIgnoreWrites : Obligations.UnmappedOffsetsReadZeroAndIgnoreWrites := by
  intro s n o v ho ha
  have hglobal : o / 0x1000 = 0 := by omega
  refine ⟨fun h hpick => ?_, fun h hpick => ?_, fun h hpick => ?_, fun hpick => ?_⟩
  · exact step_hostRead_word hpick (window_aligned ha) (hostValue_unmapped (s := s.dropEvent) ho h)
  · cases hc : s.ctxs[n]? with
    | none => exact step_hostWrite_noContext hpick ho ha hc
    | some c => exact step_hostWrite_readOnly hpick hc ho ha (h.resolve_left (by simp [hc]))
  · refine step_hostRead_word hpick ha ?_
    simp only [List.mem_cons, List.not_mem_nil, or_false, not_or] at h
    simp [hostValue, hglobal, globalRegAt, Nat.mod_eq_of_lt ho, h]
  · rw [step_hostWrite hpick ha (by simp [goTarget, hglobal]), State.hostWrite, if_pos hglobal]

end Sys2Proof.Proofs
end

section
/-! SUPPORT. The transactions a step makes (20_memory.md R80, R82, R92), the operand bit a configuration read ignores (R87) and the
host accesses that get no step (R88). -/

namespace Sys2Proof.Proofs

open Sys2Proof.Machine Sys2Proof.Spec

/-! ### One transaction at a handle and its width -/

theorem handle_mem_all (h : Handle) : h ∈ Handle.all := by cases h <;> decide

/-- What a port of width `k` carries is a value of `k` bits (R82). -/
theorem carry_lt (k : Width) (v : Word) : (k.carry v).toNat < 2 ^ k.bits := by
  have hlow : (v.setWidth k.bits).toNat < 2 ^ k.bits := (v.setWidth k.bits).isLt
  rw [Width.carry, BitVec.toNat_setWidth]
  exact (Nat.mod_le _ _).trans_lt hlow

/-- The trace of `t` is that of `s` with one transaction more: of context `n`, at a handle's address and width, its value within the
width (R80, R92). -/
def AppendsTransaction (n : Nat) (s t : State) : Prop :=
  ∃ e h, t.trace = s.trace ++ [e] ∧ e.ctx = n ∧ h ∈ Handle.all ∧ e.port = h.addr ∧ e.width = h.width ∧
    e.value.toNat < 2 ^ h.width.bits

theorem appendsTransaction_of_accesses {i : Instr} {s t : State} (h : Accesses i s t) :
    AppendsTransaction s.active s t := by
  obtain ⟨k, u, -, -, ht, rfl | ⟨v, rfl, -⟩⟩ := h
  · exact ⟨_, k, ht.trace, rfl, handle_mem_all k, rfl, rfl, carry_lt k.width s.answer⟩
  · exact ⟨_, k, ht.trace, rfl, handle_mem_all k, rfl, rfl, carry_lt k.width v⟩

/-- One step of a command makes at most one transaction, of the active context. -/
theorem exec_trace {i : Instr} {s t : State} (h : exec i s = .next t) :
    t.trace = s.trace ∨ AppendsTransaction s.active s t := by
  cases exec_next_cases h with
  | waits => exact .inl rfl
  | accepted => exact .inl rfl
  | bad => exact .inl rfl
  | turnedAway => exact .inl rfl
  | accesses _ _ _ _ _ ha => exact .inr (appendsTransaction_of_accesses ha)

/-- Of the agents only a context makes a transaction, and its own (R176). -/
theorem agentStep_trace {e : Event} {s t : State} (h : AgentStep s e t) :
    t.trace = s.trace ∨ ∃ n, e = .context n ∧ AppendsTransaction n s t := by
  cases h with
  | passedOver => exact .inl rfl
  | hostRead => exact .inl rfl
  | hostWrite _ off v => rcases hostWrite_cases s off v with h | ⟨r, h⟩ <;> exact .inl (by rw [h])
  | badCommand => exact .inl rfl
  | issue => exact .inl rfl
  | overrun => exact .inl rfl
  | command n c i _ _ _ _ hexec => exact (exec_trace hexec).imp_right fun ht => ⟨n, rfl, ht⟩
  | irq14 => exact .inl rfl
  | reset => exact .inl rfl

/-- Settles O39: the pick leaves the trace, and then the agent's step adds at most a transaction of its context. -/
theorem everyTransactionIsAtAHandleAndItsWidth : Obligations.EveryTransactionIsAtAHandleAndItsWidth := by
  intro s t h
  refine (agentStep_trace (agentStep_of_step h)).imp_right ?_
  rintro ⟨n, hpick, e, k, hevent⟩
  exact ⟨n, e, k, hpick, hevent⟩

/-! ### The configuration read at an odd offset -/

/-- A mask without bit 0 takes the same bits of an operand with bit 0 set as of it with bit 0 clear. -/
theorem and_mask_or_one {m : Byte} (hone : m &&& 1 = 0#8) (heven : 0xFE &&& m = m) (off : Byte) :
    (off ||| 1) &&& m = (off &&& 0xFE) &&& m :=
  calc (off ||| 1) &&& m
    _ = (m &&& off) ||| (m &&& 1) := by rw [BitVec.and_comm, BitVec.and_or_distrib_left]
    _ = off &&& m := by rw [hone, BitVec.or_zero, BitVec.and_comm]
    _ = (off &&& 0xFE) &&& m := by rw [BitVec.and_assoc, heven]

/-- The address word takes bits 7:2 of `off` (R150). -/
theorem pciAddress_congr {off off' : Byte} (h : off &&& 0xFC = off' &&& 0xFC) (bus slot func : Byte) :
    pciAddress bus slot func off = pciAddress bus slot func off' := by
  have hmask (b : Byte) : zext32 b &&& 0x000000FC = zext32 (b &&& 0xFC) :=
    (BitVec.setWidth_and (x := b) (y := 0xFC)).symm
  simp only [pciAddress, hmask, h]

/-- The half is selected by bit 1 of `off` (R84). -/
theorem pciHalf_congr {off off' : Byte} (h : off &&& 0x02 = off' &&& 0x02) (dw : Word) : pciHalf off dw = pciHalf off' dw := by
  rw [pciHalf, pciHalf, h]

/-- Settles O16: neither mask takes bit 0 of `off`. -/
theorem pciOddOffsetReadsTheSameHalf : Obligations.PciOddOffsetReadsTheSameHalf :=
  fun bus slot func off dw =>
    ⟨pciAddress_congr (and_mask_or_one (by decide) (by decide) off) bus slot func,
      pciHalf_congr (and_mask_or_one (by decide) (by decide) off) dw⟩

/-! ### Host accesses that are refused -/

/-- An access is allowed exactly when it is 32 bits wide and 4-byte aligned (R88). -/
theorem hostAccessAllowed_iff (width off : Nat) : hostAccessAllowed width off = true ↔ width = 32 ∧ off % 4 = 0 := by
  simp [hostAccessAllowed]

/-- Settles O50: neither kind of access gets a step unless it is allowed. -/
theorem oddHostAccessIsRefused : Obligations.OddHostAccessIsRefused := by
  intro s width off v hodd
  rw [← hostAccessAllowed_iff] at hodd
  refine ⟨fun hpick => ?_, fun hpick => ?_⟩ <;> rw [step, hpick]
  · exact if_neg hodd
  · exact if_neg hodd

end Sys2Proof.Proofs
end

section
/-! SUPPORT. What each agent's step leaves of a busy context that is not its own (20_memory.md R99, 60_exceptions.md R307, R308,
R312). -/

namespace Sys2Proof.Proofs

open Sys2Proof.Machine Sys2Proof.Spec

/-- A step of a command changes no context but the active one (R319). -/
theorem exec_otherContext {i : Instr} {s t : State} (h : exec i s = .next t) {n : Nat} (hn : s.active ≠ n) :
    t.ctxs[n]? = s.ctxs[n]? := by
  have hmodify (f : Context → Context) : (s.ctxs.modify s.active f)[n]? = s.ctxs[n]? := List.getElem?_modify_ne f _ hn
  cases exec_next_cases h with
  | waits => rfl
  | accepted => exact hmodify _
  | bad => rw [State.badCommand_ctxs]; exact hmodify _
  | turnedAway => exact hmodify _
  | accesses _ _ _ _ _ ha =>
    obtain ⟨k, u, -, -, ht, hu⟩ := ha
    obtain ⟨f, hctxs, -⟩ := ht.ctxs
    obtain rfl | ⟨v, rfl, -⟩ := hu
    · rw [hctxs]; exact hmodify f
    · rw [hctxs]; exact hmodify f

/-- Context `n` of `t` has the operation of `c`: its registers but `CMD0`, `CMD1` and `OVERRUN` are those of `c`. -/
def HasOperationOf (c : Context) (t : State) (n : Nat) : Prop :=
  ∃ d, t.ctxs[n]? = some d ∧ operationOf d = operationOf c

section
variable {s t : State} {n : Nat} {c : Context} (hc : s.ctxs[n]? = some c)
include hc

theorem hasOperationOf_of_same (h : t.ctxs[n]? = s.ctxs[n]?) : HasOperationOf c t n := ⟨c, h.trans hc, rfl⟩

/-- A change of one context, which leaves the operation of `c` if that is the one. -/
theorem hasOperationOf_of_modify {m : Nat} {f : Context → Context} (ht : t.ctxs = s.ctxs.modify m f)
    (hf : m = n → operationOf (f c) = operationOf c) : HasOperationOf c t n := by
  by_cases hm : m = n
  · exact ⟨f c, by rw [ht, hm, List.getElem?_modify_eq, hc]; rfl, hf hm⟩
  · exact hasOperationOf_of_same hc (by rw [ht, List.getElem?_modify_ne _ _ hm])

/-- An accepted GO finds its context idle (R119), so it is none to `n`; a GO to `n` sets its `OVERRUN` (R308), and a host write
changes no more than `CMD0`, `CMD1` and `OVERRUN` (R99). -/
theorem agentStep_keepsOperation {e : Event} (h : AgentStep s e t) (hp : c.phase ≠ .idle) (hself : e ≠ .context n)
    (hreset : e ≠ .reset) : HasOperationOf c t n := by
  have hbusy {m : Nat} {x : Context} (hx : s.ctxs[m]? = some x) (hidle : x.phase = .idle) : m ≠ n := by
    rintro rfl
    cases hc.symm.trans hx
    exact hp hidle
  cases h with
  | passedOver => exact hasOperationOf_of_same hc rfl
  | hostRead => exact hasOperationOf_of_same hc rfl
  | hostWrite _ off v =>
    rcases hostWrite_cases s off v with h | ⟨r, h⟩ <;> rw [h]
    · exact hasOperationOf_of_same hc rfl
    · obtain ⟨cmd0, cmd1, overrun, hwrite⟩ := context_hostWrite_eq r v c
      exact hasOperationOf_of_modify hc rfl fun _ => by rw [hwrite]; rfl
  | badCommand _ _ _ m x _ hx hidle =>
    exact hasOperationOf_of_modify hc (State.badCommand_ctxs _) fun hm => absurd hm (hbusy hx hidle)
  | issue _ _ _ m x _ _ hx hidle => exact hasOperationOf_of_modify hc rfl fun hm => absurd hm (hbusy hx hidle)
  | overrun => exact hasOperationOf_of_modify hc rfl fun _ => rfl
  | command m _ _ _ _ _ _ hexec =>
    have hm : m ≠ n := fun hm => hself (congrArg Event.context hm)
    exact hasOperationOf_of_same hc (exec_otherContext hexec hm)
  | irq14 => exact hasOperationOf_of_same hc rfl
  | reset => exact absurd rfl hreset

end

/-- Settles O60: the pick leaves every context, and then the agent is neither the context nor a reset. -/
theorem onlyItsOwnStepsChangeABusyOperation : Obligations.OnlyItsOwnStepsChangeABusyOperation := by
  intro s t n c h hc hp hself hreset
  exact agentStep_keepsOperation (s := s.dropEvent) hc (agentStep_of_step h) hp hself hreset

end Sys2Proof.Proofs
end

section
/-! SUPPORT. What a command word means, said once by its fields (30_encoding.md R111 to R118): the encoder, the decoder and the
validity predicate are each held against it. -/

namespace Sys2Proof.Proofs

open Sys2Proof.Machine Sys2Proof.Spec

/-- The fields of `w` are those its format gives command `i` (R111, R114), and a written value fits its port (R117). -/
def Denotes (w : CmdWord) : Instr → Prop
  | .portRead h => field w 0 8 = 0x01#8 ∧ field w 12 4 = 0#4 ∧ field w 16 48 = 0#48 ∧ field w 8 4 = h.index
  | .portWrite h data =>
    field w 0 8 = 0x02#8 ∧ field w 12 4 = 0#4 ∧ field w 48 16 = 0#16 ∧ field w 8 4 = h.index ∧ field w 16 32 = data ∧
      data.toNat < 2 ^ h.width.bits
  | .pciCfgRead bus slot func off =>
    field w 0 8 = 0x10#8 ∧ field w 40 24 = 0#24 ∧ field w 8 8 = bus ∧ field w 16 8 = slot ∧ field w 24 8 = func ∧
      field w 32 8 = off
  | .ataIdentify d => field w 0 8 = 0x20#8 ∧ field w 9 55 = 0#55 ∧ field w 8 1 = driveBit d
  | .ataReadSector lba => field w 0 8 = 0x21#8 ∧ field w 8 8 = 0#8 ∧ field w 48 16 = 0#16 ∧ field w 16 32 = lba

/-! ### The encoder -/

theorem field_eq_iff (w : CmdWord) (lo n : Nat) (x : BitVec n) : field w lo n = x ↔ w.toNat / 2 ^ lo % 2 ^ n = x.toNat := by
  rw [← BitVec.toNat_inj, field_toNat]

/-- The fields of a format fill the word, so the words with a command's fields are its encoding alone (R111, R113). -/
theorem denotes_iff_encode (w : CmdWord) (i : Instr) : Denotes w i ↔ i.wellFormed = true ∧ encode i = w := by
  have hw := w.isLt
  rw [← BitVec.toNat_inj]
  cases i with
  | portRead h =>
    have hh := h.index.isLt
    simp only [Denotes, field_eq_iff, BitVec.toNat_ofNat, encode_portRead_toNat, Instr.wellFormed, true_and]
    omega
  | portWrite h data =>
    have hh := h.index.isLt
    have hdata := data.isLt
    simp only [Denotes, field_eq_iff, BitVec.toNat_ofNat, encode_portWrite_toNat, Instr.wellFormed, decide_eq_true_eq]
    omega
  | pciCfgRead bus slot func off =>
    have hbus := bus.isLt
    have hslot := slot.isLt
    have hfunc := func.isLt
    have hoff := off.isLt
    simp only [Denotes, field_eq_iff, BitVec.toNat_ofNat, encode_pciCfgRead_toNat, Instr.wellFormed, true_and]
    omega
  | ataIdentify d =>
    have hd := (driveBit d).isLt
    simp only [Denotes, field_eq_iff, BitVec.toNat_ofNat, encode_ataIdentify_toNat, Instr.wellFormed, true_and]
    omega
  | ataReadSector lba =>
    have hlba := lba.isLt
    simp only [Denotes, field_eq_iff, BitVec.toNat_ofNat, encode_ataReadSector_toNat, Instr.wellFormed, true_and]
    omega

/-! ### The decoder -/

theorem driveOf_driveBit (d : Drive) : driveOf (driveBit d) = d := by cases d <;> rfl

theorem driveBit_driveOf (b : BitVec 1) : driveBit (driveOf b) = b := by revert b; decide

theorem decodePortRead_denotes {w : CmdWord} {i : Instr} (hop : opcodeOf w = 0x01) (h : decodePortRead w = .ok i) :
    Denotes w i := by
  simp only [decodePortRead, ne_eq] at h
  split at h
  · cases h
  next hzero =>
    obtain ⟨hgap, htop⟩ := not_or.mp hzero
    split at h
    · cases h
    next k hk =>
      cases h
      exact ⟨hop, not_not.mp hgap, not_not.mp htop, (Handle.index_of_ofIndex hk).symm⟩

theorem decodePortWrite_denotes {w : CmdWord} {i : Instr} (hop : opcodeOf w = 0x02) (h : decodePortWrite w = .ok i) :
    Denotes w i := by
  simp only [decodePortWrite, ne_eq] at h
  split at h
  · cases h
  next hzero =>
    obtain ⟨hgap, htop⟩ := not_or.mp hzero
    split at h
    · cases h
    next k hk =>
      split at h
      next hfits =>
        cases h
        exact ⟨hop, not_not.mp hgap, not_not.mp htop, (Handle.index_of_ofIndex hk).symm, rfl, hfits⟩
      · cases h

theorem decodePciCfgRead_denotes {w : CmdWord} {i : Instr} (hop : opcodeOf w = 0x10) (h : decodePciCfgRead w = .ok i) :
    Denotes w i := by
  simp only [decodePciCfgRead, ne_eq] at h
  split at h
  · cases h
  next hzero =>
    cases h
    exact ⟨hop, not_not.mp hzero, rfl, rfl, rfl, rfl⟩

theorem decodeAtaIdentify_denotes {w : CmdWord} {i : Instr} (hop : opcodeOf w = 0x20) (h : decodeAtaIdentify w = .ok i) :
    Denotes w i := by
  simp only [decodeAtaIdentify, ne_eq] at h
  split at h
  · cases h
  next hzero =>
    cases h
    exact ⟨hop, not_not.mp hzero, (driveBit_driveOf _).symm⟩

theorem decodeAtaReadSector_denotes {w : CmdWord} {i : Instr} (hop : opcodeOf w = 0x21)
    (h : decodeAtaReadSector w = .ok i) : Denotes w i := by
  simp only [decodeAtaReadSector, ne_eq] at h
  split at h
  · cases h
  next hzero =>
    obtain ⟨hlow, htop⟩ := not_or.mp hzero
    cases h
    exact ⟨hop, not_not.mp hlow, not_not.mp htop, rfl⟩

/-- A word decodes only to a command whose fields it has: each opcode leads to its own format (R114). -/
theorem denotes_of_decode {w : CmdWord} {i : Instr} (h : decode w = .ok i) : Denotes w i := by
  simp only [decode] at h
  split at h
  next hop => exact decodePortRead_denotes hop h
  split at h
  next hop => exact decodePortWrite_denotes hop h
  split at h
  next hop => exact decodePciCfgRead_denotes hop h
  split at h
  next hop => exact decodeAtaIdentify_denotes hop h
  split at h
  next hop => exact decodeAtaReadSector_denotes hop h
  · cases h

/-- A word with the fields of a command decodes to it. -/
theorem decode_of_denotes {w : CmdWord} {i : Instr} (h : Denotes w i) : decode w = .ok i := by
  cases i with
  | portRead k =>
    obtain ⟨hop, hgap, htop, hindex⟩ := h
    simp [decode, opcodeOf, hop, decodePortRead, hgap, htop, hindex, Handle.ofIndex_index]
  | portWrite k data =>
    obtain ⟨hop, hgap, htop, hindex, hdata, hfits⟩ := h
    simp [decode, opcodeOf, hop, decodePortWrite, hgap, htop, hindex, Handle.ofIndex_index, hdata, hfits]
  | pciCfgRead bus slot func off =>
    obtain ⟨hop, htop, hbus, hslot, hfunc, hoff⟩ := h
    simp [decode, opcodeOf, hop, decodePciCfgRead, htop, hbus, hslot, hfunc, hoff]
  | ataIdentify d =>
    obtain ⟨hop, htop, hd⟩ := h
    simp [decode, opcodeOf, hop, decodeAtaIdentify, htop, hd, driveOf_driveBit]
  | ataReadSector lba =>
    obtain ⟨hop, hlow, htop, hlba⟩ := h
    simp [decode, opcodeOf, hop, decodeAtaReadSector, hlow, htop, hlba]

theorem decode_eq_ok_iff (w : CmdWord) (i : Instr) : decode w = .ok i ↔ i.wellFormed = true ∧ encode i = w := by
  rw [← denotes_iff_encode]
  exact ⟨denotes_of_decode, decode_of_denotes⟩

/-- Settles O1: the encoding of a command has its fields, so it decodes to it. -/
theorem encodedCommandDecodesToItself : Obligations.EncodedCommandDecodesToItself :=
  fun i hw => (decode_eq_ok_iff _ i).mpr ⟨hw, rfl⟩

/-- Settles O2: a word has the fields of the command it decodes to, so it is its encoding. -/
theorem decodedWordIsItsEncoding : Obligations.DecodedWordIsItsEncoding :=
  fun w i h => (decode_eq_ok_iff w i).mp h

/-- Settles O5: each line assembles to the encoding of its command, so the word it stands for decodes to that command. -/
theorem specWordsDecodeAndAssemble : Obligations.SpecWordsDecodeAndAssemble := by
  have decodes {w : CmdWord} {i : Instr} (hw : i.wellFormed = true) (he : encode i = w) : decode w = .ok i :=
    (decode_eq_ok_iff w i).mpr ⟨hw, he⟩
  exact ⟨decodes rfl rfl, decodes rfl rfl, decodes rfl rfl, decodes rfl rfl, decodes rfl rfl, decodes rfl rfl, decodes rfl rfl,
    rfl, rfl, rfl, rfl, rfl, rfl, rfl⟩

/-! ### The validity predicate (R118) and the match and mask table (R115) -/

theorem index_le_eight (h : Handle) : h.index ≤ 8#4 := by cases h <;> decide

theorem widthOfIndex_index (h : Handle) : widthOfIndex h.index = h.width.bits := by cases h <;> rfl

/-- An index of at most 8 names a handle (R112). -/
theorem exists_handle_of_le {k : BitVec 4} (hk : k ≤ 8) : ∃ h : Handle, h.index = k := by
  obtain ⟨h, hh⟩ := Option.isSome_iff_exists.mp ((Handle.ofIndex_isSome k).trans (decide_eq_true hk))
  exact ⟨h, Handle.index_of_ofIndex hh⟩

theorem exists_denotes_of_valid {w : CmdWord} (h : valid w = true) : ∃ i, Denotes w i := by
  simp only [valid] at h
  split at h
  next hop =>
    simp only [Bool.and_eq_true, decide_eq_true_eq] at h
    obtain ⟨⟨hgap, htop⟩, hle⟩ := h
    obtain ⟨k, hk⟩ := exists_handle_of_le hle
    exact ⟨.portRead k, hop, hgap, htop, hk.symm⟩
  split at h
  next hop =>
    simp only [Bool.and_eq_true, decide_eq_true_eq] at h
    obtain ⟨⟨⟨hgap, htop⟩, hle⟩, hfits⟩ := h
    obtain ⟨k, hk⟩ := exists_handle_of_le hle
    rw [← hk, widthOfIndex_index] at hfits
    exact ⟨.portWrite k (field w 16 32), hop, hgap, htop, hk.symm, rfl, hfits⟩
  split at h
  next hop => exact ⟨.pciCfgRead _ _ _ _, hop, of_decide_eq_true h, rfl, rfl, rfl, rfl⟩
  split at h
  next hop => exact ⟨.ataIdentify (driveOf _), hop, of_decide_eq_true h, (driveBit_driveOf _).symm⟩
  split at h
  next hop =>
    simp only [Bool.and_eq_true, decide_eq_true_eq] at h
    obtain ⟨hlow, htop⟩ := h
    exact ⟨.ataReadSector _, hop, hlow, htop, rfl⟩
  · cases h

theorem valid_of_denotes {w : CmdWord} {i : Instr} (h : Denotes w i) : valid w = true := by
  cases i with
  | portRead k =>
    obtain ⟨hop, hgap, htop, hindex⟩ := h
    simp [valid, hop, hgap, htop, hindex, index_le_eight]
  | portWrite k data =>
    obtain ⟨hop, hgap, htop, hindex, hdata, hfits⟩ := h
    simp [valid, hop, hgap, htop, hindex, index_le_eight, hdata, widthOfIndex_index, hfits]
  | pciCfgRead bus slot func off =>
    obtain ⟨hop, htop, -⟩ := h
    simp [valid, hop, htop]
  | ataIdentify d =>
    obtain ⟨hop, htop, -⟩ := h
    simp [valid, hop, htop]
  | ataReadSector lba =>
    obtain ⟨hop, hlow, htop, -⟩ := h
    simp [valid, hop, hlow, htop]

/-- Settles O3: both accept the words that have the fields of some command. -/
theorem decoderAcceptsExactlyValidWords : Obligations.DecoderAcceptsExactlyValidWords :=
  fun _ => ⟨fun ⟨_, h⟩ => valid_of_denotes (denotes_of_decode h), fun h =>
    (exists_denotes_of_valid h).imp fun _ => decode_of_denotes⟩

/-- Where the mask of a table row is all ones, a word it selects has the bits of the row's match. -/
theorem field_of_selects {w mask pattern : CmdWord} (h : w &&& mask = pattern) {lo n : Nat}
    (hmask : field mask lo n = BitVec.allOnes n) : field w lo n = field pattern lo n := by
  have hand : field (w &&& mask) lo n = field w lo n &&& field mask lo n := BitVec.extractLsb'_and
  rw [← h, hand, hmask, BitVec.and_allOnes]

/-- The encoding of a command is selected by a row of the table that bears the command's mnemonic. -/
theorem exists_row_of_encode (i : Instr) : ∃ r ∈ opcodeRows, r.mnemonic = i.mnemonic ∧ r.selects (encode i) = true := by
  have hrow : Laws.EncodeRow.Statement i := by
    cases i with
    | portRead h => exact Laws.EncodeRow.portRead h
    | portWrite h data => exact Laws.EncodeRow.portWrite h data
    | pciCfgRead bus slot func off => exact Laws.EncodeRow.pciCfgRead bus slot func off
    | ataIdentify d => exact Laws.EncodeRow.ataIdentify d
    | ataReadSector lba => exact Laws.EncodeRow.ataReadSector lba
  obtain ⟨r, hr, hsel⟩ := Option.map_eq_some_iff.mp hrow
  exact ⟨r, List.mem_of_find?_eq_some hr, by simpa using List.find?_some hr, hsel⟩

/-- The word selects the row, and the extra conditions of R115 on the operands of PORT_READ and PORT_WRITE hold of it. -/
def MeetsRow (w : CmdWord) (r : OpcodeRow) : Prop :=
  r.selects w = true ∧ (r.mnemonic = "PORT_READ" → (w >>> 8).toNat % 16 ≤ 8) ∧
    (r.mnemonic = "PORT_WRITE" →
      ∃ k : Handle, k.index = w.extractLsb' 8 4 ∧ (w >>> 16).toNat % 2 ^ 32 < 2 ^ k.width.bits)

/-- A field of `n` bits, shifted down and cut off. -/
theorem shiftRight_field (w : CmdWord) (lo n : Nat) : (w >>> lo).toNat % 2 ^ n = (field w lo n).toNat := by
  rw [field_toNat, BitVec.toNat_ushiftRight, Nat.shiftRight_eq_div_pow]

theorem meetsRow_of_denotes {w : CmdWord} {i : Instr} (h : Denotes w i) : ∃ r ∈ opcodeRows, MeetsRow w r := by
  obtain ⟨-, he⟩ := (denotes_iff_encode w i).mp h
  obtain ⟨r, hr, hname, hsel⟩ := exists_row_of_encode i
  rw [he] at hsel
  refine ⟨r, hr, hsel, ?_, ?_⟩ <;> rw [hname]
  · intro hread
    cases i with
    | portRead k =>
      obtain ⟨-, -, -, hindex⟩ := h
      have hle : (field w 8 4).toNat ≤ 8 := hindex ▸ index_le_eight k
      exact (shiftRight_field w 8 4).trans_le hle
    | _ => simp [Instr.mnemonic] at hread
  · intro hwrite
    cases i with
    | portWrite k data =>
      obtain ⟨-, -, -, hindex, hdata, hfits⟩ := h
      refine ⟨k, hindex.symm, ?_⟩
      rw [shiftRight_field, hdata]
      exact hfits
    | _ => simp [Instr.mnemonic] at hwrite

theorem valid_of_meetsRow {w : CmdWord} {r : OpcodeRow} (hr : r ∈ opcodeRows) (h : MeetsRow w r) : valid w = true := by
  obtain ⟨hsel, hread, hwrite⟩ := h
  have hbits : w &&& r.mask = r.pattern := by simpa [OpcodeRow.selects] using hsel
  have bits {lo n : Nat} (hmask : field r.mask lo n = BitVec.allOnes n) : field w lo n = field r.pattern lo n :=
    field_of_selects hbits hmask
  simp only [opcodeRows, List.mem_cons, List.not_mem_nil, or_false] at hr
  rcases hr with rfl | rfl | rfl | rfl | rfl
  · have hle : field w 8 4 ≤ 8#4 := (shiftRight_field w 8 4).symm.trans_le (hread rfl)
    obtain ⟨k, hk⟩ := exists_handle_of_le hle
    exact valid_of_denotes (i := .portRead k) ⟨bits rfl, bits rfl, bits rfl, hk.symm⟩
  · obtain ⟨k, hk, hfits⟩ := hwrite rfl
    rw [shiftRight_field] at hfits
    exact valid_of_denotes (i := .portWrite k _) ⟨bits rfl, bits rfl, bits rfl, hk.symm, rfl, hfits⟩
  · exact valid_of_denotes (i := .pciCfgRead _ _ _ _) ⟨bits rfl, bits rfl, rfl, rfl, rfl, rfl⟩
  · exact valid_of_denotes (i := .ataIdentify (driveOf _)) ⟨bits rfl, bits rfl, (driveBit_driveOf _).symm⟩
  · exact valid_of_denotes (i := .ataReadSector _) ⟨bits rfl, bits rfl, bits rfl, rfl⟩

/-- Settles O4: a row's mask fixes the fields of its format that are no operand, and the extra conditions are those on the
operands. -/
theorem validWordsSelectTheirOpcodeRow : Obligations.ValidWordsSelectTheirOpcodeRow := by
  refine fun w => ⟨fun h => ?_, fun ⟨_, hr, hmeets⟩ => valid_of_meetsRow hr hmeets⟩
  obtain ⟨i, hi⟩ := exists_denotes_of_valid h
  exact meetsRow_of_denotes hi

end Sys2Proof.Proofs
end

section
/-! SUPPORT. An accepted GO (30_encoding.md R119): which host write is one, what it runs, what it leaves; and the command bytes
that the engines write afterwards (R120). -/

namespace Sys2Proof.Proofs

open Sys2Proof.Machine Sys2Proof.Spec

/-- The pick of a host write to `CTRL` with bit 0 set is a GO to that context. -/
theorem step_go {s : State} {n : Nat} {v : Word} (hpick : Picks s (.hostWrite 32 (window n 0x008) v))
    (hv : v.getLsbD 0 = true) : step s = goStep n s.dropEvent := by
  have htarget : goTarget (window n 0x008) v = some n := by
    rw [goTarget_window (by decide), if_pos ⟨rfl, hv⟩]
  have hallowed : hostAccessAllowed 32 (window n 0x008) = true :=
    (hostAccessAllowed_iff _ _).mpr ⟨rfl, window_aligned rfl⟩
  rw [step, hpick]
  simp only [runEvent, hostWriteStep, hallowed, htarget, if_true]

/-- A GO to an idle context runs the command its word decodes to. -/
theorem goStep_decoded {s : State} {n : Nat} {c : Context} {i : Instr} (hc : s.ctxs[n]? = some c) (hp : c.phase = .idle)
    (hd : decode c.command = .ok i) : goStep n s = exec i (s.select n) := by
  simp only [goStep, hc, hp, hd, if_true]

/-- Settles O6: the write is a GO, and the pick leaves the context as it was. -/
theorem goRunsTheDecodedCommand : Obligations.GoRunsTheDecodedCommand :=
  fun s _ _ _ _ hpick hv hc hp hd => (step_go hpick hv).trans (goStep_decoded (s := s.dropEvent) hc hp hd)

/-- Settles O9: every command's meaning on an idle context is its accepted GO, which sets the active context. -/
theorem acceptedGoLatchesTheCommand : Obligations.AcceptedGoLatchesTheCommand := by
  intro i s c hc hp hw
  rw [exec_idle hc hp hw, State.issue, State.update, State.modify_active hc]
  cases i <;> rfl

/-- The two halves of a command word, put together again (R110). -/
theorem command_of_halves (w : CmdWord) : w.extractLsb' 32 32 ++ w.extractLsb' 0 32 = w := by
  have hw := w.isLt
  apply BitVec.eq_of_toNat_eq
  have hlow : (w.extractLsb' 0 32).toNat = w.toNat / 2 ^ 0 % 2 ^ 32 := field_toNat w 0 32
  have hhigh : (w.extractLsb' 32 32).toNat = w.toNat / 2 ^ 32 % 2 ^ 32 := field_toNat w 32 32
  rw [append_toNat, hlow, hhigh]
  omega

theorem decode_tableWord {nbits w : Nat} {i : Instr} (h : decodeTableWord nbits w = some i) :
    decode (tableWord nbits w) = .ok i := by
  simp only [decodeTableWord] at h
  split at h
  next hd => cases h; exact hd
  · cases h

/-- Placing a word leaves context 0 idle with that command word. -/
theorem placeCommand_context {s : State} (hlen : 0 < s.ctxs.length) (w : CmdWord) :
    ∃ c, (s.placeCommand w).ctxs[0]? = some c ∧ c.phase = .idle ∧ c.command = w := by
  have hc := List.getElem?_eq_getElem hlen
  simp only [State.placeCommand, List.getElem?_modify_eq, hc]
  exact ⟨_, rfl, rfl, command_of_halves w⟩

/-- Settles O8: the placed pick is a GO to context 0, which issues the placed word. -/
theorem placedWordIsIssuedNext : Obligations.PlacedWordIsIssuedNext := by
  intro s nbits w i h hlen
  have hd := decode_tableWord h
  obtain ⟨c, hc, hp, hword⟩ := placeCommand_context hlen (tableWord nbits w)
  rw [← hword] at hd
  have hpick : Picks (s.withFetchWord nbits w) (.hostWrite 32 (window 0 0x008) 1) := rfl
  have hstep : step (s.withFetchWord nbits w) = .next (((s.withFetchWord nbits w).dropEvent.select 0).issue i) := by
    rw [step_go hpick rfl, goStep_decoded (s := (s.withFetchWord nbits w).dropEvent) hc hp hd]
    exact exec_idle hc hp (decode_wellFormed hd)
  refine ⟨_, Context.issued i c, hstep, ?_, rfl, rfl, rfl, rfl, rfl⟩
  exact (List.getElem?_modify_eq _ _ _).trans (congrArg (Option.map (Context.issued i)) hc)

/-- `CMDSTAT` is the one handle at 0x1F7 (R31). -/
theorem eq_cmdstat_of_addr {h : Handle} (ha : h.addr = 0x1F7) : h = .cmdstat := by
  revert ha
  cases h <;> decide

/-- A transaction of an engine that writes at 0x1F7 writes the engine's command byte (R120). -/
theorem accesses_commandByte {i : Instr} {s t : State} {e : BusEvent} (hport : ∀ h data, i ≠ .portWrite h data)
    (h : Accesses i s t) (htrace : t.trace = s.trace ++ [e]) (hdir : e.dir = .write) (haddr : e.port = 0x1F7) :
    (e.value = 0xEC ∧ ∃ d, i = .ataIdentify d) ∨ (e.value = 0x20 ∧ ∃ lba, i = .ataReadSector lba) := by
  obtain ⟨k, u, -, -, ht, hu⟩ := h
  have hsame {x : BusEvent} (hx : u.trace = s.trace ++ [x]) : x = e := by
    simpa using hx.symm.trans (ht.trace.symm.trans htrace)
  rcases hu with rfl | ⟨v, rfl, hv⟩
  · cases hsame rfl
    cases hdir
  · cases hsame rfl
    rcases hv with ⟨k, data, rfl⟩ | hk | ⟨hi, rfl⟩ | ⟨hi, rfl⟩
    · exact absurd rfl (hport k data)
    · exact absurd (eq_cmdstat_of_addr haddr) hk
    · cases eq_cmdstat_of_addr haddr
      exact .inl ⟨rfl, hi⟩
    · cases eq_cmdstat_of_addr haddr
      exact .inr ⟨rfl, hi⟩

/-- Settles O40: a step that adds an event to the trace is a transaction. -/
theorem enginesEmitOnlyTwoCommandBytes : Obligations.EnginesEmitOnlyTwoCommandBytes := by
  intro i s t e hport h htrace hdir haddr
  have hmore : s.trace ≠ s.trace ++ [e] := by simp
  cases exec_next_cases h with
  | waits => exact absurd htrace hmore
  | accepted => exact absurd htrace hmore
  | bad => exact absurd htrace hmore
  | turnedAway => exact absurd htrace hmore
  | accesses _ _ _ _ _ ha => exact accesses_commandByte hport ha htrace hdir haddr

end Sys2Proof.Proofs
end

section
/-! SUPPORT. The PCI configuration read (40_pci_config_read.md): the address word as a number (R150, R154), the half that `off`
selects (R84), the two steps of the command, and its whole run from the GO (R151). -/

namespace Sys2Proof.Proofs

open Sys2Proof.Machine Sys2Proof.Spec Sys2Proof.Laws

/-! ### The address word -/

/-- The operand fields of the address word, as a number (R150): out-of-range operands OR into their neighbours (R123). -/
def pciFields (bus slot func off : Byte) : Nat :=
  bus.toNat <<< 16 ||| slot.toNat <<< 11 ||| func.toNat <<< 8 ||| off.toNat / 4 * 4

section
variable (bus slot func off : Byte)

/-- An operand shifted into its place loses no bit. -/
theorem zext32_shiftLeft_toNat (b : Byte) {n : Nat} (hn : n ≤ 24) : (zext32 b <<< n).toNat = b.toNat <<< n := by
  have hb : b.toNat < 2 ^ 8 := b.isLt
  have hshift : b.toNat <<< n < 2 ^ 32 :=
    calc b.toNat <<< n
      _ = b.toNat * 2 ^ n := Nat.shiftLeft_eq _ _
      _ < 2 ^ 8 * 2 ^ n := Nat.mul_lt_mul_of_pos_right hb (by positivity)
      _ ≤ 2 ^ 8 * 2 ^ 24 := Nat.mul_le_mul_left _ (Nat.pow_le_pow_right (by decide) hn)
  rw [BitVec.toNat_shiftLeft, BitVec.toNat_setWidth_of_le (by decide), Nat.mod_eq_of_lt hshift]

/-- The mask keeps bits 7:2 of `off` in their places. -/
theorem zext32_mask_toNat : (zext32 off &&& 0x000000FC).toNat = off.toNat / 4 * 4 := by
  revert off
  decide

/-- No field reaches bits 31:24. -/
theorem pciFields_lt : pciFields bus slot func off < 2 ^ 24 := by
  have hbus := bus.isLt
  have hslot := slot.isLt
  have hfunc := func.isLt
  have hoff := off.isLt
  simp only [pciFields, Nat.shiftLeft_eq]
  exact Nat.or_lt_two_pow (Nat.or_lt_two_pow (Nat.or_lt_two_pow (by omega) (by omega)) (by omega)) (by omega)

/-- Bits that are clear in both operands are clear in their OR. -/
theorem or_mod_eq_zero {a b n : Nat} (ha : a % 2 ^ n = 0) (hb : b % 2 ^ n = 0) : (a ||| b) % 2 ^ n = 0 := by
  rw [Nat.or_mod_two_pow, ha, hb]
  rfl

/-- No field reaches bits 1:0. -/
theorem pciFields_mod_four : pciFields bus slot func off % 2 ^ 2 = 0 := by
  simp only [pciFields, Nat.shiftLeft_eq]
  exact or_mod_eq_zero (or_mod_eq_zero (or_mod_eq_zero (by omega) (by omega)) (by omega)) (by omega)

/-- The address word as a number: bit 31, and the fields below bit 24. -/
theorem pciAddress_toNat : (pciAddress bus slot func off).toNat = 2 ^ 31 + pciFields bus slot func off := by
  have hlt := pciFields_lt bus slot func off
  have hbit : 2 ^ 31 + pciFields bus slot func off = 2 ^ 31 ||| pciFields bus slot func off :=
    Nat.two_pow_add_eq_or_of_lt (hlt.trans (by decide : 2 ^ 24 < 2 ^ 31)) 1
  rw [hbit, Nat.or_comm, pciFields, ← zext32_shiftLeft_toNat bus (by decide), ← zext32_shiftLeft_toNat slot (by decide),
    ← zext32_shiftLeft_toNat func (by decide), ← zext32_mask_toNat]
  simp only [pciAddress, BitVec.toNat_or]
  rfl

/-- In-range operands stand side by side, so their OR is their sum (R123). -/
theorem pciFields_eq_add (hslot : slot.toNat < 32) (hfunc : func.toNat < 8) :
    pciFields bus slot func off
      = bus.toNat * 2 ^ 16 + slot.toNat * 2 ^ 11 + func.toNat * 2 ^ 8 + off.toNat / 4 * 4 := by
  have hoff : off.toNat / 4 * 4 < 2 ^ 8 := (Nat.div_mul_le_self _ 4).trans_lt off.isLt
  have hbelowSlot : func.toNat <<< 8 + off.toNat / 4 * 4 < 2 ^ 11 := by rw [Nat.shiftLeft_eq]; omega
  have hbelowBus : slot.toNat <<< 11 + (func.toNat <<< 8 + off.toNat / 4 * 4) < 2 ^ 16 := by
    rw [Nat.shiftLeft_eq slot.toNat]; omega
  rw [pciFields, Nat.or_assoc, Nat.or_assoc, ← Nat.shiftLeft_add_eq_or_of_lt hoff,
    ← Nat.shiftLeft_add_eq_or_of_lt hbelowSlot, ← Nat.shiftLeft_add_eq_or_of_lt hbelowBus]
  simp only [Nat.shiftLeft_eq, Nat.add_assoc]

end

/-- Settles O15: bit 31 stands above the fields, which lie in bits 23:2. -/
theorem pciAddressFixedBitsAndFields : Obligations.PciAddressFixedBitsAndFields := by
  intro bus slot func off
  have hword := pciAddress_toNat bus slot func off
  have hlt := pciFields_lt bus slot func off
  have hlow := pciFields_mod_four bus slot func off
  refine ⟨bool_toNat_injective ((bit_toNat _ _).trans ?_), BitVec.eq_of_toNat_eq ((bits_toNat _ _ _).trans ?_),
    BitVec.eq_of_toNat_eq ((bits_toNat _ _ _).trans ?_), fun hslot hfunc => ?_⟩
  · rw [Bool.toNat_true]; omega
  · change _ = 0; omega
  · change _ = 0; omega
  · rw [hword, pciFields_eq_add bus slot func off hslot hfunc]; omega

/-! ### The half of the dword -/

/-- Sixteen bits of a dword from bit `n` up. -/
theorem shiftRight_and_half (dw : Word) (n : Nat) : (dw >>> n) &&& 0x0000FFFF = (dw.extractLsb' n 16).setWidth 32 := by
  apply BitVec.eq_of_toNat_eq
  rw [BitVec.toNat_and, BitVec.toNat_ushiftRight, BitVec.toNat_setWidth_of_le (by decide), BitVec.extractLsb'_toNat]
  exact Nat.and_two_pow_sub_one_eq_mod _ 16

/-- Bit 1 of `off` selects bits 31:16 of the dword or bits 15:0 (R84). -/
theorem pciHalf_eq_extract (off : Byte) (dw : Word) :
    pciHalf off dw = if off.getLsbD 1 = true then (dw.extractLsb' 16 16).setWidth 32 else (dw.extractLsb' 0 16).setWidth 32 := by
  have hbit : off &&& 0x02 = if off.getLsbD 1 then 0x02 else 0 := BitVec.and_twoPow off 1
  rw [pciHalf, shiftRight_and_half, hbit]
  cases off.getLsbD 1 <;> rfl

/-! ### The two steps -/

/-- A 32-bit port carries all of a value. -/
theorem carry_w32 (v : Word) : Width.w32.carry v = v :=
  (BitVec.setWidth_eq _).trans (BitVec.setWidth_eq v)

section
variable {bus slot func off : Byte} {s : State} {c : Context}

/-- Phase `C_WADDR`: the address word goes to 0xCF8 (R150). -/
theorem exec_pciCfgRead_cWAddr (r : Ready s (.pciCfgRead bus slot func off) c .pciAddr) (hp : c.phase = .cWAddr) :
    exec (.pciCfgRead bus slot func off) s = .next
      (afterWrite s (.pciCfgRead bus slot func off) .pciAddr (pciAddress bus slot func off) (Context.goTo .cRData c) false) := by
  have hbusy : c.phase ≠ .idle := by simp [hp]
  rw [exec_pciCfgRead, execPciCfgRead, runCommand_inFlight r.current hbusy r.latched]
  simp only [hp]
  rw [onWrite_granted (Ready.granted r), busWrite_update r, Handle.width, carry_w32]

/-- Phase `C_RDATA`: the dword is read from 0xCFC, and its half is the result (R150). -/
theorem exec_pciCfgRead_cRData (r : Ready s (.pciCfgRead bus slot func off) c .pciData) (hp : c.phase = .cRData) :
    exec (.pciCfgRead bus slot func off) s = .next
      (afterRead s (.pciCfgRead bus slot func off) .pciData (oracle s .pciData)
        (completed c (pciHalf off (oracle s .pciData)) .ok) true []) := by
  have hbusy : c.phase ≠ .idle := by simp [hp]
  rw [exec_pciCfgRead, execPciCfgRead, runCommand_inFlight r.current hbusy r.latched]
  simp only [hp]
  rw [onRead_granted (Ready.granted r), busRead_finish r, readValue_eq_oracle]

end

/-- Settles O14: the second step's half, written as the bits that `off[1]` selects. -/
theorem pciReadWritesAddressThenReadsHalf : Obligations.PciReadWritesAddressThenReadsHalf := by
  refine fun bus slot func off s c => ⟨exec_pciCfgRead_cWAddr, fun r hp => ?_⟩
  rw [← pciHalf_eq_extract]
  exact exec_pciCfgRead_cRData r hp

/-! ### The whole run -/

/-- The first of `n + 1` steps of a command. -/
theorem execs_succ {i : Instr} {s t : State} (h : exec i s = .next t) (n : Nat) : execs i (n + 1) s = execs i n t := by
  rw [execs, h]

/-- The context whose transaction this is, after it. -/
theorem getElem?_set_active {s : State} {c : Context} (hc : s.ctxs[s.active]? = some c) (d : Context) :
    (s.ctxs.set s.active d)[s.active]? = some d :=
  List.getElem?_set_self (List.getElem?_eq_some_iff.mp hc).1

/-- A GO touches no owner register (R119). -/
theorem owner_issue (s : State) (i : Instr) (k : BusClass) : (s.issue i).owner k = s.owner k := by cases k <;> rfl

/-- An accepted GO leaves its context ready for the first transaction (R119, R172). -/
theorem ready_issue {i : Instr} {s : State} {c : Context} {h : Handle} (hc : s.ctxs[s.active]? = some c) (hlock : h ∉ s.locks)
    (hown : s.cfg.busLock = true → s.owner i.busClass = none ∨ s.owner i.busClass = some s.active) :
    Ready (s.issue i) i (Context.issued i c) h where
  current := (List.getElem?_modify_eq _ _ _).trans (congrArg (Option.map (Context.issued i)) hc)
  latched := rfl
  lockFree := hlock
  ownerFree := by
    rw [owner_issue]
    exact hown

/-- A write that does not complete its command leaves its context ready for the next transaction (R172). -/
theorem ready_afterWrite {i : Instr} {s : State} {c d : Context} {h k : Handle} {v : Word} (r : Ready s i c h)
    (ho : d.op = some i) (hlock : k ∉ s.locks) : Ready (afterWrite s i h v d false) i d k where
  current := getElem?_set_active r.current d
  latched := ho
  lockFree := hlock
  ownerFree hb := by
    have hbusLock : s.cfg.busLock = true := hb
    rw [afterWrite_owner]
    exact .inr (by simp [ownerAfter, hbusLock, afterWrite])

/-- The next read returns the answer that the device side has fixed, where the port carries all of it. -/
theorem oracle_fixed {s : State} {h : Handle} {v : Word} {rest : List Word} (hw : h.width = .w32)
    (ha : s.answers = v :: rest) : oracle s h = v := by
  rw [← readValue_eq_oracle, State.readValue, hw, carry_w32, State.answer, ha]

/-- A GO or a write takes no answer of the device side (R91). -/
theorem oracle_issue (s : State) (i : Instr) (k : Handle) : oracle (s.issue i) k = oracle s k := rfl

theorem oracle_afterWrite (s : State) (i : Instr) (h : Handle) (v : Word) (c : Context) (b : Bool) (k : Handle) :
    oracle (afterWrite s i h v c b) k = oracle s k := rfl

/-- Settles O17: the GO, the write of the address word and the read of the dword, one after the other. -/
theorem pciReadIsOneWriteAndOneRead : Obligations.PciReadIsOneWriteAndOneRead := by
  intro bus slot func off s c dw rest hc hp hlocks hown ha
  have hfree (h : Handle) : h ∉ s.locks := by simp [hlocks]
  have hgo := exec_idle (i := .pciCfgRead bus slot func off) hc hp rfl
  have rwrite := ready_issue (i := .pciCfgRead bus slot func off) hc (hfree .pciAddr) hown
  have hwrite := exec_pciCfgRead_cWAddr rwrite rfl
  have rread := ready_afterWrite (k := .pciData) (v := pciAddress bus slot func off)
    (d := Context.goTo .cRData (Context.issued (.pciCfgRead bus slot func off) c)) rwrite rfl (hfree .pciData)
  have hread := exec_pciCfgRead_cRData rread rfl
  rw [oracle_afterWrite, oracle_issue, oracle_fixed rfl ha] at hread
  refine ⟨_, _, (execs_succ hgo 2).trans ((execs_succ hwrite 1).trans (execs_succ hread 0)),
    getElem?_set_active rread.current _, List.append_assoc _ _ _, rfl, rfl, rfl, rfl, rfl, rfl, rfl, rfl, rfl,
    List.append_nil _, congrArg List.tail ha⟩

end Sys2Proof.Proofs
end

section
/-! SUPPORT. The register file's arbiter (41_register_file_arbiter.md): the two port commands (R174, R175), the context that an owner
register holds back (R172), and what `BUS_LOCK` gives on the bus and on every run (R172, R196). -/

namespace Sys2Proof.Proofs

open Sys2Proof.Machine Sys2Proof.Spec Sys2Proof.Laws

/-! ### The port commands -/

/-- Settles O12: the command's one transaction, and its completion with the value read. -/
theorem portReadCompletesWithTheValueRead : Obligations.PortReadCompletesWithTheValueRead := by
  intro h s c r hp
  have hbusy : c.phase ≠ .idle := by simp [hp]
  rw [exec_portRead, execPortRead, runCommand_inFlight r.current hbusy r.latched]
  simp only [hp]
  rw [onRead_granted (Ready.granted r), busRead_finish r, readValue_eq_oracle]

/-- A value that fits the port is carried whole (R117). -/
theorem carry_of_lt {k : Width} {v : Word} (hv : v.toNat < 2 ^ k.bits) : k.carry v = v := by
  apply BitVec.eq_of_toNat_eq
  rw [Width.carry, BitVec.toNat_setWidth, BitVec.toNat_setWidth, Nat.mod_eq_of_lt hv, Nat.mod_eq_of_lt v.isLt]

/-- Settles O13: the command's one transaction, and its completion with `RESULT` 0. -/
theorem portWriteCompletesWithResultZero : Obligations.PortWriteCompletesWithResultZero := by
  intro h data s c r hp
  have hbusy : c.phase ≠ .idle := by simp [hp]
  refine ⟨?_, carry_of_lt⟩
  rw [exec_portWrite, execPortWrite, runCommand_inFlight r.current hbusy r.latched]
  simp only [hp]
  rw [onWrite_granted (Ready.granted r), busWrite_finish r]
  rfl

/-! ### A held context -/

/-- With `BUS_LOCK`, a transaction is granted to no context but the owner of its command's class, where the class has one (R172). -/
theorem owner_eq_active_of_granted {s : State} {i : Instr} {h : Handle} {m : Nat} (hg : s.granted i h = true)
    (hb : s.cfg.busLock = true) (hown : s.owner i.busClass = some m) : m = s.active := by
  obtain ⟨-, hfree⟩ := (s.granted_iff i h).mp hg
  rw [hown] at hfree
  rcases hfree hb with hnone | hself
  · cases hnone
  · exact Option.some.inj hself

/-- A command in flight that is granted no handle waits: in each of its phases its step begins with a transaction (R55). -/
theorem exec_waits {i : Instr} {s : State} {c : Context} (hc : s.current = some c) (ho : c.op = some i)
    (hphase : c.phase ∈ phasesOf i) (hidx : c.idx < 256) (hg : ∀ h, s.granted i h = false) : exec i s = .next s := by
  have hp : c.phase ≠ .idle := by
    intro hidle
    rw [hidle] at hphase
    cases i <;> simp [phasesOf] at hphase
  have hread (h : Handle) (k : Word → State → StepResult) : onRead i h s k = .next s := onRead_waits (hg h) k
  have hwrite (h : Handle) (v : Word) (k : State → StepResult) : onWrite i h v s k = .next s := onWrite_waits (hg h) v k
  cases i with
  | portRead h =>
    rw [exec_portRead, execPortRead, runCommand_inFlight hc hp ho]
    split
    · exact hread _ _
    · simp_all [phasesOf]
  | portWrite h data =>
    rw [exec_portWrite, execPortWrite, runCommand_inFlight hc hp ho]
    split
    · exact hwrite _ _ _
    · simp_all [phasesOf]
  | pciCfgRead bus slot func off =>
    rw [exec_pciCfgRead, execPciCfgRead, runCommand_inFlight hc hp ho]
    split
    · exact hwrite _ _ _
    · exact hread _ _
    · simp_all [phasesOf]
  | ataIdentify d =>
    rw [exec_ataIdentify, execAtaIdentify, runCommand_inFlight hc hp ho, if_pos hidx]
    split
    -- six writes, five reads, the data phase
    iterate 6 exact hwrite _ _ _
    iterate 6 exact hread _ _
    simp_all [phasesOf]
  | ataReadSector lba =>
    rw [exec_ataReadSector, execAtaReadSector, runCommand_inFlight hc hp ho, if_pos hidx]
    split
    -- six writes, the poll, the data phase
    iterate 6 exact hwrite _ _ _
    iterate 2 exact hread _ _
    simp_all [phasesOf]

/-- Settles O37: the owner register grants the context no handle of its command's class, so the context waits. -/
theorem heldContextHasNoStep : Obligations.HeldContextHasNoStep := by
  intro i s c m hc ho hphase hidx hb hown hm
  have hheld (h : Handle) : s.granted i h = false :=
    Bool.eq_false_of_not_eq_true fun hg => hm (owner_eq_active_of_granted hg hb hown)
  exact exec_waits hc ho hphase hidx hheld

/-! ### The bus of an owned class -/

/-- A step of a command that adds an event to the trace is a transaction. -/
theorem accesses_of_exec {i : Instr} {s t : State} {e : BusEvent} (h : exec i s = .next t)
    (htrace : t.trace = s.trace ++ [e]) : Accesses i s t := by
  have hmore : s.trace ≠ s.trace ++ [e] := by simp
  cases exec_next_cases h with
  | waits => exact absurd htrace hmore
  | accepted => exact absurd htrace hmore
  | bad => exact absurd htrace hmore
  | turnedAway => exact absurd htrace hmore
  | accesses _ _ _ _ _ ha => exact ha

/-- An agent's step that adds an event to the trace is a transaction of the context picked (R176). -/
theorem accesses_of_agentStep {ev : Event} {s t : State} {e : BusEvent} (h : AgentStep s ev t)
    (htrace : t.trace = s.trace ++ [e]) : ∃ n i, Accesses i (s.select n) t := by
  rcases agentStep_trace h with hsame | ⟨n, rfl, -⟩
  · simp [hsame] at htrace
  · cases h with
    | passedOver => simp at htrace
    | command n _ i _ _ _ _ hexec => exact ⟨n, i, accesses_of_exec hexec htrace⟩

/-- The event of a transaction: the active context was granted its handle, which is one of the command's class. -/
theorem granted_of_accesses {i : Instr} {s t : State} {e : BusEvent} (h : Accesses i s t)
    (htrace : t.trace = s.trace ++ [e]) :
    ∃ k, s.granted i k = true ∧ k.busClass = i.busClass ∧ e.port = k.addr ∧ e.ctx = s.active := by
  obtain ⟨k, u, hg, hclass, ht, hu⟩ := h
  have hsame {x : BusEvent} (hx : u.trace = s.trace ++ [x]) : x = e := by
    simpa using hx.symm.trans (ht.trace.symm.trans htrace)
  rcases hu with rfl | ⟨v, rfl, -⟩
  · cases hsame rfl
    exact ⟨k, hg, hclass, rfl, rfl⟩
  · cases hsame rfl
    exact ⟨k, hg, hclass, rfl, rfl⟩

/-- Every handle but the two of the PCI mechanism is of the ATA class (R31, R172). -/
theorem busClass_eq_ata {k : Handle} (haddr : k.addr ≠ 0xCF8) (hdata : k.addr ≠ 0xCFC) : k.busClass = .ata := by
  cases k with
  | pciAddr => exact absurd rfl haddr
  | pciData => exact absurd rfl hdata
  | _ => rfl

/-- Settles O41: a granted transaction at an ATA port is one of the ATA class, whose owner register names its context. -/
theorem ownedAtaBusHasNoOtherTransactions : Obligations.OwnedAtaBusHasNoOtherTransactions := by
  intro s t n e hb hown h htrace haddr hdata
  obtain ⟨m, i, ha⟩ := accesses_of_agentStep (s := s.dropEvent) (agentStep_of_step h) htrace
  obtain ⟨k, hg, hclass, hport, hctx⟩ := granted_of_accesses ha htrace
  rw [hport] at haddr hdata
  have howner : (s.dropEvent.select m).owner i.busClass = some n := by
    rw [← hclass, busClass_eq_ata haddr hdata]
    exact hown
  exact hctx.trans (owner_eq_active_of_granted hg hb howner).symm

/-! ### Every run from the start -/

/-- The block at model start is well-formed: every context is at reset, and nothing is owned (R340). -/
theorem inv_start {cfg : Config} (hw : cfg.wf = true) : (State.start cfg).Inv := by
  have hreset : ∀ c ∈ (State.start cfg).ctxs, c = .reset := fun c hc => List.eq_of_mem_replicate hc
  have hnone : ∀ k, (State.start cfg).owner k = none := fun k => by cases k <;> rfl
  exact
    { cfgWf := hw
      contexts := List.length_replicate
      locksFree := rfl
      contextInv := fun c hc => by rw [hreset c hc]; exact Context.reset_inv
      ownersAbsent := fun _ => hnone
      ownerStarted := fun k n h => by simp [hnone] at h
      startedOwns := fun _ k n c hc hst => by
        rw [hreset c (List.mem_of_getElem? hc)] at hst
        exact absurd hst (not_started_of_idle rfl k) }

/-- Every state on a run from a well-formed one is well-formed, with the parameters of the first (R6). -/
theorem inv_of_reaches {s t : State} (hs : s.Inv) (h : Reaches s t) : t.Inv ∧ t.cfg = s.cfg := by
  induction h with
  | here => exact ⟨hs, rfl⟩
  | next _ hstep ih =>
    obtain ⟨ht, hcfg⟩ := ih
    obtain ⟨-, -, hcfgStep, -⟩ := Extends.of_agentStep (agentStep_of_step hstep)
    exact ⟨stepKeepsTheInvariant _ _ ht hstep, hcfgStep.trans hcfg⟩

/-- Settles O42: on every run a context past its first transaction owns its command's class, and a class has one owner. -/
theorem busLockAdmitsOneStartedContextPerClass : Obligations.BusLockAdmitsOneStartedContextPerClass := by
  intro cfg agenda answers s k m n c d hw hb hreach hc hd hcst hdst
  have hstart : State.Inv { State.start cfg with agenda := agenda, answers := answers } :=
    (inv_start hw).of_same rfl rfl rfl rfl rfl
  obtain ⟨hs, hcfg⟩ := inv_of_reaches hstart hreach
  have hlock : s.cfg.busLock = true := (congrArg Config.busLock hcfg).trans hb
  have hm : s.owner k = some m := hs.startedOwns hlock k m c hc hcst
  have hn : s.owner k = some n := hs.startedOwns hlock k n d hd hdst
  exact Option.some.inj (hm.symm.trans hn)

end Sys2Proof.Proofs
end

section
/-! SUPPORT. The status poller (42_status_poller.md): one iteration of each of the three polls (R191, R192), and the polls as
loops, with a limit (R195) and without (R194). -/

namespace Sys2Proof.Proofs

open Sys2Proof.Machine Sys2Proof.Spec Sys2Proof.Laws

/-! ### The count of the reads -/

/-- `ITER` counts one read more, up to 2^32-1 (R43). -/
theorem countRead_toNat (n : Word) : (countRead n).toNat = min (n.toNat + 1) (2 ^ 32 - 1) := by
  have hlt := n.isLt
  rw [countRead]
  split
  next hmax => simp [hmax]
  next hmax =>
    have hne : n.toNat ≠ 2 ^ 32 - 1 := fun h => hmax (BitVec.eq_of_toNat_eq h)
    have hone : (1 : Word).toNat = 1 := rfl
    rw [BitVec.toNat_add, hone]
    omega

theorem saturated_toNat (n : Nat) : (saturated n).toNat = min n (2 ^ 32 - 1) := by
  rw [saturated, BitVec.toNat_ofNat]
  omega

/-- One read more than `n` reads. -/
theorem countRead_saturated (n : Nat) : countRead (saturated n) = saturated (n + 1) := by
  apply BitVec.eq_of_toNat_eq
  rw [countRead_toNat, saturated_toNat, saturated_toNat]
  omega

/-- With `m + 1` reads left to the limit `n`, the next read is counted whole. -/
theorem countRead_toNat_of_left {iter n : Word} {m : Nat} (hleft : iter.toNat + (m + 1) = n.toNat) :
    (countRead iter).toNat = iter.toNat + 1 := by
  have hlt := n.isLt
  rw [countRead_toNat]
  omega

/-- With `m + 1` reads left to the limit `n`, the next read reaches it if it is the only one left (R191). -/
theorem limitReached_of_left {iter n : Word} {m : Nat} (hleft : iter.toNat + (m + 1) = n.toNat) :
    limitReached (some n) (countRead iter) = decide (m = 0) := by
  rw [limitReached, decide_eq_decide, BitVec.le_def, countRead_toNat_of_left hleft]
  omega

/-! ### The read of an iteration -/

/-- A read adds the device's next answer to the trace, at the width of its handle (R91). -/
theorem afterRead_trace (s : State) (i : Instr) (h : Handle) (d : Context) (b : Bool) (es : List LogEvent) :
    (afterRead s i h (oracle s h) d b es).trace = s.trace ++ readEvents s.active h [s.answer] := rfl

/-- The byte read at an 8-bit handle is the low byte of the device's next answer. -/
theorem oracleByte_eq_answer {s : State} {h : Handle} (hw : h.width = .w8) : oracleByte s h = s.answer.setWidth 8 := by
  have hbyte : ((s.answer.setWidth 8).setWidth 32).setWidth 8 = s.answer.setWidth 8 := by simp
  rw [oracleByte, ← readValue_eq_oracle, State.readValue, hw]
  exact hbyte

/-- A read that does not complete its command leaves its context ready for the next transaction (R172). -/
theorem ready_afterRead {i : Instr} {s : State} {c d : Context} {h k : Handle} {v : Word} {es : List LogEvent}
    (r : Ready s i c h) (ho : d.op = some i) (hlock : k ∉ s.locks) : Ready (afterRead s i h v d false es) i d k where
  current := getElem?_set_active r.current d
  latched := ho
  lockFree := hlock
  ownerFree hb := by
    have hbusLock : s.cfg.busLock = true := hb
    rw [afterRead_owner]
    exact .inr (by simp [ownerAfter, hbusLock, afterRead])

/-- The events of one read and of the reads after it. -/
theorem append_readEvents_cons (trace : List BusEvent) (n : Nat) (h : Handle) (v : Word) (vs : List Word) :
    trace ++ readEvents n h [v] ++ readEvents n h vs = trace ++ readEvents n h (v :: vs) :=
  List.append_assoc _ _ _

/-! ### One iteration (R191) -/

/-- The state after a poll's read by context `c`, now `d`: the event logged has the new count and the byte (R191). -/
def afterPoll (s : State) (i : Instr) (c : Context) (cond : PollCond) (d : Context) (completes : Bool) : State :=
  afterRead s i .cmdstat (oracle s .cmdstat) d completes
    [.poll s.active cond (countRead c.iter) (oracleByte s .cmdstat)]

section
variable {i : Instr} {s : State} {c : Context} {cond : PollCond} {next : Phase}
variable (r : Ready s i c .cmdstat) (hpoll : pollOf i c.phase = some (cond, next))
include r hpoll

/-- In each of the three polls the step is a read of `CMDSTAT` and a poll iteration with its byte (R192, R210, R270). -/
theorem exec_poll : exec i s = .next ((s.busRead i .cmdstat).pollStep c cond next (oracleByte s .cmdstat)) := by
  have hbusy : c.phase ≠ .idle := by
    intro hidle
    rw [hidle] at hpoll
    cases i <;> simp [pollOf] at hpoll
  have hrun := runCommand_inFlight r.current hbusy r.latched
  have hread := onRead_granted (Ready.granted r)
  unfold pollOf at hpoll
  split at hpoll <;> cases hpoll
  next hphase =>
    rw [exec_ataIdentify, execAtaIdentify, hrun]
    simp only [hphase]
    exact hread _
  next hphase =>
    rw [exec_ataIdentify, execAtaIdentify, hrun]
    simp only [hphase]
    exact hread _
  next hphase =>
    rw [exec_ataReadSector, execAtaReadSector, hrun]
    simp only [hphase]
    exact hread _

/-- The condition holds: the next phase. -/
theorem exec_poll_holds (h : condHolds cond (oracleByte s .cmdstat) = true) :
    exec i s = .next
      (afterPoll s i c cond (Context.goTo next (Context.polled (oracleByte s .cmdstat) c)) false) := by
  rw [condHolds_eq] at h
  rw [exec_poll r hpoll, State.pollStep_holds h, busRead_update_logEvent_update r]
  rfl

/-- The condition fails at the limit: TIMEOUT, with the byte as the result. -/
theorem exec_poll_timeout (h : condHolds cond (oracleByte s .cmdstat) = false)
    (hl : limitReached s.cfg.pollLimit (countRead c.iter) = true) :
    exec i s = .next
      (afterPoll s i c cond
        (completed (Context.polled (oracleByte s .cmdstat) c) (zext32 (oracleByte s .cmdstat)) .timeout) true) := by
  rw [condHolds_eq] at h
  rw [exec_poll r hpoll, State.pollStep_timeout (s := s.busRead i .cmdstat) h hl, busRead_update_logEvent_finish r]
  rfl

/-- The condition fails below the limit: the poll goes on. -/
theorem exec_poll_again (h : condHolds cond (oracleByte s .cmdstat) = false)
    (hl : limitReached s.cfg.pollLimit (countRead c.iter) = false) :
    exec i s = .next (afterPoll s i c cond (Context.polled (oracleByte s .cmdstat) c) false) := by
  rw [condHolds_eq] at h
  rw [exec_poll r hpoll, State.pollStep_again (s := s.busRead i .cmdstat) h hl, busRead_update r, afterRead_logEvent]
  rfl

end

/-- Settles O18: the three ways on of an iteration, by the condition and the limit. -/
theorem pollIterationReadsTestsAndLogs : Obligations.PollIterationReadsTestsAndLogs := by
  intro i s c cond next r hpoll v n d events
  have hbyte : v.setWidth 32 = oracle s .cmdstat := oracleByte_zext rfl
  split_ifs with hcond hlimit
  · rw [hbyte]
    exact exec_poll_holds r hpoll hcond
  · rw [exec_poll_timeout r hpoll (by simpa using hcond) ((limitReached_iff _ _).mpr hlimit), afterPoll, ← hbyte]
    rfl
  · have hbelow := Bool.eq_false_of_not_eq_true (mt (limitReached_iff s.cfg.pollLimit n).mp hlimit)
    rw [hbyte]
    exact exec_poll_again r hpoll (by simpa using hcond) hbelow

/-! ### The loop -/

/-- A poll that goes on is ready for its next read. -/
theorem ready_afterPoll {i : Instr} {s : State} {c : Context} (r : Ready s i c .cmdstat) (cond : PollCond) (v : Byte) :
    Ready (afterPoll s i c cond (Context.polled v c) false) i (Context.polled v c) .cmdstat :=
  ready_afterRead r r.latched r.lockFree

/-- Some number of reads of `CMDSTAT`, 1 to `m`, takes the poll to its phase `next`, or all `m` take it to TIMEOUT (R195). -/
def PollEndsWithin (i : Instr) (s : State) (next : Phase) (m : Nat) : Prop :=
  ∃ k t d vs, 1 ≤ k ∧ k ≤ m ∧ execs i k s = .next t ∧ t.ctxs[s.active]? = some d ∧ vs.length = k ∧
    t.trace = s.trace ++ readEvents s.active .cmdstat vs ∧
    (d.phase = next ∨ (d.phase = .idle ∧ d.status.outcome = .timeout ∧ d.status.done = true ∧ k = m))

section
variable {i : Instr} {s : State} {c d : Context} {cond : PollCond} {next : Phase} {m : Nat}

/-- The poll ends with this read. -/
theorem pollEndsWithin_of_last {b : Bool} (r : Ready s i c .cmdstat) (h : exec i s = .next (afterPoll s i c cond d b))
    (hd : d.phase = next ∨ (d.phase = .idle ∧ d.status.outcome = .timeout ∧ d.status.done = true ∧ 1 = m + 1)) :
    PollEndsWithin i s next (m + 1) :=
  ⟨1, _, d, [s.answer], le_rfl, by omega, execs_succ h 0, getElem?_set_active r.current d, rfl, afterRead_trace .., hd⟩

/-- The poll ends after the reads that follow this one. -/
theorem pollEndsWithin_of_later (h : exec i s = .next (afterPoll s i c cond d false))
    (hlater : PollEndsWithin i (afterPoll s i c cond d false) next m) : PollEndsWithin i s next (m + 1) := by
  obtain ⟨k, t, e, vs, -, hk, hrun, hctx, hlen, htrace, hend⟩ := hlater
  refine ⟨k + 1, t, e, s.answer :: vs, by omega, by omega, (execs_succ h k).trans hrun, hctx, congrArg (· + 1) hlen,
    htrace.trans (append_readEvents_cons ..), hend.imp_right ?_⟩
  rintro ⟨hidle, hout, hdone, rfl⟩
  exact ⟨hidle, hout, hdone, rfl⟩

/-- A poll with `m + 1` reads left to its limit ends within them, whatever the device answers (R195). -/
theorem pollEndsWithin_of_left {n : Word} (r : Ready s i c .cmdstat) (hpoll : pollOf i c.phase = some (cond, next))
    (hcfg : s.cfg.pollLimit = some n) (hleft : c.iter.toNat + (m + 1) = n.toNat) : PollEndsWithin i s next (m + 1) := by
  induction m generalizing s c with
  | zero =>
    have hlimit : limitReached s.cfg.pollLimit (countRead c.iter) = true := by rw [hcfg, limitReached_of_left hleft]; rfl
    cases hcond : condHolds cond (oracleByte s .cmdstat) with
    | true => exact pollEndsWithin_of_last r (exec_poll_holds r hpoll hcond) (.inl rfl)
    | false => exact pollEndsWithin_of_last r (exec_poll_timeout r hpoll hcond hlimit) (.inr ⟨rfl, rfl, rfl, rfl⟩)
  | succ m ih =>
    have hlimit : limitReached s.cfg.pollLimit (countRead c.iter) = false := by rw [hcfg, limitReached_of_left hleft]; rfl
    cases hcond : condHolds cond (oracleByte s .cmdstat) with
    | true => exact pollEndsWithin_of_last r (exec_poll_holds r hpoll hcond) (.inl rfl)
    | false =>
      have hnext : (Context.polled (oracleByte s .cmdstat) c).iter.toNat + (m + 1) = n.toNat := by
        rw [Context.polled, countRead_toNat_of_left hleft]
        omega
      exact pollEndsWithin_of_later (exec_poll_again r hpoll hcond hlimit)
        (ih (ready_afterPoll r cond _) hpoll hcfg hnext)

end

/-- Settles O19: with `ITER` 0, as many reads are left as the limit says. -/
theorem boundedPollEndsWithinItsLimit : Obligations.BoundedPollEndsWithinItsLimit := by
  intro i s c p cond next n r _ hp hpoll hiter hcfg hn
  subst hp
  have hpos : n.toNat ≠ 0 := fun h => hn (BitVec.eq_of_toNat_eq h)
  obtain ⟨m, hm⟩ := Nat.exists_eq_succ_of_ne_zero hpos
  rw [hm]
  exact pollEndsWithin_of_left r hpoll hcfg (by rw [hiter, hm]; exact Nat.zero_add _)

/-- An unlimited poll that has made `m` reads goes on through any answers that fail its condition (R194). -/
theorem unlimitedPoll_spins {i : Instr} {s : State} {c : Context} {cond : PollCond} {next : Phase} {bad rest : List Word}
    {m : Nat} (r : Ready s i c .cmdstat) (hpoll : pollOf i c.phase = some (cond, next)) (hiter : c.iter = saturated m)
    (hcfg : s.cfg.pollLimit = none) (ha : s.answers = bad ++ rest)
    (hbad : ∀ a ∈ bad, condHolds cond (a.setWidth 8) = false) :
    ∃ t d, execs i bad.length s = .next t ∧ t.ctxs[s.active]? = some d ∧ d.phase = c.phase ∧ d.status = c.status ∧
      d.iter = saturated (m + bad.length) ∧ t.trace = s.trace ++ readEvents s.active .cmdstat bad ∧ t.answers = rest := by
  induction bad generalizing s c m with
  | nil => exact ⟨s, c, rfl, r.current, rfl, rfl, hiter, (List.append_nil _).symm, ha⟩
  | cons a bad ih =>
    have hanswer : s.answer = a := by rw [State.answer, ha]; rfl
    have hcond : condHolds cond (oracleByte s .cmdstat) = false := by
      rw [oracleByte_eq_answer rfl, hanswer]
      exact hbad a List.mem_cons_self
    have hlimit : limitReached s.cfg.pollLimit (countRead c.iter) = false := by rw [hcfg]; rfl
    have hstep := exec_poll_again r hpoll hcond hlimit
    have hcount : countRead c.iter = saturated (m + 1) := by rw [hiter, countRead_saturated]
    obtain ⟨t, d, hrun, hctx, hphase, hstatus, hd, htrace, hrest⟩ :=
      ih (ready_afterPoll r cond (oracleByte s .cmdstat)) hpoll hcount hcfg (congrArg List.tail ha)
        fun x hx => hbad x (List.mem_cons_of_mem a hx)
    refine ⟨t, d, (execs_succ hstep _).trans hrun, hctx, hphase, hstatus, ?_, ?_, hrest⟩
    · rw [hd, List.length_cons, Nat.add_right_comm, Nat.add_assoc]
    · rw [htrace, ← append_readEvents_cons, ← hanswer]
      rfl

/-- Settles O20: a poll just entered has made no read. -/
theorem unboundedPollSpinsWhileItsConditionFails : Obligations.UnboundedPollSpinsWhileItsConditionFails := by
  intro i s c cond next bad rest r _ hpoll hiter hcfg ha hbad
  have hspins := unlimitedPoll_spins (m := 0) r hpoll hiter hcfg ha hbad
  rwa [Nat.zero_add] at hspins

end Sys2Proof.Proofs
end

section
/-! SUPPORT. The drive identify engine (43_drive_identify.md), one step at a time: the six writes (R212), the read-back and the
signature with their signals (R213 to R216), and the data phase that fills the buffer and decodes it (R218 to R220). -/

namespace Sys2Proof.Proofs

open Sys2Proof.Machine Sys2Proof.Spec Sys2Proof.Laws

/-! ### One transaction of IDENTIFY -/

/-- The byte of an 8-bit read, as the low byte of the value read. -/
theorem readValue_byte (s : State) (h : Handle) : (s.readValue h).setWidth 8 = oracleByte s h := rfl

/-- A byte fits every port. -/
theorem carry_byte (k : Width) (b : Byte) : k.carry (b.setWidth 32) = b.setWidth 32 := by
  have hlt : b.toNat < 2 ^ 8 := b.isLt
  apply carry_of_lt
  rw [BitVec.toNat_setWidth]
  cases k <;> simp only [Width.bits] <;> omega

/-- A write phase of a command: the value written, and the next phase. -/
theorem onWrite_goTo {i : Instr} {s : State} {c : Context} {h : Handle} (r : Ready s i c h) (v : Word) (q : Phase) :
    onWrite i h v s (fun t => .next (t.update (Context.goTo q))) = .next
      (afterWrite s i h (h.width.carry v) (Context.goTo q c) false) := by
  rw [onWrite_granted (Ready.granted r), busWrite_update r]

/-- Settles O21: each row of the list is a phase of the engine, and a byte fits its port. -/
theorem identifyPerformsItsSixWrites : Obligations.IdentifyPerformsItsSixWrites := by
  intro d s c row hrow r hp
  have hbusy : c.phase ≠ .idle := by
    rw [hp]
    revert row
    simp [identifyWrites]
  have hselect : identifySelect s.cfg d = if d = .master then s.cfg.idselMaster else s.cfg.idselSlave := by cases d <;> rfl
  rw [exec_ataIdentify, execAtaIdentify, runCommand_inFlight r.current hbusy r.latched]
  simp only [identifyWrites, List.mem_cons, List.not_mem_nil, or_false] at hrow
  rcases hrow with rfl | rfl | rfl | rfl | rfl | rfl <;> simp only at hp r ⊢ <;> simp only [hp]
  · rw [onWrite_goTo r, carry_byte, hselect]
    rfl
  iterate 5 exact onWrite_goTo r _ _

/-- `SIG[23:16] <- b` in the registers of a context (R215). -/
def readHigh (b : Byte) (c : Context) : Context := { c with sig := setSigHigh c.sig b }

section
variable {d : Drive} {s : State} {c : Context}

/-- Phase `I_S0`: the status byte is read back (R213). -/
theorem exec_ataIdentify_iS0 (r : Ready s (.ataIdentify d) c .cmdstat) (hp : c.phase = .iS0) :
    exec (.ataIdentify d) s = .next
      (identifyReadBack (oracleByte s .cmdstat) (s.busRead (.ataIdentify d) .cmdstat)) := by
  have hbusy : c.phase ≠ .idle := by simp [hp]
  rw [exec_ataIdentify, execAtaIdentify, runCommand_inFlight r.current hbusy r.latched]
  simp only [hp]
  rw [onRead_granted (Ready.granted r), readValue_byte]

/-- Phase `I_RHI`: the LBA-high byte is read (R215). -/
theorem exec_ataIdentify_iRHi (r : Ready s (.ataIdentify d) c .lbaHi) (hp : c.phase = .iRHi) :
    exec (.ataIdentify d) s = .next
      (identifySignature c (oracleByte s .lbaHi) (s.busRead (.ataIdentify d) .lbaHi)) := by
  have hbusy : c.phase ≠ .idle := by simp [hp]
  rw [exec_ataIdentify, execAtaIdentify, runCommand_inFlight r.current hbusy r.latched]
  simp only [hp]
  rw [onRead_granted (Ready.granted r), readValue_byte]

/-- Phase `I_DATA`: a data word is read (R218). -/
theorem exec_ataIdentify_iData (r : Ready s (.ataIdentify d) c .data) (hp : c.phase = .iData) (hidx : c.idx < 256) :
    exec (.ataIdentify d) s =
      identifyWord c ((oracle s .data).setWidth 16) (s.busRead (.ataIdentify d) .data) := by
  have hbusy : c.phase ≠ .idle := by simp [hp]
  rw [exec_ataIdentify, execAtaIdentify, runCommand_inFlight r.current hbusy r.latched]
  simp only [hp]
  rw [if_pos hidx, onRead_granted (Ready.granted r), readValue_eq_oracle]

end

section
variable {d : Drive} {s : State} {c : Context}

section
variable (r : Ready s (.ataIdentify d) c .cmdstat) (hp : c.phase = .iS0)
include r hp

/-- A nonzero byte is read back: the BSY poll, and no signal. -/
theorem exec_readBack_present (hb : oracleByte s .cmdstat ≠ 0) :
    exec (.ataIdentify d) s = .next
      (afterRead s (.ataIdentify d) .cmdstat (oracle s .cmdstat)
        (Context.enterPoll .iBsy (Context.readBack (oracleByte s .cmdstat) c)) false []) := by
  rw [exec_ataIdentify_iS0 r hp, identifyReadBack, if_neg hb, busRead_update_update r, busRead_update r]
  rfl

/-- A zero is read back with `EARLY_ABORT`: the completion ABSENT. -/
theorem exec_readBack_aborts (hb : oracleByte s .cmdstat = 0) (habort : s.cfg.earlyAbort = true) :
    exec (.ataIdentify d) s = .next
      (afterRead s (.ataIdentify d) .cmdstat (oracle s .cmdstat)
        (completed (Context.markAbsent (Context.readBack (oracleByte s .cmdstat) c)) 0 .absent) true
        [.absent s.active]) := by
  rw [exec_ataIdentify_iS0 r hp, identifyReadBack, if_pos hb, State.busRead_cfg, if_pos habort, busRead_update_update r,
    busRead_update_logEvent_finish r]
  rfl

/-- A zero is read back without `EARLY_ABORT`: the signal, and the BSY poll all the same. -/
theorem exec_readBack_absent (hb : oracleByte s .cmdstat = 0) (habort : ¬ s.cfg.earlyAbort = true) :
    exec (.ataIdentify d) s = .next
      (afterRead s (.ataIdentify d) .cmdstat (oracle s .cmdstat)
        (Context.enterPoll .iBsy (Context.markAbsent (Context.readBack (oracleByte s .cmdstat) c))) false
        [.absent s.active]) := by
  rw [exec_ataIdentify_iS0 r hp, identifyReadBack, if_pos hb, State.busRead_cfg, if_neg habort, busRead_update_update r,
    busRead_update_logEvent_update r]
  rfl

end

section
variable (r : Ready s (.ataIdentify d) c .lbaHi) (hp : c.phase = .iRHi)
include r hp

/-- Both signature bytes are 0: the DRQ poll, and no signal. -/
theorem exec_signature_ata (hb : ¬ (sigMid c.sig ≠ 0 ∨ oracleByte s .lbaHi ≠ 0)) :
    exec (.ataIdentify d) s = .next
      (afterRead s (.ataIdentify d) .lbaHi (oracle s .lbaHi)
        (Context.enterPoll .iDrq (readHigh (oracleByte s .lbaHi) c)) false []) := by
  rw [exec_ataIdentify_iRHi r hp, identifySignature, if_neg hb, busRead_update_update r, busRead_update r]
  rfl

/-- A nonzero signature byte with `EARLY_ABORT`: the completion NOT_ATA. -/
theorem exec_signature_aborts (hb : sigMid c.sig ≠ 0 ∨ oracleByte s .lbaHi ≠ 0) (habort : s.cfg.earlyAbort = true) :
    exec (.ataIdentify d) s = .next
      (afterRead s (.ataIdentify d) .lbaHi (oracle s .lbaHi)
        (completed (Context.markNotAta (readHigh (oracleByte s .lbaHi) c)) (lastWord c) .notAta) true
        [.notAta s.active (sigMid c.sig) (oracleByte s .lbaHi)]) := by
  rw [exec_ataIdentify_iRHi r hp, identifySignature, if_pos hb, State.busRead_cfg, if_pos habort, busRead_update_update r,
    busRead_update_logEvent_finish r, lastResult_eq]
  rfl

/-- A nonzero signature byte without `EARLY_ABORT`: the signal, and the DRQ poll all the same. -/
theorem exec_signature_notAta (hb : sigMid c.sig ≠ 0 ∨ oracleByte s .lbaHi ≠ 0) (habort : ¬ s.cfg.earlyAbort = true) :
    exec (.ataIdentify d) s = .next
      (afterRead s (.ataIdentify d) .lbaHi (oracle s .lbaHi)
        (Context.enterPoll .iDrq (Context.markNotAta (readHigh (oracleByte s .lbaHi) c))) false
        [.notAta s.active (sigMid c.sig) (oracleByte s .lbaHi)]) := by
  rw [exec_ataIdentify_iRHi r hp, identifySignature, if_pos hb, State.busRead_cfg, if_neg habort, busRead_update_update r,
    busRead_update_logEvent_update r]
  rfl

end

end

/-- Settles O22: a nonzero byte, the early abort, and the absent device that is polled on. -/
theorem identifyReadBackSignalsAbsent : Obligations.IdentifyReadBackSignalsAbsent := by
  intro d s c r hp b c1 c2
  have hbyte : b.setWidth 32 = oracle s .cmdstat := oracleByte_zext rfl
  rw [hbyte]
  split_ifs with hpresent habort
  · exact exec_readBack_present r hp hpresent
  · exact exec_readBack_aborts r hp (not_not.mp hpresent) habort
  · exact exec_readBack_absent r hp (not_not.mp hpresent) habort

/-- Settles O23: the step's read, and the byte's place in `SIG`. -/
theorem identifyReadsLbaMidIntoSig : Obligations.IdentifyReadsLbaMidIntoSig := by
  intro d s c r hp
  have hbusy : c.phase ≠ .idle := by simp [hp]
  rw [exec_ataIdentify, execAtaIdentify, runCommand_inFlight r.current hbusy r.latched]
  simp only [hp]
  rw [onRead_granted (Ready.granted r), busRead_update r]
  rfl

/-- Settles O24: an ATA signature, the early abort, and the non-ATA device that is polled on. -/
theorem identifyReadsLbaHighAndSignalsNotAta : Obligations.IdentifyReadsLbaHighAndSignalsNotAta := by
  intro d s c r hp m h c1 c2
  have hbyte : h.setWidth 32 = oracle s .lbaHi := oracleByte_zext rfl
  have hsignal : (sigMid c.sig ≠ 0 ∨ h ≠ 0) ↔ ¬ (m = 0 ∧ h = 0) := not_and_or.symm
  rw [hbyte]
  split_ifs with hata habort
  · exact exec_signature_ata r hp (fun hnot => hsignal.mp hnot hata)
  · exact exec_signature_aborts r hp (hsignal.mpr hata) habort
  · exact exec_signature_notAta r hp (hsignal.mpr hata) habort

/-- Settles O25: the word goes to its cell, and the phase stays. -/
theorem identifyStoresEachDataWord : Obligations.IdentifyStoresEachDataWord := by
  intro d s c r hp hidx
  rw [exec_ataIdentify_iData r hp (by omega), identifyWord, if_neg (by omega), busRead_update r]
  rfl

/-- The write of the last cell fills a buffer whose other cells are written. -/
theorem full_write_last {m : Memory} (hm : ∀ k < 255, (Memory.read m k).isSome = true) (v : Half) :
    Memory.full (Memory.write m 255 v) = true := by
  rw [Memory.full_iff]
  intro k hk
  by_cases hlast : k = 255
  · rw [hlast, Memory.read_write_same]
    rfl
  · rw [Memory.read_write_other m v hlast]
    exact hm k (by omega)

/-- Settles O26: the 256th word fills the buffer, so the decoder has its block. -/
theorem identifyCompletesWithTheDecodedRecord : Obligations.IdentifyCompletesWithTheDecodedRecord := by
  intro d s c r hp hidx hwritten buf outcome
  have hfull : Memory.full buf = true := full_write_last hwritten _
  rw [exec_ataIdentify_iData r hp (by omega)]
  simp only [identifyWord, hidx, if_true]
  rw [if_pos hfull, busRead_update r, afterRead_update r.current, afterRead_finish r.current, lastResult_eq]
  rfl

end Sys2Proof.Proofs
end

section
/-! SUPPORT. Whole operations in stretches: what a stretch starts from and ends with, and how stretches join. The stretches that
IDENTIFY and READ_SECTOR share: the GO (R119), writes in a row (R212, R271 to R274), a poll that ends in time (R191) and the data
phase (R218, R276). -/

namespace Sys2Proof.Proofs

open Sys2Proof.Machine Sys2Proof.Spec Sys2Proof.Laws

/-! ### Stretches of an operation -/

/-- From every state with `P`, `n` steps of command `i` lead to one with `Q`. -/
def Leads (i : Instr) (n : Nat) (P Q : State → Prop) : Prop := ∀ s, P s → ∃ t, execs i n s = .next t ∧ Q t

theorem Leads.refl (i : Instr) (P : State → Prop) : Leads i 0 P P := fun s h => ⟨s, rfl, h⟩

theorem Leads.step {i : Instr} {P Q : State → Prop} (h : ∀ s, P s → ∃ t, exec i s = .next t ∧ Q t) : Leads i 1 P Q := by
  intro s hs
  obtain ⟨t, hexec, ht⟩ := h s hs
  exact ⟨t, execs_succ hexec 0, ht⟩

theorem Leads.trans {i : Instr} {m n : Nat} {P Q R : State → Prop} (h : Leads i m P Q) (h' : Leads i n Q R) :
    Leads i (m + n) P R := by
  intro s hs
  obtain ⟨t, hrun, ht⟩ := h s hs
  obtain ⟨u, hrun', hu⟩ := h' t ht
  exact ⟨u, (execs_add n hrun).trans hrun', hu⟩

/-- A stretch, from its first step on. -/
theorem Leads.cons {i : Instr} {n : Nat} {P Q R : State → Prop} (h : Leads i 1 P Q) (h' : Leads i n Q R) :
    Leads i (n + 1) P R :=
  Nat.add_comm 1 n ▸ h.trans h'

/-- Context `n` is the active one and has the registers `c`; the transactions so far, and the device's answers to come. -/
structure Shows (n : Nat) (c : Context) (trace : List BusEvent) (answers : List Word) (s : State) : Prop where
  active : s.active = n
  context : s.ctxs[n]? = some c
  trace : s.trace = trace
  answers : s.answers = answers

/-- Between two transactions of command `i`: the block shows these, and the context is ready for a transaction at any handle. -/
structure InProgress (i : Instr) (cfg : Config) (n : Nat) (c : Context) (trace : List BusEvent) (answers : List Word)
    (s : State) : Prop extends Shows n c trace answers s where
  cfg : s.cfg = cfg
  ready : ∀ h, Ready s i c h

section
variable {i : Instr} {cfg : Config} {n : Nat} {c d : Context} {trace : List BusEvent} {v : Word} {answers : List Word}
  {s : State}

/-- The next answer is the first one to come. -/
theorem Shows.answer_eq (g : Shows n c trace (v :: answers) s) : s.answer = v := by
  rw [State.answer, g.answers]

/-- What a read by the active context shows (R91). -/
theorem shows_afterRead (g : Shows n c trace (v :: answers) s) (i : Instr) (h : Handle) (d : Context) (b : Bool)
    (es : List LogEvent) : Shows n d (trace ++ readEvents n h [v]) answers (afterRead s i h (oracle s h) d b es) := by
  obtain rfl := g.active
  exact
    { active := rfl
      context := getElem?_set_active g.context d
      trace := by rw [afterRead_trace, g.answer_eq, g.trace]
      answers := congrArg List.tail g.answers }

/-- A read that does not complete its command. -/
theorem leads_read {h : Handle} (ho : d.op = some i)
    (hstep : ∀ s, Ready s i c h → s.cfg = cfg → s.answer = v →
      ∃ es, exec i s = .next (afterRead s i h (oracle s h) d false es)) :
    Leads i 1 (InProgress i cfg n c trace (v :: answers)) (InProgress i cfg n d (trace ++ readEvents n h [v]) answers) := by
  refine Leads.step fun s g => ?_
  obtain ⟨es, hexec⟩ := hstep s (g.ready h) g.cfg g.answer_eq
  exact ⟨_, hexec, shows_afterRead g.toShows i h d false es, g.cfg, fun k => ready_afterRead (g.ready h) ho (g.ready k).lockFree⟩

/-- A write that does not complete its command. -/
theorem leads_write {h : Handle} (ho : d.op = some i)
    (hstep : ∀ s, Ready s i c h → s.cfg = cfg → exec i s = .next (afterWrite s i h v d false)) :
    Leads i 1 (InProgress i cfg n c trace answers)
      (InProgress i cfg n d (trace ++ [⟨n, .write, h.addr, h.width, v⟩]) answers) := by
  refine Leads.step fun s g => ⟨_, hstep s (g.ready h) g.cfg, ?_, g.cfg,
    fun k => ready_afterWrite (g.ready h) ho (g.ready k).lockFree⟩
  obtain rfl := g.active
  exact ⟨rfl, getElem?_set_active g.context d, congrArg (· ++ _) g.trace, g.answers⟩

/-- The accepted GO (R119). -/
theorem leads_issue (hc : s.ctxs[s.active]? = some c) (hp : c.phase = .idle) (hw : i.wellFormed = true) (hlocks : s.locks = [])
    (hown : s.cfg.busLock = true → s.owner i.busClass = none ∨ s.owner i.busClass = some s.active) :
    Leads i 1 (s = ·) (InProgress i s.cfg s.active (Context.issued i c) s.trace s.answers) := by
  have hready (h : Handle) : Ready (s.issue i) i (Context.issued i c) h := ready_issue hc (by simp [hlocks]) hown
  refine Leads.step ?_
  rintro _ rfl
  exact ⟨_, exec_idle hc hp hw, ⟨rfl, (hready .data).current, rfl, rfl⟩, rfl, hready⟩

end

/-! ### The writes -/

/-- The rows lead from phase `p` to phase `q`, each in the phase that the one before goes to. -/
def Linked : Phase → List WriteRow → Phase → Prop
  | p, [], q => p = q
  | p, r :: rows, q => p = r.phase ∧ Linked r.next rows q

/-- A list of write phases, performed one after the other. -/
theorem leads_writes {i : Instr} {cfg : Config} {n : Nat} {c : Context} {trace : List BusEvent} {answers : List Word}
    {rows : List WriteRow} {q : Phase} (ho : c.op = some i) (hlinked : Linked c.phase rows q)
    (hrows : ∀ r ∈ rows, ∀ s c, Ready s i c r.handle → s.cfg = cfg → c.phase = r.phase →
      exec i s = .next (afterWrite s i r.handle r.value (Context.goTo r.next c) false)) :
    Leads i rows.length (InProgress i cfg n c trace answers)
      (InProgress i cfg n (Context.goTo q c) (trace ++ writeEvents n rows) answers) := by
  induction rows generalizing c trace with
  | nil =>
    obtain rfl : c.phase = q := hlinked
    rw [writeEvents, List.map_nil, List.append_nil]
    exact Leads.refl i _
  | cons row rows ih =>
    obtain ⟨hp, hrest⟩ := hlinked
    have hfirst := leads_write (n := n) (trace := trace) (answers := answers) (d := Context.goTo row.next c) ho
      fun s r hcfg => hrows row List.mem_cons_self s c r hcfg hp
    have hlater := ih (c := Context.goTo row.next c) (trace := trace ++ writeEvents n [row]) ho hrest
      fun r hr => hrows r (List.mem_cons_of_mem row hr)
    rw [List.append_assoc] at hlater
    exact hfirst.cons hlater

/-! ### A poll that ends in time -/

/-- The registers after the last of `m` reads of a poll, which was answered `v` (R191). -/
def pollEnd (next : Phase) (m : Nat) (v : Word) (c : Context) : Context :=
  { c with last := some (v.setWidth 8), iter := saturated m, phase := next }

/-- A limit above the reads made is not reached (R191). -/
theorem limitReached_saturated {limit : Option Word} {m : Nat} (h : ∀ n, limit = some n → m < n.toNat) :
    limitReached limit (saturated m) = false := by
  cases limit with
  | none => rfl
  | some n =>
    have hlt := h n rfl
    rw [limitReached, decide_eq_false_iff_not, BitVec.le_def, saturated_toNat]
    omega

section
variable {i : Instr} {s : State} {c : Context} {cond : PollCond} {next : Phase} {m : Nat}
variable (r : Ready s i c .cmdstat) (hpoll : pollOf i c.phase = some (cond, next))
include r hpoll

/-- The last read of a poll, after `m` others. -/
theorem exec_pollEnd (hiter : c.iter = saturated m) (h : condHolds cond (s.answer.setWidth 8) = true) :
    ∃ es, exec i s = .next
      (afterRead s i .cmdstat (oracle s .cmdstat) (pollEnd next (m + 1) s.answer c) false es) := by
  rw [← oracleByte_eq_answer (h := .cmdstat) rfl] at h
  rw [exec_poll_holds r hpoll h, afterPoll, oracleByte_eq_answer rfl, Context.polled, hiter, countRead_saturated]
  exact ⟨_, rfl⟩

/-- A read of a poll that is not its last. -/
theorem exec_pollAgain (h : condHolds cond (s.answer.setWidth 8) = false)
    (hl : limitReached s.cfg.pollLimit (countRead c.iter) = false) :
    ∃ es, exec i s = .next
      (afterRead s i .cmdstat (oracle s .cmdstat) (Context.polled (s.answer.setWidth 8) c) false es) := by
  rw [← oracleByte_eq_answer (h := .cmdstat) rfl] at h ⊢
  exact ⟨_, exec_poll_again r hpoll h hl⟩

end

/-- A poll that has made `m` reads and whose condition holds at last, below its limit: the next phase (R191, R192). -/
theorem leads_poll {i : Instr} {cfg : Config} {n : Nat} {c : Context} {trace : List BusEvent} {cond : PollCond} {next : Phase}
    {bad : List Word} {v : Word} {answers : List Word} {m : Nat} (ho : c.op = some i)
    (hpoll : pollOf i c.phase = some (cond, next)) (hiter : c.iter = saturated m)
    (hbad : ∀ a ∈ bad, condHolds cond (a.setWidth 8) = false) (hgood : condHolds cond (v.setWidth 8) = true)
    (hlimit : ∀ k, cfg.pollLimit = some k → m + bad.length < k.toNat) :
    Leads i (bad.length + 1) (InProgress i cfg n c trace (bad ++ v :: answers))
      (InProgress i cfg n (pollEnd next (m + bad.length + 1) v c) (trace ++ readEvents n .cmdstat (bad ++ [v])) answers) := by
  induction bad generalizing c trace m with
  | nil =>
    refine leads_read ho ?_
    rintro s r - rfl
    exact exec_pollEnd r hpoll hiter hgood
  | cons a bad ih =>
    have hlength : m + 1 + bad.length = m + (a :: bad).length := by rw [List.length_cons]; omega
    have hcount : countRead c.iter = saturated (m + 1) := by rw [hiter, countRead_saturated]
    have hbelow : limitReached cfg.pollLimit (countRead c.iter) = false := by
      rw [hcount]
      exact limitReached_saturated fun k hk => lt_of_le_of_lt (by omega) (hlimit k hk)
    have hfirst : Leads i 1 (InProgress i cfg n c trace (a :: (bad ++ v :: answers)))
        (InProgress i cfg n (Context.polled (a.setWidth 8) c) (trace ++ readEvents n .cmdstat [a]) (bad ++ v :: answers)) := by
      refine leads_read ho ?_
      rintro s r rfl rfl
      exact exec_pollAgain r hpoll (hbad _ List.mem_cons_self) hbelow
    have hlater := ih (c := Context.polled (a.setWidth 8) c) (trace := trace ++ readEvents n .cmdstat [a]) ho hpoll hcount
      (fun x hx => hbad x (List.mem_cons_of_mem a hx)) (by rwa [hlength])
    rw [append_readEvents_cons, hlength] at hlater
    exact hfirst.cons hlater

/-! ### The data phase -/

/-- The buffer `m` with `words` written from cell `k` on. -/
def writeFrom : Memory → Nat → List Half → Memory
  | m, _, [] => m
  | m, k, v :: words => writeFrom (Memory.write m k v) (k + 1) words

/-- From cell `k` on the buffer has the words, and else what it had. -/
theorem read_writeFrom (m : Memory) (k : Nat) (words : List Half) (j : Nat) :
    Memory.read (writeFrom m k words) j = if j < k then Memory.read m j else words[j - k]?.or (Memory.read m j) := by
  induction words generalizing m k with
  | nil => simp [writeFrom]
  | cons v words ih =>
    rw [writeFrom, ih]
    rcases Nat.lt_trichotomy j k with hlt | rfl | hgt
    · rw [if_pos (by omega), if_pos hlt, Memory.read_write_other m v (by omega)]
    · rw [if_pos (by omega), if_neg (by omega), Memory.read_write_same, Nat.sub_self]
      rfl
    · obtain ⟨l, rfl⟩ : ∃ l, j = k + l + 1 := ⟨j - k - 1, by omega⟩
      rw [if_neg (by omega), if_neg (by omega), Memory.read_write_other m v (by omega),
        show k + l + 1 - (k + 1) = l by omega, show k + l + 1 - k = l + 1 by omega, List.getElem?_cons_succ]

/-- An unwritten buffer then has exactly the words. -/
theorem read_writeFrom_nil (words : List Half) (j : Nat) : Memory.read (writeFrom [] 0 words) j = words[j]? := by
  rw [read_writeFrom, if_neg (Nat.not_lt_zero j), Nat.sub_zero, Memory.read_nil, Option.or_none]

/-- Phase `p` of command `i` fills the buffer: each word goes to its cell, and the 256th completes the command with the registers
that `ends` gives, told the full buffer (R218, R219, R276). -/
structure FillsBuffer (i : Instr) (p : Phase) (ends : Memory → Context → Context) : Prop where
  store : ∀ s c, Ready s i c .data → c.phase = p → c.idx < 255 →
    exec i s = .next
      (afterRead s i .data (oracle s .data) (Context.storeWord c.idx ((oracle s .data).setWidth 16) c) false [])
  last : ∀ s c, Ready s i c .data → c.phase = p → c.idx = 255 → (∀ k < 255, (Memory.read c.buf k).isSome = true) →
    exec i s = .next
      (afterRead s i .data (oracle s .data) (ends (Memory.write c.buf 255 ((oracle s .data).setWidth 16)) c) true [])
  ends_storeWord : ∀ buf k v c, ends buf (Context.storeWord k v c) = ends buf c

/-- The word read at the data port is the low half of the device's next answer. -/
theorem oracle_data (s : State) : (oracle s .data).setWidth 16 = s.answer.setWidth 16 := by
  have hword : ((s.answer.setWidth 16).setWidth 32).setWidth 16 = s.answer.setWidth 16 := by simp
  exact hword

/-- The data phase from word `idx` to the completion. -/
theorem leads_data {i : Instr} {cfg : Config} {n : Nat} {p : Phase} {ends : Memory → Context → Context} {c : Context}
    {trace : List BusEvent} {words answers : List Word} (hfills : FillsBuffer i p ends) (ho : c.op = some i)
    (hp : c.phase = p) (hidx : c.idx < 256) (hlen : c.idx + words.length = 256)
    (hwritten : ∀ k < c.idx, (Memory.read c.buf k).isSome = true) :
    Leads i words.length (InProgress i cfg n c trace (words ++ answers))
      (Shows n (ends (writeFrom c.buf c.idx (words.map (·.setWidth 16))) c) (trace ++ readEvents n .data words) answers) := by
  induction words generalizing c trace with
  | nil => exact absurd hlen (by rw [List.length_nil]; omega)
  | cons v words ih =>
    rw [List.length_cons] at hlen
    by_cases hlast : c.idx = 255
    · obtain rfl : words = [] := List.eq_nil_of_length_eq_zero (by omega)
      refine Leads.step fun s g => ⟨_, hfills.last s c (g.ready .data) hp hlast (hlast ▸ hwritten), ?_⟩
      rw [oracle_data, g.answer_eq, hlast]
      exact shows_afterRead g.toShows i .data _ true []
    · have hfirst := leads_read (cfg := cfg) (n := n) (trace := trace) (v := v) (answers := words ++ answers) (h := .data)
        (d := Context.storeWord c.idx (v.setWidth 16) c) ho fun s r _ hanswer =>
          ⟨[], by rw [hfills.store s c r hp (by omega), oracle_data, hanswer]⟩
      have hstored : ∀ k < c.idx + 1, (Memory.read (Memory.write c.buf c.idx (v.setWidth 16)) k).isSome = true := by
        intro k hk
        by_cases hnew : k = c.idx
        · rw [hnew, Memory.read_write_same]
          rfl
        · rw [Memory.read_write_other _ _ hnew]
          exact hwritten k (by omega)
      have hlater := ih (c := Context.storeWord c.idx (v.setWidth 16) c) (trace := trace ++ readEvents n .data [v]) ho hp
        (show c.idx + 1 < 256 by omega) (show c.idx + 1 + words.length = 256 by omega) hstored
      rw [append_readEvents_cons, hfills.ends_storeWord] at hlater
      exact hfirst.cons hlater

end Sys2Proof.Proofs
end

section
/-! SUPPORT. A whole IDENTIFY (43_drive_identify.md R210 to R220, R361), from its GO to its completion. -/

namespace Sys2Proof.Proofs

open Sys2Proof.Machine Sys2Proof.Spec Sys2Proof.Laws

/-! ### The registers after each signal, without `EARLY_ABORT` -/

/-- The registers after the read-back of `b`, on the way into the BSY poll (R213, R214, R190). -/
def pastReadBack (b : Byte) (c : Context) : Context :=
  { Context.enterPoll .iBsy (Context.readBack b c) with
    status := { c.status with absentSeen := if b = 0 then true else c.status.absentSeen } }

/-- The registers after the LBA-high byte `b`, on the way into the DRQ poll (R215, R216, R190). -/
def pastSignature (b : Byte) (c : Context) : Context :=
  { Context.enterPoll .iDrq (readHigh b c) with
    status := { c.status with notAtaSeen := if sigMid c.sig ≠ 0 ∨ b ≠ 0 then true else c.status.notAtaSeen } }

/-- The registers after IDENTIFY's completion with the buffer `buf` (R219, R220). -/
def identified (buf : Memory) (c : Context) : Context :=
  completed { c with buf := buf, info := some (decodeInfo (Memory.word buf)) } (lastWord c) (identifyOutcome c.status)

theorem pastReadBack_absent {b : Byte} (hb : b = 0) (c : Context) :
    pastReadBack b c = Context.enterPoll .iBsy (Context.markAbsent (Context.readBack b c)) := by
  rw [pastReadBack, if_pos hb]
  rfl

theorem pastReadBack_present {b : Byte} (hb : b ≠ 0) (c : Context) :
    pastReadBack b c = Context.enterPoll .iBsy (Context.readBack b c) := by
  rw [pastReadBack, if_neg hb]
  rfl

theorem pastSignature_notAta {b : Byte} {c : Context} (hb : sigMid c.sig ≠ 0 ∨ b ≠ 0) :
    pastSignature b c = Context.enterPoll .iDrq (Context.markNotAta (readHigh b c)) := by
  rw [pastSignature, if_pos hb]
  rfl

theorem pastSignature_ata {b : Byte} {c : Context} (hb : ¬ (sigMid c.sig ≠ 0 ∨ b ≠ 0)) :
    pastSignature b c = Context.enterPoll .iDrq (readHigh b c) := by
  rw [pastSignature, if_neg hb]
  rfl

section
variable {d : Drive} {s : State} {c : Context}

/-- The read-back, whichever its byte. -/
theorem exec_pastReadBack (r : Ready s (.ataIdentify d) c .cmdstat) (hp : c.phase = .iS0)
    (habort : ¬ s.cfg.earlyAbort = true) :
    ∃ es, exec (.ataIdentify d) s = .next
      (afterRead s (.ataIdentify d) .cmdstat (oracle s .cmdstat) (pastReadBack (oracleByte s .cmdstat) c) false es) := by
  by_cases hb : oracleByte s .cmdstat = 0
  · rw [pastReadBack_absent hb]
    exact ⟨_, exec_readBack_absent r hp hb habort⟩
  · rw [pastReadBack_present hb]
    exact ⟨_, exec_readBack_present r hp hb⟩

/-- The LBA-high byte, whichever the signature. -/
theorem exec_pastSignature (r : Ready s (.ataIdentify d) c .lbaHi) (hp : c.phase = .iRHi)
    (habort : ¬ s.cfg.earlyAbort = true) :
    ∃ es, exec (.ataIdentify d) s = .next
      (afterRead s (.ataIdentify d) .lbaHi (oracle s .lbaHi) (pastSignature (oracleByte s .lbaHi) c) false es) := by
  by_cases hb : sigMid c.sig ≠ 0 ∨ oracleByte s .lbaHi ≠ 0
  · rw [pastSignature_notAta hb]
    exact ⟨_, exec_signature_notAta r hp hb habort⟩
  · rw [pastSignature_ata hb]
    exact ⟨_, exec_signature_ata r hp hb⟩

end

/-! ### The stretches of IDENTIFY -/

section
variable {d : Drive} {cfg : Config} {n : Nat} {c : Context} {trace : List BusEvent} {v : Word} {answers : List Word}
variable (ho : c.op = some (.ataIdentify d))
include ho

theorem leads_identifyWrites (hp : c.phase = .iSel) :
    Leads (.ataIdentify d) 6 (InProgress (.ataIdentify d) cfg n c trace answers)
      (InProgress (.ataIdentify d) cfg n (Context.goTo .iS0 c) (trace ++ writeEvents n (identifyWrites cfg d)) answers) := by
  refine leads_writes (rows := identifyWrites cfg d) ho ⟨hp, rfl, rfl, rfl, rfl, rfl, rfl⟩ ?_
  rintro row hrow s c r rfl
  exact identifyPerformsItsSixWrites d s c row hrow r

theorem leads_readBack (hp : c.phase = .iS0) (habort : cfg.earlyAbort = false) :
    Leads (.ataIdentify d) 1 (InProgress (.ataIdentify d) cfg n c trace (v :: answers))
      (InProgress (.ataIdentify d) cfg n (pastReadBack (v.setWidth 8) c) (trace ++ readEvents n .cmdstat [v]) answers) := by
  refine leads_read ho ?_
  rintro s r rfl rfl
  rw [← oracleByte_eq_answer (h := .cmdstat) rfl]
  exact exec_pastReadBack r hp (by simp [habort])

theorem leads_lbaMid (hp : c.phase = .iRMid) :
    Leads (.ataIdentify d) 1 (InProgress (.ataIdentify d) cfg n c trace (v :: answers))
      (InProgress (.ataIdentify d) cfg n { c with sig := setSigMid c.sig (v.setWidth 8), phase := .iRHi }
        (trace ++ readEvents n .lbaMid [v]) answers) := by
  refine leads_read ho ?_
  rintro s r - rfl
  rw [← oracleByte_eq_answer (h := .lbaMid) rfl]
  exact ⟨[], identifyReadsLbaMidIntoSig d s c r hp⟩

theorem leads_lbaHigh (hp : c.phase = .iRHi) (habort : cfg.earlyAbort = false) :
    Leads (.ataIdentify d) 1 (InProgress (.ataIdentify d) cfg n c trace (v :: answers))
      (InProgress (.ataIdentify d) cfg n (pastSignature (v.setWidth 8) c) (trace ++ readEvents n .lbaHi [v]) answers) := by
  refine leads_read ho ?_
  rintro s r rfl rfl
  rw [← oracleByte_eq_answer (h := .lbaHi) rfl]
  exact exec_pastSignature r hp (by simp [habort])

end

theorem fillsBuffer_identify (d : Drive) : FillsBuffer (.ataIdentify d) .iData identified where
  store := identifyStoresEachDataWord d
  last := identifyCompletesWithTheDecodedRecord d
  ends_storeWord _ _ _ _ := rfl

/-! ### The whole run -/

/-- The registers of an IDENTIFY issued on context `c`, as it enters its data phase: the byte `s0` was read back, the BSY poll
made `k` reads, the last answered `ready`, the signature was `mid` and `high`, and the DRQ poll made `m` reads, the last
answered `drq`. -/
def atData (d : Drive) (c : Context) (s0 mid high : Byte) (k : Nat) (ready : Word) (m : Nat) (drq : Word) : Context :=
  let polled := pollEnd .iRMid k ready (pastReadBack s0 (Context.goTo .iS0 (Context.issued (.ataIdentify d) c)))
  pollEnd .iData m drq (pastSignature high { polled with sig := setSigMid polled.sig mid, phase := .iRHi })

/-! `SIG` as its four bytes, and each of the three writes of one byte (R44). -/

section
variable (x3 x2 x1 x0 b : Byte)

theorem setSigStatus_bytes : setSigStatus (x3 ++ x2 ++ x1 ++ x0) b = x3 ++ x2 ++ x1 ++ b := by
  have h0 := x0.isLt
  apply BitVec.eq_of_toNat_eq
  simp only [setSigStatus, BitVec.extractLsb'_toNat, append_toNat, Nat.shiftRight_eq_div_pow]
  omega

theorem setSigMid_bytes : setSigMid (x3 ++ x2 ++ x1 ++ x0) b = x3 ++ x2 ++ b ++ x0 := by
  have h0 := x0.isLt
  have h1 := x1.isLt
  apply BitVec.eq_of_toNat_eq
  simp only [setSigMid, BitVec.extractLsb'_toNat, append_toNat, Nat.shiftRight_eq_div_pow]
  omega

theorem setSigHigh_bytes : setSigHigh (x3 ++ x2 ++ x1 ++ x0) b = x3 ++ b ++ x1 ++ x0 := by
  have h0 := x0.isLt
  have h1 := x1.isLt
  have h2 := x2.isLt
  apply BitVec.eq_of_toNat_eq
  simp only [setSigHigh, BitVec.extractLsb'_toNat, append_toNat, Nat.shiftRight_eq_div_pow]
  omega

end

/-- `SIG`, cleared at the GO, after the three reads (R119, R44). -/
theorem sig_threeReads (s0 mid high : Byte) :
    setSigHigh (setSigMid (setSigStatus 0 s0) mid) high = 0#8 ++ high ++ mid ++ s0 := by
  have hzero : (0 : Word) = 0#8 ++ 0#8 ++ 0#8 ++ 0#8 := rfl
  rw [hzero, setSigStatus_bytes, setSigMid_bytes, setSigHigh_bytes]

theorem sigMid_setSigMid (sig : Word) (b : Byte) : sigMid (setSigMid sig b) = b := by
  apply BitVec.eq_of_toNat_eq
  have := b.isLt
  simp only [sigMid, setSigMid, BitVec.extractLsb'_toNat, append_toNat, Nat.shiftRight_eq_div_pow]
  omega

section
variable (d : Drive) (c : Context) (s0 mid high : Byte) (k : Nat) (ready : Word) (m : Nat) (drq : Word)

/-- ABSENT over NOT_ATA over OK, by the three bytes read (R214, R216, R220). -/
theorem identifyOutcome_atData :
    identifyOutcome (atData d c s0 mid high k ready m drq).status =
      if s0 = 0 then .absent else if mid = 0 ∧ high = 0 then .ok else .notAta := by
  have habsent : (atData d c s0 mid high k ready m drq).status.absentSeen = if s0 = 0 then true else false := rfl
  have hnotAta : (atData d c s0 mid high k ready m drq).status.notAtaSeen =
      if sigMid (setSigMid (setSigStatus 0 s0) mid) ≠ 0 ∨ high ≠ 0 then true else false := rfl
  rw [sigMid_setSigMid] at hnotAta
  rw [identifyOutcome, habsent, hnotAta]
  by_cases hs0 : s0 = 0
  · simp only [hs0, if_true]
  · by_cases hata : mid = 0 ∧ high = 0
    · obtain ⟨rfl, rfl⟩ := hata
      simp
    · simp only [hs0, hata, not_and_or.mp hata, ne_eq, if_true, if_false, Bool.false_eq_true]

end

/-- Settles O27: the stretches of the operation one after the other, and what the registers then hold. -/
theorem identifyRunsToCompletion : Obligations.IdentifyRunsToCompletion := by
  intro d s c s0 busy ready mid high waiting drq words rest hc hp hlocks hown habort ha hbusy hready hwaiting hdrq hlimit hlen
  have hanswers : s.answers = s0 :: (busy ++ ready :: mid :: high :: (waiting ++ drq :: (words ++ rest))) := by simpa using ha
  have hbusyLimit : ∀ n, s.cfg.pollLimit = some n → 0 + busy.length < n.toNat := by simpa using fun n hn => (hlimit n hn).1
  have hwaitingLimit : ∀ n, s.cfg.pollLimit = some n → 0 + waiting.length < n.toNat := by
    simpa using fun n hn => (hlimit n hn).2
  have hgo := leads_issue (i := .ataIdentify d) hc hp rfl hlocks hown
  rw [hanswers] at hgo
  have hsetup := (hgo.trans (leads_identifyWrites rfl rfl)).trans (leads_readBack rfl rfl habort)
  have hbsy := hsetup.trans (leads_poll rfl rfl rfl hbusy hready hbusyLimit)
  have hsignature := hbsy.trans ((leads_lbaMid rfl rfl).trans (leads_lbaHigh rfl rfl habort))
  have hpolled := hsignature.trans (leads_poll rfl rfl rfl hwaiting hdrq hwaitingLimit)
  have hrun := hpolled.trans (leads_data (fillsBuffer_identify d) rfl rfl (Nat.zero_lt_succ 255)
    ((Nat.zero_add _).trans hlen) fun k hk => absurd hk (Nat.not_lt_zero k))
  rw [hlen] at hrun
  obtain ⟨t, hexecs, hshows⟩ := hrun s rfl
  have hiter : saturated (0 + waiting.length + 1) = saturated (waiting.length + 1) := by rw [Nat.zero_add]
  have hbuf (k : Nat) : Memory.read (writeFrom [] 0 (words.map (·.setWidth 16))) k = (words[k]?).map (·.setWidth 16) := by
    rw [read_writeFrom_nil, List.getElem?_map]
  have hword (k : Nat) : Memory.word (writeFrom [] 0 (words.map (·.setWidth 16))) k = (words.getD k 0).setWidth 16 := by
    rw [Memory.word, hbuf, List.getD_eq_getElem?_getD]
    exact Option.getD_map (BitVec.setWidth 16) (0 : Word) _
  exact ⟨t, _, hexecs, hshows.context, hshows.trace, rfl, rfl, rfl, identifyOutcome_atData .., rfl, hiter, sig_threeReads _ _ _,
    fun k _ => hbuf k, congrArg (some ∘ decodeInfo) (funext hword), hshows.answers⟩

end Sys2Proof.Proofs
end

section
/-! SUPPORT. The identify-data decoder (44_identify_decoder.md): the pair swap (R244, R245), the text fields (R243, R246), the
numeric fields (R242, R247), and the words a record is made of (R248). -/

namespace Sys2Proof.Proofs

open Sys2Proof.Machine Sys2Proof.Spec Sys2Proof.Laws

/-! ### The pair swap -/

@[simp] theorem swapPairs_nil : swapPairs [] = some [] := rfl

@[simp] theorem swapPairs_singleton (x : Byte) : swapPairs [x] = none := rfl

theorem swapPairs_cons_cons_eq_some_iff {x y : Byte} {b r : List Byte} :
    swapPairs (x :: y :: b) = some r ↔ ∃ q, swapPairs b = some q ∧ y :: x :: q = r :=
  Option.map_eq_some_iff

theorem swapPairs_cons_cons_eq_none_iff {x y : Byte} {b : List Byte} :
    swapPairs (x :: y :: b) = none ↔ swapPairs b = none :=
  Option.map_eq_none_iff

/-- The odd lengths are the ones without a value (R244). -/
theorem swapPairs_eq_none_iff (b : List Byte) : swapPairs b = none ↔ b.length % 2 = 1 := by
  induction b using swapPairs.induct with
  | case1 => simp
  | case2 x => simp
  | case3 x y b ih =>
    rw [swapPairs_cons_cons_eq_none_iff, ih, List.length_cons, List.length_cons, Nat.add_assoc, Nat.add_mod_right]

theorem length_of_swapPairs {b r : List Byte} (h : swapPairs b = some r) : r.length = b.length := by
  induction b using swapPairs.induct generalizing r with
  | case1 =>
    obtain rfl : [] = r := Option.some.inj h
    rfl
  | case2 x => simp at h
  | case3 x y b ih =>
    obtain ⟨q, hq, rfl⟩ := swapPairs_cons_cons_eq_some_iff.mp h
    simp [ih hq]

/-- R245, for every sequence that `swap` has a value on. -/
theorem swapPairs_involutive {b r : List Byte} (h : swapPairs b = some r) : swapPairs r = some b := by
  induction b using swapPairs.induct generalizing r with
  | case1 =>
    obtain rfl : [] = r := Option.some.inj h
    rfl
  | case2 x => simp at h
  | case3 x y b ih =>
    obtain ⟨q, hq, rfl⟩ := swapPairs_cons_cons_eq_some_iff.mp h
    exact swapPairs_cons_cons_eq_some_iff.mpr ⟨b, ih hq, rfl⟩

/-- R244's index equation for the first byte of a pair; past the end both sides have no byte. -/
theorem swapPairs_getElem?_even {b r : List Byte} (h : swapPairs b = some r) (i : Nat) : r[2 * i]? = b[2 * i + 1]? := by
  induction b using swapPairs.induct generalizing r i with
  | case1 =>
    obtain rfl : [] = r := Option.some.inj h
    rfl
  | case2 x => simp at h
  | case3 x y b ih =>
    obtain ⟨q, hq, rfl⟩ := swapPairs_cons_cons_eq_some_iff.mp h
    cases i with
    | zero => rfl
    | succ i => exact ih hq i

/-- R244's index equation for the second byte of a pair: the other one read backwards. -/
theorem swapPairs_getElem?_odd {b r : List Byte} (h : swapPairs b = some r) (i : Nat) : r[2 * i + 1]? = b[2 * i]? :=
  (swapPairs_getElem?_even (swapPairs_involutive h) i).symm

/-- Settles O32: every fact about a value of `swap` is one about its pairs, and the odd lengths are the ones without a value. -/
theorem swapIsAnInvolutionOnEvenLengths : Obligations.SwapIsAnInvolutionOnEvenLengths := by
  intro b
  refine ⟨fun heven => ?_, (swapPairs_eq_none_iff b).mpr⟩
  have hvalue : swapPairs b ≠ none := fun hnone => by
    have hodd := (swapPairs_eq_none_iff b).mp hnone
    omega
  obtain ⟨r, hr⟩ := Option.ne_none_iff_exists'.mp hvalue
  exact ⟨r, hr, length_of_swapPairs hr, swapPairs_involutive hr,
    fun i _ => ⟨swapPairs_getElem?_even hr i, swapPairs_getElem?_odd hr i⟩⟩

/-! ### The text fields -/

/-- Two bytes for each entry of a list: the shape of the byte view and of a text field. -/
theorem swapPairs_flatMap_pair {α : Type} (f g : α → Byte) (l : List α) :
    swapPairs (l.flatMap fun x => [f x, g x]) = some (l.flatMap fun x => [g x, f x]) := by
  induction l with
  | nil => rfl
  | cons x l ih => exact swapPairs_cons_cons_eq_some_iff.mpr ⟨_, ih, rfl⟩

theorem getElem?_flatMap_pair {α : Type} (f g : α → Byte) (l : List α) (i : Nat) :
    (l.flatMap fun x => [f x, g x])[2 * i]? = l[i]?.map f ∧ (l.flatMap fun x => [f x, g x])[2 * i + 1]? = l[i]?.map g := by
  induction l generalizing i with
  | nil => simp
  | cons x l ih =>
    cases i with
    | zero => exact ⟨rfl, rfl⟩
    | succ i => exact ih i

theorem swapPairs_byteView (words : Nat → Half) (base n : Nat) :
    swapPairs (byteView words base n) = some (textField words base n) :=
  swapPairs_flatMap_pair ..

/-- R243's two index equations. -/
theorem textField_getElem? (words : Nat → Half) (base : Nat) {n i : Nat} (hi : i < n) :
    (textField words base n)[2 * i]? = some (highByte (words (base + i))) ∧
      (textField words base n)[2 * i + 1]? = some (lowByte (words (base + i))) := by
  have hpair := getElem?_flatMap_pair (fun i => highByte (words (base + i))) (fun i => lowByte (words (base + i)))
    (List.range n) i
  rwa [List.getElem?_range hi] at hpair

/-- Settles O33: the byte view and the text field list the same pairs of bytes in the two orders. -/
theorem textFieldIsSwappedByteView : Obligations.TextFieldIsSwappedByteView :=
  fun words base _ => ⟨swapPairs_byteView words base _, fun _ hi => textField_getElem? words base hi⟩

/-- `text(base, n)` has 2n bytes (R243). -/
@[simp] theorem length_textField (words : Nat → Half) (base n : Nat) : (textField words base n).length = 2 * n := by
  simp [textField, List.length_flatMap, Nat.mul_comm]

/-- Settles O34: each text field has two bytes for each of its words. -/
theorem recordTextLengthsAreFixed : Obligations.RecordTextLengthsAreFixed :=
  fun words => ⟨length_textField words 10 10, length_textField words 23 4, length_textField words 27 20⟩

/-! ### The numeric fields -/

theorem word32_eq_append (words : Nat → Half) (base : Nat) : word32 words base = words (base + 1) ++ words base :=
  (zext32_append ..).symm.trans (BitVec.setWidth_eq _)

theorem word64_eq_append (words : Nat → Half) (base : Nat) :
    word64 words base = words (base + 3) ++ words (base + 2) ++ words (base + 1) ++ words base := by
  calc word64 words base
    _ = (words (base + 3)).setWidth 64 <<< (16 + 16 + 16) ||| (words (base + 2)).setWidth 64 <<< (16 + 16)
          ||| (words (base + 1)).setWidth 64 <<< 16 ||| (words base).setWidth 64 := by
      simp only [word64, Nat.reduceAdd, BitVec.or_comm, BitVec.or_assoc]
    _ = (words (base + 3) ++ words (base + 2) ++ words (base + 1) ++ words base).setWidth 64 :=
      BitVec.setWidth_append_append_append_eq_shiftLeft_setWidth_or.symm
    _ = words (base + 3) ++ words (base + 2) ++ words (base + 1) ++ words base := BitVec.setWidth_eq _

/-- Settles O35: a 16-bit field is its word by definition, a wider one the concatenation of its words. -/
theorem recordNumericFieldsAreLowWordFirst : Obligations.RecordNumericFieldsAreLowWordFirst :=
  fun words => ⟨rfl, rfl, word32_eq_append words 49, rfl, rfl, word32_eq_append words 60, word64_eq_append words 100, rfl,
    word32_eq_append words 117⟩

/-! ### The words a record is made of -/

section
variable {words words' : Nat → Half} {base : Nat}

theorem textField_congr {n : Nat} (h : ∀ i < n, words (base + i) = words' (base + i)) :
    textField words base n = textField words' base n :=
  List.flatMap_congr fun i hi => by rw [h i (List.mem_range.mp hi)]

theorem word32_congr (h : ∀ i < 2, words (base + i) = words' (base + i)) : word32 words base = word32 words' base := by
  simp only [word32_eq_append]
  rw [h 1 (by decide), show words base = words' base from h 0 (by decide)]

theorem word64_congr (h : ∀ i < 4, words (base + i) = words' (base + i)) : word64 words base = word64 words' base := by
  simp only [word64_eq_append]
  rw [h 3 (by decide), h 2 (by decide), h 1 (by decide), show words base = words' base from h 0 (by decide)]

end

/-- Settles O36: each field is determined by its own words, and the blocks agree on those. -/
theorem decoderIgnoresUnnamedWords : Obligations.DecoderIgnoresUnnamedWords := by
  intro words words' h
  rw [decodeInfo, decodeInfo, DeviceInfo.mk.injEq]
  exact ⟨h 0 (by omega),
    textField_congr fun i hi => h (10 + i) (by omega),
    textField_congr fun i hi => h (23 + i) (by omega),
    textField_congr fun i hi => h (27 + i) (by omega),
    h 47 (by omega),
    word32_congr fun i hi => h (49 + i) (by omega),
    h 53 (by omega),
    h 59 (by omega),
    word32_congr fun i hi => h (60 + i) (by omega),
    word64_congr fun i hi => h (100 + i) (by omega),
    h 106 (by omega),
    word32_congr fun i hi => h (117 + i) (by omega)⟩

end Sys2Proof.Proofs
end

section
/-! SUPPORT. The sector-read engine (45_pio_sector_read.md), one step at a time: the six writes (R271 to R274) and the data phase
that fills the buffer (R276). -/

namespace Sys2Proof.Proofs

open Sys2Proof.Machine Sys2Proof.Spec Sys2Proof.Laws

/-- The four LBA bits fit the low half of the select byte, so widening the byte loses none of them (R121, R271). -/
theorem sectorSelect_setWidth (lba : Word) : (sectorSelect lba).setWidth 32 = 0xE0 ||| ((lba >>> 24) &&& 0x0F) := by
  have hle : ((lba >>> 24) &&& 0x0F).toNat ≤ 15 := Nat.and_le_right
  have hbits : (((lba >>> 24) &&& 0x0F).setWidth 8).setWidth 32 = (lba >>> 24) &&& 0x0F := by
    apply BitVec.eq_of_toNat_eq
    rw [BitVec.toNat_setWidth, BitVec.toNat_setWidth]
    omega
  rw [sectorSelect, BitVec.setWidth_or, hbits]
  rfl

/-- The write phase before a poll: the value written, and the poll entered with `ITER` 0 (R190). -/
theorem onWrite_enterPoll {i : Instr} {s : State} {c : Context} {h : Handle} (r : Ready s i c h) (v : Word) (q : Phase) :
    onWrite i h v s (fun t => .next (t.update (Context.enterPoll q))) = .next
      (afterWrite s i h (h.width.carry v) (Context.enterPoll q c) false) := by
  rw [onWrite_granted (Ready.granted r), busWrite_update r]

/-- Settles O28: each row of the list is a phase of the engine, and a byte fits its port. -/
theorem readSectorPerformsItsSixWrites : Obligations.ReadSectorPerformsItsSixWrites := by
  intro lba s c row hrow r hp
  have hbusy : c.phase ≠ .idle := by
    rw [hp]
    revert row
    simp [sectorWrites]
  rw [exec_ataReadSector, execAtaReadSector, runCommand_inFlight r.current hbusy r.latched]
  simp only [sectorWrites, List.mem_cons, List.not_mem_nil, or_false] at hrow
  rcases hrow with rfl | rfl | rfl | rfl | rfl | rfl <;> simp only at hp r ⊢ <;> simp only [hp]
  · rw [onWrite_goTo r, carry_byte, sectorSelect_setWidth]
    rfl
  · exact onWrite_goTo r _ _
  iterate 3
    rw [onWrite_goTo r, carry_byte]
    rfl
  · exact onWrite_enterPoll r _ _

section
variable {lba : Word} {s : State} {c : Context} (r : Ready s (.ataReadSector lba) c .data) (hp : c.phase = .rData)
include r hp

/-- Phase `R_DATA`: a data word is read (R276). -/
theorem exec_ataReadSector_rData (hidx : c.idx < 256) :
    exec (.ataReadSector lba) s = .next
      (sectorWord c ((oracle s .data).setWidth 16) (s.busRead (.ataReadSector lba) .data)) := by
  have hbusy : c.phase ≠ .idle := by simp [hp]
  rw [exec_ataReadSector, execAtaReadSector, runCommand_inFlight r.current hbusy r.latched]
  simp only [hp]
  rw [if_pos hidx, onRead_granted (Ready.granted r), readValue_eq_oracle]

/-- A word before the 256th goes to its cell, and the phase stays. -/
theorem exec_sectorWord_stores (hidx : c.idx < 255) :
    exec (.ataReadSector lba) s = .next
      (afterRead s (.ataReadSector lba) .data (oracle s .data)
        (Context.storeWord c.idx ((oracle s .data).setWidth 16) c) false []) := by
  rw [exec_ataReadSector_rData r hp (by omega), sectorWord, if_neg (by omega), busRead_update r]

/-- The 256th word goes to its cell, and the command completes with the last status byte. -/
theorem exec_sectorWord_completes (hidx : c.idx = 255) :
    exec (.ataReadSector lba) s = .next
      (afterRead s (.ataReadSector lba) .data (oracle s .data)
        (completed (Context.storeWord c.idx ((oracle s .data).setWidth 16) c) (lastWord c) .ok) true []) := by
  rw [exec_ataReadSector_rData r hp (by omega), sectorWord, if_pos hidx, busRead_update r, afterRead_finish r.current,
    lastResult_eq]

end

/-- Settles O29: a word before the 256th, and the 256th. -/
theorem readSectorStoresEachDataWord : Obligations.ReadSectorStoresEachDataWord := by
  intro lba s c r hp hidx d
  split_ifs with hbefore
  · exact exec_sectorWord_stores r hp hbefore
  · exact exec_sectorWord_completes r hp (by omega)

end Sys2Proof.Proofs
end

section
/-! SUPPORT. A whole READ_SECTOR (45_pio_sector_read.md R270 to R277, R361), from its GO to its completion. -/

namespace Sys2Proof.Proofs

open Sys2Proof.Machine Sys2Proof.Spec Sys2Proof.Laws

/-- The registers after READ_SECTOR's completion with the buffer `buf` (R276). -/
def sectorRead (buf : Memory) (c : Context) : Context := completed { c with buf := buf } (lastWord c) .ok

theorem fillsBuffer_readSector (lba : Word) : FillsBuffer (.ataReadSector lba) .rData sectorRead where
  store _ _ := exec_sectorWord_stores
  last s c r hp hidx _ := by
    rw [exec_sectorWord_completes r hp hidx, hidx]
    rfl
  ends_storeWord _ _ _ _ := rfl

/-- The first five writes; each goes on to the next one (R271 to R273). -/
theorem exec_sectorWrite_goTo {lba : Word} {row : WriteRow} (hrow : row ∈ (sectorWrites lba).dropLast) {s : State}
    {c : Context} (r : Ready s (.ataReadSector lba) c row.handle) (hp : c.phase = row.phase) :
    exec (.ataReadSector lba) s = .next
      (afterWrite s (.ataReadSector lba) row.handle row.value (Context.goTo row.next c) false) := by
  have hnext : row.next ≠ .rDrq := by
    revert row
    simp [sectorWrites]
  rw [readSectorPerformsItsSixWrites lba s c row (List.mem_of_mem_dropLast hrow) r hp, if_neg hnext]
  rfl

/-- The sixth write enters the poll (R274, R190). -/
theorem exec_sectorCommand {lba : Word} {s : State} {c : Context} (r : Ready s (.ataReadSector lba) c .cmdstat)
    (hp : c.phase = .rCmd) :
    exec (.ataReadSector lba) s = .next
      (afterWrite s (.ataReadSector lba) .cmdstat 0x20 (Context.enterPoll .rDrq c) false) :=
  readSectorPerformsItsSixWrites lba s c ⟨.rCmd, .cmdstat, 0x20, .rDrq⟩ (by simp [sectorWrites]) r hp

theorem leads_sectorWrites {lba : Word} {cfg : Config} {n : Nat} {c : Context} {trace : List BusEvent} {answers : List Word}
    (ho : c.op = some (.ataReadSector lba)) (hp : c.phase = .rSel) :
    Leads (.ataReadSector lba) 6 (InProgress (.ataReadSector lba) cfg n c trace answers)
      (InProgress (.ataReadSector lba) cfg n (Context.enterPoll .rDrq c) (trace ++ writeEvents n (sectorWrites lba))
        answers) := by
  have hsetup := leads_writes (cfg := cfg) (n := n) (trace := trace) (answers := answers)
    (rows := (sectorWrites lba).dropLast) (q := .rCmd) ho ⟨hp, rfl, rfl, rfl, rfl, rfl⟩
    fun row hrow s d r _ => exec_sectorWrite_goTo hrow r
  have hcommand := leads_write (cfg := cfg) (n := n) (c := Context.goTo .rCmd c)
    (trace := trace ++ writeEvents n (sectorWrites lba).dropLast) (answers := answers) (h := .cmdstat)
    (d := Context.enterPoll .rDrq (Context.goTo .rCmd c)) ho fun s r _ => exec_sectorCommand r rfl
  rw [List.append_assoc] at hcommand
  exact hsetup.trans hcommand

/-- Settles O30: the stretches of the operation one after the other, and what the registers then hold. -/
theorem readSectorRunsToCompletion : Obligations.ReadSectorRunsToCompletion := by
  intro lba s c waiting drq words rest hc hp hlocks hown ha hwaiting hdrq hlimit hlen
  have hanswers : s.answers = waiting ++ drq :: (words ++ rest) := by simpa using ha
  have hwaitingLimit : ∀ n, s.cfg.pollLimit = some n → 0 + waiting.length < n.toNat := by simpa using hlimit
  have hgo := leads_issue (i := .ataReadSector lba) hc hp rfl hlocks hown
  rw [hanswers] at hgo
  have hpolled := (hgo.trans (leads_sectorWrites rfl rfl)).trans (leads_poll rfl rfl rfl hwaiting hdrq hwaitingLimit)
  have hrun := hpolled.trans (leads_data (fillsBuffer_readSector lba) rfl rfl (Nat.zero_lt_succ 255)
    ((Nat.zero_add _).trans hlen) fun k hk => absurd hk (Nat.not_lt_zero k))
  rw [hlen] at hrun
  obtain ⟨t, hexecs, hshows⟩ := hrun s rfl
  have hiter : saturated (0 + waiting.length + 1) = saturated (waiting.length + 1) := by rw [Nat.zero_add]
  have hbuf (k : Nat) : Memory.read (writeFrom [] 0 (words.map (·.setWidth 16))) k = (words[k]?).map (·.setWidth 16) := by
    rw [read_writeFrom_nil, List.getElem?_map]
  exact ⟨t, _, hexecs, hshows.context, hshows.trace, rfl, rfl, rfl, rfl, rfl, hiter, rfl, fun k _ => hbuf k, rfl,
    hshows.answers⟩

end Sys2Proof.Proofs
end

section
/-! SUPPORT. Two READ_SECTORs that differ only in bits 31:28 of their operands (45_pio_sector_read.md R278): a run of the one is a
run of the other, but for the latched command. -/

namespace Sys2Proof.Proofs

open Sys2Proof.Machine Sys2Proof.Spec Sys2Proof.Laws

/-! ### The operand bytes -/

section
variable {lba lba' : Word} (h : lba.extractLsb' 0 28 = lba'.extractLsb' 0 28)
include h

theorem low28_toNat_eq : lba.toNat % 2 ^ 28 = lba'.toNat % 2 ^ 28 := by simpa using congrArg BitVec.toNat h

theorem lbaLow_eq_of_low28 : lbaLow lba = lbaLow lba' := by
  have hlow := low28_toNat_eq h
  apply BitVec.eq_of_toNat_eq
  simp only [lbaLow, BitVec.extractLsb'_toNat, Nat.shiftRight_eq_div_pow]
  omega

theorem lbaMid_eq_of_low28 : lbaMid lba = lbaMid lba' := by
  have hlow := low28_toNat_eq h
  apply BitVec.eq_of_toNat_eq
  simp only [lbaMid, BitVec.extractLsb'_toNat, Nat.shiftRight_eq_div_pow]
  omega

theorem lbaHigh_eq_of_low28 : lbaHigh lba = lbaHigh lba' := by
  have hlow := low28_toNat_eq h
  apply BitVec.eq_of_toNat_eq
  simp only [lbaHigh, BitVec.extractLsb'_toNat, Nat.shiftRight_eq_div_pow]
  omega

theorem sectorSelect_eq_of_low28 : sectorSelect lba = sectorSelect lba' := by
  have hlow := low28_toNat_eq h
  have hmask : (15#32).toNat = 2 ^ 4 - 1 := rfl
  have hbits : (lba >>> 24) &&& 15#32 = (lba' >>> 24) &&& 15#32 := by
    apply BitVec.eq_of_toNat_eq
    simp only [BitVec.toNat_and, hmask, Nat.and_two_pow_sub_one_eq_mod, BitVec.toNat_ushiftRight, Nat.shiftRight_eq_div_pow]
    omega
  exact congrArg (fun x : Word => 0xE0 ||| (0 <<< 4) ||| x.setWidth 8) hbits

end

/-! ### Another latched command -/

/-- The registers of a context, with `j` as the latched command. -/
def relatched (j : Instr) (c : Context) : Context := { c with op := some j }

/-- The state, with `j` as the latched command of the active context. -/
def relatch (j : Instr) (s : State) : State := s.update (relatched j)

/-- Two updates of the active context are one. -/
theorem update_update (s : State) (f g : Context → Context) : (s.update f).update g = s.update (g ∘ f) :=
  congrArg (fun cs => { s with ctxs := cs }) (List.modify_modify_eq f g s.active s.ctxs)

/-- An update of the active context sets it. -/
theorem update_eq_set {s : State} {c : Context} (hc : s.current = some c) (f : Context → Context) :
    s.update f = { s with ctxs := s.ctxs.set s.active (f c) } :=
  congrArg (fun cs => { s with ctxs := cs }) (State.modify_active hc f)

theorem update_id (s : State) : s.update id = s :=
  congrArg (fun cs => { s with ctxs := cs }) (List.modify_id s.active s.ctxs)

theorem current_relatch {s : State} {c : Context} (hc : s.current = some c) (j : Instr) :
    (relatch j s).current = some (relatched j c) := by
  rw [relatch, State.current_update, hc]
  rfl

/-- An update that does not look at the latched command. -/
theorem update_relatch {j : Instr} {f : Context → Context} (hf : f ∘ relatched j = relatched j ∘ f) (s : State) :
    (relatch j s).update f = relatch j (s.update f) := by
  rw [relatch, relatch, update_update, update_update, hf]

theorem logEvent_relatch (j : Instr) (s : State) (e : LogEvent) :
    (relatch j s).logEvent e = relatch j (s.logEvent e) := rfl

theorem complete_relatch (j : Instr) (s : State) (o : OutcomeCode) :
    (relatch j s).complete o = relatch j (s.complete o) :=
  congrArg (fun u : State => { s.complete o with ctxs := u.ctxs }) (update_relatch (j := j) (f := Context.completed o) rfl s)

theorem finish_relatch (j : Instr) (s : State) (v : Word) (o : OutcomeCode) :
    (relatch j s).finish v o = relatch j (s.finish v o) := by
  rw [State.finish, update_relatch (f := fun c => { c with result := v }) rfl, complete_relatch]
  rfl

theorem pollStep_relatch (j : Instr) (s : State) (c : Context) (cond : PollCond) (next : Phase) (v : Byte) :
    (relatch j s).pollStep (relatched j c) cond next v = relatch j (s.pollStep c cond next v) := by
  have hpolled (e : LogEvent) :
      ((relatch j s).update (Context.polled v)).logEvent e = relatch j ((s.update (Context.polled v)).logEvent e) :=
    congrArg (State.logEvent · e) (update_relatch (f := Context.polled v) rfl s)
  cases hcond : cond.holds v with
  | true =>
    rw [State.pollStep_holds hcond, State.pollStep_holds hcond, hpolled]
    exact update_relatch (f := Context.goTo next) rfl _
  | false =>
    cases hlimit : limitReached s.cfg.pollLimit (countRead c.iter) with
    | true =>
      rw [State.pollStep_timeout hcond hlimit,
        State.pollStep_timeout (s := relatch j s) (c := relatched j c) hcond hlimit, hpolled]
      exact finish_relatch j _ _ _
    | false =>
      rw [State.pollStep_again hcond hlimit, State.pollStep_again (s := relatch j s) (c := relatched j c) hcond hlimit]
      exact hpolled _

theorem sectorWord_relatch (j : Instr) (s : State) (c : Context) (v : Half) :
    sectorWord (relatched j c) v (relatch j s) = relatch j (sectorWord c v s) := by
  have hstored : (relatch j s).update (Context.storeWord c.idx v) = relatch j (s.update (Context.storeWord c.idx v)) :=
    update_relatch (f := Context.storeWord c.idx v) rfl s
  by_cases hlast : c.idx = 255
  · rw [sectorWord, sectorWord, if_pos hlast, if_pos (show (relatched j c).idx = 255 from hlast)]
    exact (congrArg (State.finish · _ _) hstored).trans (finish_relatch j _ _ _)
  · rw [sectorWord, sectorWord, if_neg hlast, if_neg (show ¬ (relatched j c).idx = 255 from hlast)]
    exact hstored

/-! ### The steps of two READ_SECTORs -/

section
variable {lba lba' : Word} {s t : State}

/-- A GO latches its own command, and else both operands' GOs do the same (R119). -/
theorem issue_eq_relatch : s.issue (.ataReadSector lba') = relatch (.ataReadSector lba') (s.issue (.ataReadSector lba)) :=
  (update_update s (Context.issued (.ataReadSector lba)) (relatched (.ataReadSector lba'))).symm

theorem issue_relatch :
    (relatch (.ataReadSector lba') s).issue (.ataReadSector lba') =
      relatch (.ataReadSector lba') (s.issue (.ataReadSector lba)) :=
  (update_update s (relatched (.ataReadSector lba')) (Context.issued (.ataReadSector lba'))).trans issue_eq_relatch

/-- A transaction is granted to both or to neither (R170, R172). -/
theorem granted_relatch (h : Handle) :
    (relatch (.ataReadSector lba') s).granted (.ataReadSector lba') h = s.granted (.ataReadSector lba) h := rfl

/-- A read waits for both or for neither, and returns the same value (R91). -/
theorem onRead_relatch {h : Handle} {g g' : Word → State → State}
    (hg : ∀ v u, g' v (relatch (.ataReadSector lba') u) = relatch (.ataReadSector lba') (g v u))
    (hr : onRead (.ataReadSector lba) h s (fun v u => .next (g v u)) = .next t) :
    onRead (.ataReadSector lba') h (relatch (.ataReadSector lba') s) (fun v u => .next (g' v u)) =
      .next (relatch (.ataReadSector lba') t) := by
  cases hs : s.granted (.ataReadSector lba) h with
  | true =>
    rw [onRead_granted hs] at hr
    cases hr
    rw [onRead_granted ((granted_relatch h).trans hs)]
    exact congrArg _ (hg (s.readValue h) (s.busRead (.ataReadSector lba) h))
  | false =>
    rw [onRead_waits hs] at hr
    cases hr
    exact onRead_waits ((granted_relatch h).trans hs) _

/-- A write waits for both or for neither. -/
theorem onWrite_relatch {h : Handle} {v v' : Word} {f : Context → Context} (hv : v = v')
    (hf : f ∘ relatched (.ataReadSector lba') = relatched (.ataReadSector lba') ∘ f)
    (hr : onWrite (.ataReadSector lba) h v s (fun u => .next (u.update f)) = .next t) :
    onWrite (.ataReadSector lba') h v' (relatch (.ataReadSector lba') s) (fun u => .next (u.update f)) =
      .next (relatch (.ataReadSector lba') t) := by
  subst hv
  cases hs : s.granted (.ataReadSector lba) h with
  | true =>
    rw [onWrite_granted hs] at hr
    cases hr
    rw [onWrite_granted ((granted_relatch h).trans hs)]
    exact congrArg _ (update_relatch hf (s.busWrite (.ataReadSector lba) h v))
  | false =>
    rw [onWrite_waits hs] at hr
    cases hr
    exact onWrite_waits ((granted_relatch h).trans hs) _ _

/-- One step of the one is a step of the other, but for the latched command. -/
theorem exec_relatch (hlba : lba.extractLsb' 0 28 = lba'.extractLsb' 0 28) {c : Context} (hc : s.current = some c)
    (ho : c.op = some (.ataReadSector lba)) (h : exec (.ataReadSector lba) s = .next t) :
    exec (.ataReadSector lba') (relatch (.ataReadSector lba') s) = .next (relatch (.ataReadSector lba') t) := by
  have hc' := current_relatch hc (.ataReadSector lba')
  by_cases hp : c.phase = .idle
  · rw [exec_idle hc hp rfl] at h
    cases h
    rw [exec_idle hc' hp rfl, issue_relatch]
  · rw [exec_ataReadSector, execAtaReadSector, runCommand_inFlight hc hp ho] at h
    rw [exec_ataReadSector, execAtaReadSector, runCommand_inFlight hc' hp rfl]
    have hphase : (relatched (.ataReadSector lba') c).phase = c.phase := rfl
    have hidx : (relatched (.ataReadSector lba') c).idx = c.idx := rfl
    rw [hphase]
    revert h
    split
    · exact onWrite_relatch (congrArg zext32 (sectorSelect_eq_of_low28 hlba)) rfl
    · exact onWrite_relatch rfl rfl
    · exact onWrite_relatch (congrArg zext32 (lbaLow_eq_of_low28 hlba)) rfl
    · exact onWrite_relatch (congrArg zext32 (lbaMid_eq_of_low28 hlba)) rfl
    · exact onWrite_relatch (congrArg zext32 (lbaHigh_eq_of_low28 hlba)) rfl
    · exact onWrite_relatch rfl rfl
    · exact onRead_relatch fun v u => pollStep_relatch _ u c .drqSet .rData (v.setWidth 8)
    · rw [hidx]
      split
      · exact onRead_relatch fun v u => sectorWord_relatch _ u c (v.setWidth 16)
      · exact nofun
    · exact nofun

end

/-! ### The runs -/

/-- Context `n` is the active one, and `i` is its latched command. -/
def Latched (i : Instr) (n : Nat) (s : State) : Prop := s.active = n ∧ ∃ c, s.ctxs[n]? = some c ∧ c.op = some i

theorem latched_issue {i : Instr} {s : State} {c : Context} (hc : s.current = some c) : Latched i s.active (s.issue i) :=
  ⟨rfl, Context.issued i c, (List.getElem?_modify_eq _ _ _).trans (congrArg (Option.map (Context.issued i)) hc), rfl⟩

/-- A transaction and what follows it leave the latched command (R119). -/
theorem latched_of_accesses {i : Instr} {n : Nat} {s t : State} (hl : Latched i n s) (ha : Accesses i s t) :
    Latched i n t := by
  obtain ⟨rfl, c, hc, ho⟩ := hl
  obtain ⟨h, u, -, -, ht, hu⟩ := ha
  obtain ⟨hactive, hctxs⟩ : u.active = s.active ∧ u.ctxs = s.ctxs := by
    obtain rfl | ⟨v, rfl, -⟩ := hu <;> exact ⟨rfl, rfl⟩
  obtain ⟨f, hf, hkeeps⟩ := ht.ctxs
  obtain ⟨-, -, hop, -⟩ := hkeeps c
  rw [hactive, hctxs] at hf
  exact ⟨ht.active.trans hactive, f c, by rw [hf, List.getElem?_modify_eq, hc]; rfl, hop.trans ho⟩

/-- The step of a well-formed command leaves it latched: a GO latches it again (R119). -/
theorem exec_latched {i : Instr} {n : Nat} {s t : State} (hw : i.wellFormed = true) (hl : Latched i n s)
    (h : exec i s = .next t) : Latched i n t := by
  obtain ⟨rfl, c, hc, ho⟩ := id hl
  cases exec_next_cases h with
  | waits => exact hl
  | accepted => exact latched_issue hc
  | bad _ _ _ hill => exact absurd (hw.symm.trans hill) (by decide)
  | turnedAway d hd _ hother =>
    cases hc.symm.trans hd
    exact absurd ho hother
  | accesses _ _ _ _ _ ha => exact latched_of_accesses hl ha

/-- The first of the steps of a run. -/
theorem execs_succ_next {i : Instr} {n : Nat} {s t : State} (h : execs i (n + 1) s = .next t) :
    ∃ u, exec i s = .next u ∧ execs i n u = .next t := by
  rw [execs] at h
  split at h
  next u hu => exact ⟨u, hu, h⟩
  · cases h
  · cases h

/-- A run of the one, from its GO on, is a run of the other, but for the latched command. -/
theorem execs_relatch {lba lba' : Word} (hlba : lba.extractLsb' 0 28 = lba'.extractLsb' 0 28) {n k : Nat} {s t : State}
    (hl : Latched (.ataReadSector lba) n s) (h : execs (.ataReadSector lba) k s = .next t) :
    execs (.ataReadSector lba') k (relatch (.ataReadSector lba') s) = .next (relatch (.ataReadSector lba') t) ∧
      Latched (.ataReadSector lba) n t := by
  induction k generalizing s with
  | zero =>
    cases h
    exact ⟨rfl, hl⟩
  | succ k ih =>
    obtain ⟨u, hu, hrun⟩ := execs_succ_next h
    obtain ⟨hrun', ht⟩ := ih (exec_latched rfl hl hu) hrun
    obtain ⟨rfl, c, hc, ho⟩ := hl
    exact ⟨(execs_succ (exec_relatch hlba hc ho hu) k).trans hrun', ht⟩

/-- Settles O31: no step, or the two GOs and then runs that differ in the latched command only. -/
theorem readSectorIgnoresTheTopLbaBits : Obligations.ReadSectorIgnoresTheTopLbaBits := by
  intro lba lba' s t c n hlba hc hp h
  cases n with
  | zero =>
    cases h
    exact ⟨c, c.op, hc, congrArg Host.Outcome.next ((update_id s).symm.trans (update_eq_set hc id)), rfl⟩
  | succ n =>
    obtain ⟨u, hu, hrun⟩ := execs_succ_next h
    rw [exec_idle hc hp rfl] at hu
    cases hu
    obtain ⟨hrun', hactive, e, he, ho⟩ := execs_relatch hlba (latched_issue hc) hrun
    rw [← hactive] at he ⊢
    refine ⟨e, some (.ataReadSector lba'), he, ?_, ho, rfl⟩
    calc execs (.ataReadSector lba') (n + 1) s
      _ = execs (.ataReadSector lba') n (s.issue (.ataReadSector lba')) := execs_succ (exec_idle hc hp rfl) n
      _ = .next (relatch (.ataReadSector lba') t) := by rw [issue_eq_relatch (lba := lba), hrun']
      _ = .next { t with ctxs := t.ctxs.set t.active { e with op := some (.ataReadSector lba') } } :=
        congrArg Host.Outcome.next (update_eq_set he _)

end Sys2Proof.Proofs
end

section
/-! SUPPORT. The host writes that are no command (60_exceptions.md R303, R308) and the IRQ14 delivery (R313): the whole next state
of each. -/

namespace Sys2Proof.Proofs

open Sys2Proof.Machine Sys2Proof.Spec

/-- A word that fails `valid` decodes to no command (R118). -/
theorem decode_error_of_invalid {w : CmdWord} (h : valid w = false) : ∃ r, decode w = .error r := by
  cases hd : decode w with
  | error r => exact ⟨r, rfl⟩
  | ok i =>
    have hvalid : valid w = true := (decoderAcceptsExactlyValidWords w).mp ⟨i, hd⟩
    exact absurd (hvalid.symm.trans h) (by decide)

section
variable {s : State} {n : Nat} {c : Context} (hc : s.ctxs[n]? = some c)
include hc

/-- A GO to an idle context whose word decodes to no command is a BAD_COMMAND (R303). -/
theorem goStep_undecoded {r : DecodeError} (hp : c.phase = .idle) (hd : decode c.command = .error r) :
    goStep n s = .next (s.select n).badCommand := by
  simp only [goStep, hc, hp, hd, if_true]

/-- A GO to a busy context is an overrun, whatever its word (R308). -/
theorem goStep_busy (hp : c.phase ≠ .idle) : goStep n s = .next (s.select n).overrun := by
  simp only [goStep, hc, hp, if_false]

/-- BAD_COMMAND sets the one context. -/
theorem badCommand_select_ctxs :
    (s.select n).badCommand.ctxs = s.ctxs.set n (Context.completed .badCommand { c.cleared with op := none }) :=
  (State.badCommand_ctxs _).trans (State.modify_active (s := s.select n) hc _)

end

/-- Settles O10: the write is a GO, its word is no command, and a BAD_COMMAND sets the context and gives back its owner
registers. -/
theorem invalidWordCompletesBadCommand : Obligations.InvalidWordCompletesBadCommand := by
  intro s n c v hpick hv hc hp hinvalid
  obtain ⟨r, hd⟩ := decode_error_of_invalid hinvalid
  rw [step_go hpick hv, goStep_undecoded (s := s.dropEvent) hc hp hd]
  exact congrArg (fun cs => Host.Outcome.next { (s.dropEvent.select n).badCommand with ctxs := cs })
    (badCommand_select_ctxs (s := s.dropEvent) hc)

/-- Settles O11: the write is a GO, and an overrun sets the one flag of the context. -/
theorem goWhileBusyOnlySetsOverrun : Obligations.GoWhileBusyOnlySetsOverrun := by
  intro s n c v hpick hv hc hp
  rw [step_go hpick hv, goStep_busy (s := s.dropEvent) hc hp]
  exact congrArg Host.Outcome.next (update_eq_set (s := s.dropEvent.select n) hc _)

/-- Settles O52: the delivery adds one to a 32-bit count, which is the sum mod 2^32. -/
theorem irq14CountsAndLogs : Obligations.Irq14CountsAndLogs := by
  intro s hpick
  have hcount : s.irqAckCount + 1 = BitVec.ofNat 32 ((s.irqAckCount.toNat + 1) % 2 ^ 32) :=
    BitVec.eq_of_toNat_eq (by simp)
  rw [step, hpick, ← hcount]
  rfl

end Sys2Proof.Proofs
end

section
/-! SUPPORT. Where a step can stop (60_exceptions.md R300, 20_memory.md R88): in a well-formed state every agent's step answers a
next state, but for a host access that is refused. -/

namespace Sys2Proof.Proofs

open Sys2Proof.Machine Sys2Proof.Spec

/-- A GO always answers: it is passed over, issued, a BAD_COMMAND or an overrun (R119). -/
theorem goStep_answers (n : Nat) (s : State) : ∃ t, goStep n s = .next t := by
  cases hc : s.ctxs[n]? with
  | none => exact ⟨s, by simp only [goStep, hc]⟩
  | some c =>
    by_cases hp : c.phase = .idle
    · cases hd : decode c.command with
      | error r => exact ⟨_, goStep_undecoded hc hp hd⟩
      | ok i =>
        exact ⟨_, (goStep_decoded hc hp hd).trans (exec_idle (s := s.select n) hc hp (decode_wellFormed hd))⟩
    · exact ⟨_, goStep_busy hc hp⟩

theorem answers_of_waitsOrAccesses {i : Instr} {s : State} {r : StepResult} (h : WaitsOrAccesses i s r) :
    ∃ t, r = .next t := by
  cases h with
  | waits => exact ⟨s, rfl⟩
  | accesses t => exact ⟨t, rfl⟩

/-- A well-formed context in flight has a command latched, whose step waits or performs its transaction; any other pick of a
context is passed over (R55). -/
theorem contextStep_answers {s : State} (hs : s.Inv) (n : Nat) : ∃ t, contextStep n s = .next t := by
  cases hc : s.ctxs[n]? with
  | none => exact ⟨s, by simp only [contextStep, hc]⟩
  | some c =>
    by_cases hp : c.phase = .idle
    · exact ⟨s, by simp only [contextStep, hc, hp, if_true]⟩
    · have hinv : c.Inv := hs.contextInv c (List.mem_of_getElem? hc)
      obtain ⟨i, ho, -, -⟩ := hinv.inFlight hp
      have hrun : contextStep n s = exec i (s.select n) := by simp only [contextStep, hc, hp, ho, if_false]
      rw [hrun]
      exact answers_of_waitsOrAccesses (exec_waitsOrAccesses (s := s.select n) hc hinv hp ho)

/-- The pick of a host write that R88 allows answers, a GO included. -/
theorem step_hostWrite_answers {s : State} {off : Nat} {v : Word} (hpick : Picks s (.hostWrite 32 off v))
    (ha : off % 4 = 0) : ∃ t, step s = .next t := by
  cases hgo : goTarget off v with
  | none => exact ⟨_, step_hostWrite hpick ha hgo⟩
  | some n =>
    have hallowed : hostAccessAllowed 32 off = true := (hostAccessAllowed_iff _ _).mpr ⟨rfl, ha⟩
    rw [step, hpick, runEvent, hostWriteStep, if_pos hallowed, hgo]
    exact goStep_answers n s.dropEvent

/-- Settles O56: contexts, IRQ14 and reset always answer, and a host access does where R88 allows it. -/
theorem wellFormedStateNeverFaults : Obligations.WellFormedStateNeverFaults := by
  intro s hs
  cases hpick : s.nextEvent with
  | hostRead width off =>
    by_cases hallowed : width = 32 ∧ off % 4 = 0
    · obtain ⟨rfl, ha⟩ := hallowed
      exact .inl ⟨_, step_hostRead hpick ha⟩
    · obtain ⟨hrefused, -⟩ := oddHostAccessIsRefused s width off 0 hallowed
      exact .inr ⟨width, off, hrefused hpick, hallowed, .inl rfl⟩
  | hostWrite width off v =>
    by_cases hallowed : width = 32 ∧ off % 4 = 0
    · obtain ⟨rfl, ha⟩ := hallowed
      exact .inl (step_hostWrite_answers hpick ha)
    · obtain ⟨-, hrefused⟩ := oddHostAccessIsRefused s width off v hallowed
      exact .inr ⟨width, off, hrefused hpick, hallowed, .inr ⟨v, rfl⟩⟩
  | context n =>
    rw [step, hpick]
    exact .inl (contextStep_answers (inv_dropEvent hs) n)
  | irq14 => exact .inl ⟨_, congrArg (runEvent · s.dropEvent) hpick⟩
  | reset => exact .inl ⟨_, congrArg (runEvent · s.dropEvent) hpick⟩

end Sys2Proof.Proofs
end

section
/-! SUPPORT. Each agent's step leaves every context it does not touch (10_state.md R319, 60_exceptions.md R312, R313). -/

namespace Sys2Proof.Proofs

open Sys2Proof.Machine Sys2Proof.Spec

/-- A GO is a write into the window of its context (R56). -/
theorem window_of_goTarget {off m : Nat} {v : Word} (h : goTarget off v = some m) : off / 0x1000 = m + 1 := by
  simp only [goTarget, Option.ite_none_right_eq_some, Option.some.injEq] at h
  omega

/-- A plain host write changes no context but the one in whose window it falls. -/
theorem hostWrite_otherContext {off n : Nat} (hoff : off / 0x1000 ≠ n + 1) (s : State) (v : Word) :
    (s.hostWrite off v).ctxs[n]? = s.ctxs[n]? := by
  simp only [State.hostWrite]
  split
  · rfl
  next hwindow =>
    have hn : off / 0x1000 - 1 ≠ n := by omega
    split
    · rfl
    · exact List.getElem?_modify_ne _ _ hn

/-- An agent's step changes no context that its event does not touch. -/
theorem agentStep_otherContext {e : Event} {s t : State} {n : Nat} (h : AgentStep s e t) (htouch : touches e n = false) :
    t.ctxs[n]? = s.ctxs[n]? := by
  have hmodify {width off m : Nat} {v : Word} (hgo : goTarget off v = some m)
      (hoff : touches (.hostWrite width off v) n = false) (f : Context → Context) :
      (s.ctxs.modify m f)[n]? = s.ctxs[n]? := by
    have hm : m ≠ n := by simpa [touches, window_of_goTarget hgo] using hoff
    exact List.getElem?_modify_ne f _ hm
  cases h with
  | passedOver => rfl
  | hostRead => rfl
  | hostWrite _ off v => exact hostWrite_otherContext (by simpa [touches] using htouch) s v
  | badCommand _ _ _ m _ hgo => rw [State.badCommand_ctxs]; exact hmodify hgo htouch _
  | issue _ _ _ m _ _ hgo => exact hmodify hgo htouch _
  | overrun _ _ _ m _ hgo => exact hmodify hgo htouch _
  | command m _ _ _ _ _ _ hexec =>
    exact exec_otherContext hexec (show m ≠ n by simpa [touches] using htouch)
  | irq14 => rfl
  | reset => cases htouch

/-- Settles O59: the pick leaves every context, and the agent every one its event does not touch. -/
theorem stepTouchesOneContextOnly : Obligations.StepTouchesOneContextOnly :=
  fun s _ _ h htouch => agentStep_otherContext (s := s.dropEvent) (agentStep_of_step h) htouch

end Sys2Proof.Proofs
end

section
/-! SUPPORT. The log is only written (60_exceptions.md R321): with more events before it, every operation does the same, and those
events stay before its own. -/

namespace Sys2Proof.Proofs

open Sys2Proof.Machine Sys2Proof.Spec

/-- The state, with the events of `l` before those of its log. -/
def withHistory (l : List LogEvent) (s : State) : State := { s with log := l ++ s.log }

/-- The same answer, with the events of `l` before those of the next state's log. -/
def answerWithHistory (l : List LogEvent) : StepResult → StepResult
  | .next t => .next (withHistory l t)
  | .fault r => .fault r
  | .refused r => .refused r

/-- Any state is the one with an empty log, with its own log as history. -/
theorem withHistory_emptyLog (s : State) (l : List LogEvent) :
    withHistory l { s with log := [] } = { s with log := l } :=
  congrArg (fun es => { s with log := es }) (List.append_nil l)

section
variable (l : List LogEvent)

/-! ### The operations on the state -/

@[simp] theorem withHistory_cfg (s : State) : (withHistory l s).cfg = s.cfg := rfl

@[simp] theorem withHistory_ctxs (s : State) : (withHistory l s).ctxs = s.ctxs := rfl

@[simp] theorem withHistory_active (s : State) : (withHistory l s).active = s.active := rfl

@[simp] theorem update_withHistory (s : State) (f : Context → Context) :
    (withHistory l s).update f = withHistory l (s.update f) := rfl

@[simp] theorem finish_withHistory (s : State) (v : Word) (o : OutcomeCode) :
    (withHistory l s).finish v o = withHistory l (s.finish v o) := rfl

@[simp] theorem logEvent_withHistory (s : State) (e : LogEvent) :
    (withHistory l s).logEvent e = withHistory l (s.logEvent e) :=
  congrArg (fun es => { s with log := es }) (List.append_assoc l s.log [e])

theorem takeIrq14_withHistory (s : State) : (withHistory l s).takeIrq14 = withHistory l s.takeIrq14 :=
  congrArg (fun es => { s.takeIrq14 with log := es }) (List.append_assoc l s.log [.irq14])

theorem hostWrite_withHistory (s : State) (off : Nat) (v : Word) :
    (withHistory l s).hostWrite off v = withHistory l (s.hostWrite off v) := by
  simp only [State.hostWrite]
  split
  · rfl
  · split <;> rfl

/-! ### What follows an access in its step -/

theorem pollStep_withHistory (s : State) (c : Context) (cond : PollCond) (next : Phase) (v : Byte) :
    (withHistory l s).pollStep c cond next v = withHistory l (s.pollStep c cond next v) := by
  simp only [State.pollStep, update_withHistory, withHistory_active, logEvent_withHistory, finish_withHistory,
    withHistory_cfg, ← apply_ite]

theorem identifyReadBack_withHistory (b : Byte) (s : State) :
    identifyReadBack b (withHistory l s) = withHistory l (identifyReadBack b s) := by
  simp only [identifyReadBack, update_withHistory, withHistory_active, logEvent_withHistory, finish_withHistory,
    withHistory_cfg, ← apply_ite]

theorem identifySignature_withHistory (c : Context) (b : Byte) (s : State) :
    identifySignature c b (withHistory l s) = withHistory l (identifySignature c b s) := by
  simp only [identifySignature, update_withHistory, withHistory_active, logEvent_withHistory, finish_withHistory,
    withHistory_cfg, ← apply_ite]

theorem sectorWord_withHistory (c : Context) (v : Half) (s : State) :
    sectorWord c v (withHistory l s) = withHistory l (sectorWord c v s) := by
  simp only [sectorWord, update_withHistory, finish_withHistory, ← apply_ite]

theorem identifyWord_withHistory (c : Context) (v : Half) (s : State) :
    identifyWord c v (withHistory l s) = answerWithHistory l (identifyWord c v s) := by
  simp only [identifyWord, apply_ite (answerWithHistory l)]
  rfl

/-! ### One step of a command -/

/-- Whether a transaction is granted, and what a read returns, do not depend on the log. -/
theorem onRead_withHistory {i : Instr} {h : Handle} {s : State} {k : Word → State → StepResult}
    (hk : ∀ v u, k v (withHistory l u) = answerWithHistory l (k v u)) :
    onRead i h (withHistory l s) k = answerWithHistory l (onRead i h s k) := by
  cases hg : s.granted i h with
  | true =>
    rw [onRead_granted hg, onRead_granted (s := withHistory l s) hg]
    exact hk (s.readValue h) (s.busRead i h)
  | false => rw [onRead_waits hg, onRead_waits (s := withHistory l s) hg]; rfl

theorem onWrite_withHistory {i : Instr} {h : Handle} {v : Word} {s : State} {k : State → StepResult}
    (hk : ∀ u, k (withHistory l u) = answerWithHistory l (k u)) :
    onWrite i h v (withHistory l s) k = answerWithHistory l (onWrite i h v s k) := by
  cases hg : s.granted i h with
  | true =>
    rw [onWrite_granted hg, onWrite_granted (s := withHistory l s) hg]
    exact hk (s.busWrite i h v)
  | false => rw [onWrite_waits hg, onWrite_waits (s := withHistory l s) hg]; rfl

theorem runCommand_withHistory {i : Instr} {s : State} {body body' : Context → StepResult}
    (hbody : ∀ c, body' c = answerWithHistory l (body c)) :
    runCommand i (withHistory l s) body' = answerWithHistory l (runCommand i s body) := by
  rcases runCommand_cases (i := i) (s := s) (body := body) rfl with
    ⟨hc, e⟩ | ⟨c, hc, hp, hw, e⟩ | ⟨c, hc, hp, hw, e⟩ | ⟨c, hc, hp, ho, e⟩ | ⟨c, hc, hp, ho, e⟩ <;> rw [e]
  · exact runCommand_noContext (s := withHistory l s) hc _
  · exact runCommand_idle (s := withHistory l s) hc hp hw _
  · exact runCommand_illFormed (s := withHistory l s) hc hp hw _
  · exact (runCommand_inFlight (s := withHistory l s) hc hp ho _).trans (hbody c)
  · exact runCommand_busy (s := withHistory l s) hc hp ho _

theorem exec_withHistory (i : Instr) (s : State) :
    exec i (withHistory l s) = answerWithHistory l (exec i s) := by
  cases i with
  | portRead h =>
    refine runCommand_withHistory l fun c => ?_
    split
    · exact onRead_withHistory l fun _ _ => rfl
    · rfl
  | portWrite h data =>
    refine runCommand_withHistory l fun c => ?_
    split
    · exact onWrite_withHistory l fun _ => rfl
    · rfl
  | pciCfgRead bus slot func off =>
    refine runCommand_withHistory l fun c => ?_
    split
    · exact onWrite_withHistory l fun _ => rfl
    · exact onRead_withHistory l fun _ _ => rfl
    · rfl
  | ataIdentify d =>
    refine runCommand_withHistory l fun c => ?_
    split
    -- six writes, then the reads in their order
    iterate 6 exact onWrite_withHistory l fun _ => rfl
    · exact onRead_withHistory l fun _ u => congrArg _ (identifyReadBack_withHistory l _ u)
    · exact onRead_withHistory l fun _ u => congrArg _ (pollStep_withHistory l u _ _ _ _)
    · exact onRead_withHistory l fun _ _ => rfl
    · exact onRead_withHistory l fun _ u => congrArg _ (identifySignature_withHistory l _ _ u)
    · exact onRead_withHistory l fun _ u => congrArg _ (pollStep_withHistory l u _ _ _ _)
    · split
      · exact onRead_withHistory l fun _ u => identifyWord_withHistory l _ _ u
      · rfl
    · rfl
  | ataReadSector lba =>
    refine runCommand_withHistory l fun c => ?_
    split
    -- six writes, then the poll and the data phase
    iterate 6 exact onWrite_withHistory l fun _ => rfl
    · exact onRead_withHistory l fun _ u => congrArg _ (pollStep_withHistory l u _ _ _ _)
    · split
      · exact onRead_withHistory l fun _ u => congrArg _ (sectorWord_withHistory l _ _ u)
      · rfl
    · rfl

/-! ### One step of the machine -/

theorem goStep_withHistory (n : Nat) (s : State) :
    goStep n (withHistory l s) = answerWithHistory l (goStep n s) := by
  simp only [goStep, withHistory_ctxs]
  split
  · rfl
  · split
    · split
      · rfl
      · exact exec_withHistory l _ (s.select n)
    · rfl

theorem contextStep_withHistory (n : Nat) (s : State) :
    contextStep n (withHistory l s) = answerWithHistory l (contextStep n s) := by
  simp only [contextStep, withHistory_ctxs]
  split
  · rfl
  · split
    · rfl
    · split
      · rfl
      · exact exec_withHistory l _ (s.select n)

theorem runEvent_withHistory (e : Event) (s : State) :
    runEvent e (withHistory l s) = answerWithHistory l (runEvent e s) := by
  cases e with
  | hostRead width off =>
    simp only [runEvent, hostReadStep, apply_ite (answerWithHistory l)]
    rfl
  | hostWrite width off v =>
    simp only [runEvent, hostWriteStep]
    split
    · split
      · exact goStep_withHistory l _ s
      · exact congrArg Host.Outcome.next (hostWrite_withHistory l s off v)
    · rfl
  | context n => exact contextStep_withHistory l n s
  | irq14 => exact congrArg Host.Outcome.next (takeIrq14_withHistory l s)
  | reset => rfl

/-- A step with more history answers the same, with more history. -/
theorem step_withHistory (s : State) : step (withHistory l s) = answerWithHistory l (step s) :=
  runEvent_withHistory l s.nextEvent s.dropEvent

/-- The step with the log `l` is the one with an empty log, with `l` as history. -/
theorem step_log (s : State) :
    step { s with log := l } = answerWithHistory l (step { s with log := [] }) := by
  rw [← withHistory_emptyLog, step_withHistory]

end

/-- Settles O58: with either log the step is that with an empty log, whose own events come last. -/
theorem logInfluencesNothing : Obligations.LogInfluencesNothing := by
  intro s l
  have hs : step s = answerWithHistory s.log (step { s with log := [] }) := step_log s.log s
  rw [hs, step_log l s]
  cases step { s with log := [] } with
  | next u =>
    refine ⟨fun t ht => ?_, nofun, nofun⟩
    cases ht
    exact ⟨u.log, rfl, rfl⟩
  | fault q => exact ⟨nofun, fun r hr => by cases hr; rfl, nofun⟩
  | refused q => exact ⟨nofun, nofun, fun r hr => by cases hr; rfl⟩

end Sys2Proof.Proofs
end

section
/-! SUPPORT. The reset (70_reset_and_hazards.md R340, R341): the whole next state, and the state at model start. -/

namespace Sys2Proof.Proofs

open Sys2Proof.Machine Sys2Proof.Spec

/-- The contexts a reset leaves: each context of the state, at its reset value (R340). -/
theorem takeReset_ctxs_eq_map (s : State) : s.takeReset.ctxs = s.ctxs.map fun _ => Context.reset := by
  rw [State.takeReset_ctxs, List.map_const']

/-- Settles O53: the pick runs the reset, which sets the registers one by one and every context to its reset value. -/
theorem resetClearsEveryRegister : Obligations.ResetClearsEveryRegister := by
  intro s hpick
  have hctxs : s.dropEvent.takeReset.ctxs = s.ctxs.map fun _ => Context.reset := takeReset_ctxs_eq_map s.dropEvent
  calc step s = .next s.dropEvent.takeReset := congrArg (runEvent · s.dropEvent) hpick
    _ = .next { s.dropEvent.takeReset with ctxs := s.ctxs.map fun _ => Context.reset } := by rw [← hctxs]

/-- Settles O54: at model start every context is at reset and nothing is owned. -/
theorem startStateIsWellFormed : Obligations.StartStateIsWellFormed :=
  fun _ hw => inv_start hw

end Sys2Proof.Proofs
end
